-- ==== Sys2Proof/Word.lean ====
section
/-! DEFINITION. The word types of the model: bytes, 64-bit registers and linear addresses, and the
12-bit process-context identifier (spec rules R4, R23, R120). -/

namespace Sys2Proof

/-- One byte of physical memory (R32). -/
abbrev Byte := BitVec 8

/-- A 64-bit register, operand or linear address (R23, R104). -/
abbrev Word := BitVec 64

/-- "A PCID is a 12-bit identifier" (R120). -/
abbrev Pcid := BitVec 12

end Sys2Proof
end

