-- ==== Sys2Proof/Syntax.lean ====
section
/-! DEFINITION. The syntax of the machine: the operand types and `Instr`, one constructor for each
row of spec/opcode_table.json (instructions, events and processor-internal steps: R100, R101). -/

namespace Sys2Proof

/-- The general registers that the three-bit fields of the table's encodings can name. The spec has
no register file (R40). PRESUMED: the family's eight names and numbers (log entry 2). -/
inductive Reg
  | rax | rcx | rdx | rbx | rsp | rbp | rsi | rdi
  deriving DecidableEq, Repr, Inhabited

/-- The displacement of a ModR/M memory form. -/
inductive Disp
  | none
  | d8 (d : Byte)
  | d32 (d : BitVec 32)
  deriving DecidableEq, Repr, Inhabited

/-- A ModR/M memory form (`mod` other than 11B), with the SIB byte and the displacement that the
table's `INVLPG` and `INVPCID` rows say may follow (R110; the forms themselves are PRESUMED, log
entry 3). In a SIB form the index `rsp` stands for "no index". -/
inductive MemOperand
  | base (r : Reg) (d : Disp)
  | direct (d : BitVec 32)
  | sib (scale : BitVec 2) (index base : Reg) (d : Disp)
  | sibDirect (scale : BitVec 2) (index : Reg) (d : BitVec 32)
  deriving DecidableEq, Repr, Inhabited

/-- The kind of an access: `kind` in {read, write, fetch} (R101, R322). -/
inductive Kind
  | read | write | fetch
  deriving DecidableEq, Repr, Inhabited

/-- The privilege of an access: `priv` in {user, supervisor} (R101, R331). -/
inductive Priv
  | user | supervisor
  deriving DecidableEq, Repr, Inhabited

/-- What an access asks for: its kind, with the number of bytes it reads or the bytes it stores
(R307; no width is fixed by the spec, R70). -/
inductive Request
  | read (n : Nat)
  | write (bytes : List Byte)
  | fetch (n : Nat)
  deriving DecidableEq, Repr, Inhabited

/-- The page sizes of R63: 4 KBytes, 2 MBytes, 4 MBytes, 1 GByte. -/
inductive PageSize
  | k4 | m2 | m4 | g1
  deriving DecidableEq, Repr, Inhabited

/-- The four paging-structure caches (R30). -/
inductive CacheKind
  | pml5e | pml4e | pdpte | pde
  deriving DecidableEq, Repr, Inhabited

/-- The paging modes (R62). -/
inductive Machine.PagingMode
  | none | p32 | pae | l4 | l5
  deriving DecidableEq, Repr, Inhabited

/-- A TLB entry (R28, R29). `mode` is the paging mode it was made in, by whose addresses `pn` is meant (the
model's own; R247, log entry 37). `shift` is the size of the entry, `xshift` the size of the translation
it was cut from; `memType` and `other` are opaque to every rule. The entry does not record which kind of
paging, HLAT or ordinary, made it (R31: not in the source; DESIGN CHOICE, log entry 15). -/
structure TlbEntry where
  mode    : Machine.PagingMode
  pcid    : Pcid
  shift   : PageSize
  pn      : Nat
  xshift  : PageSize
  glob    : Bool
  frame   : Nat
  rw      : Bool
  us      : Bool
  xd      : Bool
  pkey    : BitVec 4
  dirty   : Bool
  memType : BitVec 3
  other   : Word
  deriving DecidableEq, Repr, Inhabited

/-- An entry of a paging-structure cache (R30), with the two HLAT fields of R31. `mode` is the paging mode it
was made in, by whose addresses `tag` is meant (the model's own; R247, log entry 37). -/
structure PscEntry where
  mode    : Machine.PagingMode
  pcid    : Pcid
  tag     : Nat
  addr    : Nat
  rw      : Bool
  us      : Bool
  xd      : Bool
  pcd     : Bool
  pwt     : Bool
  hlat    : Bool
  restart : Bool
  deriving DecidableEq, Repr, Inhabited

/-- The entries an eviction step drops: any subset of each cache (R220). -/
structure Eviction where
  tlb   : List TlbEntry
  pml5e : List PscEntry
  pml4e : List PscEntry
  pdpte : List PscEntry
  pde   : List PscEntry
  deriving DecidableEq, Repr, Inhabited

/-- One constructor per row of spec/opcode_table.json (R101). -/
inductive Instr
  /-- `INVLPG m` (R221): the operand is the linear address of the memory form. -/
  | invlpg (m : MemOperand)
  /-- `INVPCID r, m128` (R225): `r` holds the type, `m` is the descriptor in memory. -/
  | invpcid (r : Reg) (m : MemOperand)
  /-- `INVPCID` type 0, individual-address, its operands as values (R226). -/
  | invpcidAddress (pcid : Pcid) (la : Word)
  /-- `INVPCID` type 1, single-context, its operand as a value (R227). -/
  | invpcidContext (pcid : Pcid)
  /-- `INVPCID` type 2, all-context including globals (R228). -/
  | invpcidAllGlobals
  /-- `INVPCID` type 3, all-context (R229). -/
  | invpcidAll
  /-- `MOV CR0, r` (R230). -/
  | movToCr0 (r : Reg)
  /-- `MOV CR3, r` (R234). -/
  | movToCr3 (r : Reg)
  /-- `MOV CR4, r` (R237). -/
  | movToCr4 (r : Reg)
  /-- `MOV r, CRn` (R110, R308). -/
  | movFromCr (n : BitVec 3) (r : Reg)
  /-- `HLT` (R336). -/
  | hlt
  /-- The task-switch event (R238). -/
  | taskSwitch (newCr3 : Word)
  /-- The VMX-transition event (R239). -/
  | vmxTransition
  /-- The page-fault event (R242), with what delivery records of the access (R321). -/
  | pageFault (la : Word) (kind : Kind) (priv : Priv)
  /-- An access to a linear address (R191, R307). -/
  | access (la : Word) (req : Request) (priv : Priv)
  /-- A cache fill (R194). -/
  | fill (la : Word)
  /-- A cache eviction, or extra invalidation (R220). -/
  | evict (entries : Eviction)
  deriving DecidableEq, Repr, Inhabited

end Sys2Proof
end

