-- ==== Sys2Proof/Config.lean ====
section
/-! DEFINITION. What an implementation fixes (`Params`, R3) and the free values: constants with no
body that stand for every "may" of the spec (R5) and for every value the spec leaves open. A free
value is applied to the counter `State.draws`, which each use advances, so that two uses are
independent. Nothing can be proved about a free value: a claim holds for every choice (log entry 5). -/

namespace Sys2Proof

/-- The parameters of an implementation (R3), fixed for a machine. -/
structure Params where
  /-- `PCID_SUPPORTED`: whether `CR4.PCIDE` may be set (R122). -/
  pcidSupported : Bool
  /-- `HLAT_SUPPORTED` (R31, D10). -/
  hlatSupported : Bool
  /-- `MAXPHYADDR`, the width of a physical address, at most 52 (R3). -/
  maxPhyAddr : Nat
  /-- The physical ranges (base, size) with read side effects (R76, D7): empty by default. -/
  readSideEffects : List (Nat × Nat)
  deriving DecidableEq, Repr, Inhabited

/-- `MAXPHYADDR <= 52` (R3). -/
def Params.wf (c : Params) : Bool := c.maxPhyAddr ≤ 52

/-- The free choices of one translation or one fill (R191, R194, R195; 93_implementation_defined.md
M1 to M8, M12, M13, M22). -/
structure WalkChoice where
  /-- Which usable TLB entry, paging-structure-cache entry or root the translation starts from (R195). -/
  route : Nat
  /-- Where ordinary paging starts after a restart of HLAT paging (R186). -/
  restartRoute : Nat
  /-- The root of the HLAT structures (absent Section 4.5.1, D10). -/
  hlatRoot : Nat
  /-- For each entry read, which of the values memory has held since the last serializing
  instruction the read sees (R74, D8, D9). -/
  moments : List Nat
  /-- For each entry read, whether a cache entry is made from it (R146, R188). -/
  creates : List Bool
  /-- After how many entries the fill stops (R194). -/
  depth : Nat
  /-- Which page size, up to that of the translation, a TLB entry gets (R149). -/
  fracture : Nat
  /-- The other information a TLB entry holds (R29). -/
  other : Word
  /-- What a write does about a clear dirty flag (absent Section 4.8, R71). -/
  dirty : Nat
  deriving DecidableEq, Repr, Inhabited

/-- The access rights a translation ends with (R322): the logical-AND of the R/W flags and of the U/S
flags, the logical-OR of the XD flags, and the protection key. -/
structure Rights where
  rw   : Bool
  us   : Bool
  xd   : Bool
  pkey : BitVec 4
  deriving DecidableEq, Repr, Inhabited

/-- A step that a processor takes on its own between two operations (R335, R75). -/
inductive BackgroundAction
  /-- The fill step (R194). -/
  | fill (la : Word)
  /-- The eviction steps (R143, R190). -/
  | evict
  /-- A speculative read (R75). -/
  | read (la : Word)
  deriving DecidableEq, Repr, Inhabited

/-- FREE: the choices of a translation or fill. -/
opaque Config.walkChoice : Nat → WalkChoice

/-- FREE: which TLB entries an operation removes beyond those it must (R220, M9). -/
opaque Config.dropsTlb : Nat → TlbEntry → Bool

/-- FREE: which paging-structure-cache entries an operation removes beyond those it must (R220, M9). -/
opaque Config.dropsPsc : Nat → CacheKind → PscEntry → Bool

/-- FREE: the fills, evictions and speculative reads between two operations (R146, R143, R75). -/
opaque Config.background : Nat → List BackgroundAction

/-- FREE: which logical processor executes next (R335). -/
opaque Config.nextProcessor : Nat → Nat

/-- FREE: whether a halted processor is resumed (R336: what resumes it is not said). -/
opaque Config.wakes : Nat → Bool

/-- FREE: what an operation does in a case of R246 or R62 on which the spec is silent: 0 it faults,
1 it does nothing, anything else it acts as usual (N26: assume neither a fault nor its absence). -/
opaque Config.unusual : Nat → Nat

/-- FREE: whether an access with these rights is permitted, where no named property of `Permits`
decides (R322): the rights, the kind and privilege of the access, and CR0, CR4 and IA32_EFER. -/
opaque Config.permitsOpen : Rights → Kind → Priv → Word → Word → Word → Bool

/-- FREE: whether a protection key restricts an access (R322: named only). -/
opaque Config.pkeyRestricts : BitVec 4 → Kind → Priv → Bool

/-- FREE: how an access of more than a quadword is split, as (offset, length) in the order the parts
are made (R294, M14). -/
opaque Config.pieces : Nat → Nat → List (Nat × Nat)

/-- FREE: the instruction pointer that an address relative to it is formed with (R41: not modelled). -/
opaque Config.instructionPointer : Nat → Word

/-- FREE: whether the translations of the parts of one access that spans pages are made from the last part
to the first (R69, R326: no order is given). -/
opaque Config.lastPageFirst : Nat → Bool

/-- FREE: the frame (4 KBytes) of physical memory that a frame number of more bits than a physical address has
stands for: for `MAXPHYADDR`, the frame number (R3, R23: not said). -/
opaque Config.frameBeyond : Nat → Nat → Nat

end Sys2Proof
end

