-- ==== Sys2Proof/WellFormed.lean ====
section
/-! DEFINITION. Which instructions are well formed: the operand forms that an encoding can hold, and
accesses that touch at least one byte. -/

namespace Sys2Proof

/-- A memory form that the ModR/M, SIB and displacement bytes can hold. The base `rsp` needs the SIB
form; the base `rbp` needs a displacement (its place with `mod` = 00B is the direct form). -/
def MemOperand.wf : MemOperand → Bool
  | .base r d => r != .rsp && !(r == .rbp && d == .none)
  | .direct _ => true
  | .sib _ _ b d => !(b == .rbp && d == .none)
  | .sibDirect _ _ _ => true

/-- An access touches at least one byte. -/
def Request.wf : Request → Bool
  | .read n => n != 0
  | .write bs => bs != []
  | .fetch n => n != 0

/-- Well-formed instructions. -/
def Instr.wf : Instr → Bool
  | .invlpg m => m.wf
  | .invpcid _ m => m.wf
  | .invpcidAddress _ _ => true
  | .invpcidContext _ => true
  | .invpcidAllGlobals => true
  | .invpcidAll => true
  | .movToCr0 _ => true
  | .movToCr3 _ => true
  | .movToCr4 _ => true
  | .movFromCr _ _ => true
  | .hlt => true
  | .taskSwitch _ => true
  | .vmxTransition => true
  | .pageFault _ _ _ => true
  | .access _ req _ => req.wf
  | .fill _ => true
  | .evict _ => true

end Sys2Proof
end

