-- ==== Sys2Proof/Decode.lean ====
section
/-! DEFINITION. The decoder and the encoder of the table's machine encodings (R110, and
spec/opcode_table.json). The encodings are general knowledge in the spec itself; the SIB byte and the
displacements, which the table only names, are PRESUMED (log entry 3). Events and internal steps have
no encoding. -/

namespace Sys2Proof

/-- Why bytes are not an instruction of the table. -/
inductive DecodeError
  /-- The bytes end inside the instruction. -/
  | truncated
  /-- No row of the table begins with these bytes (R309: everything else is refused). -/
  | unknownOpcode (b : Byte)
  /-- `INVLPG` or `INVPCID` with a register operand (`mod` = 11B), which the table excludes. -/
  | registerForm
  /-- A move to a control register other than CR0, CR3 and CR4, or another `0F 01` group member. -/
  | unknownExtension (reg : BitVec 3)
  deriving DecidableEq, Repr

/-- The register that a three-bit field names (PRESUMED, log entry 2). -/
def Reg.ofBits (b : BitVec 3) : Reg :=
  match b.toNat with
  | 0 => .rax
  | 1 => .rcx
  | 2 => .rdx
  | 3 => .rbx
  | 4 => .rsp
  | 5 => .rbp
  | 6 => .rsi
  | _ => .rdi

/-- The three-bit field that names a register (PRESUMED, log entry 2). -/
def Reg.toBits : Reg → BitVec 3
  | .rax => 0
  | .rcx => 1
  | .rdx => 2
  | .rbx => 3
  | .rsp => 4
  | .rbp => 5
  | .rsi => 6
  | .rdi => 7

/-- A four-byte displacement, the byte at the lowest address least significant (D5). -/
def takeDisp32 : List Byte → Except DecodeError (BitVec 32 × List Byte)
  | b0 :: b1 :: b2 :: b3 :: rest => .ok ((b3 ++ b2 ++ b1 ++ b0 : BitVec 32), rest)
  | _ => .error .truncated

/-- The displacement that `mod` calls for. -/
def takeDisp (mod : BitVec 2) (bs : List Byte) : Except DecodeError (Disp × List Byte) :=
  if mod = 0 then .ok (.none, bs)
  else if mod = 1 then
    match bs with
    | b :: rest => .ok (.d8 b, rest)
    | [] => .error .truncated
  else
    match takeDisp32 bs with
    | .ok (d, rest) => .ok (.d32 d, rest)
    | .error e => .error e

/-- The memory form of a ModR/M byte and the bytes after it. -/
def takeMem (modrm : Byte) (bs : List Byte) : Except DecodeError (MemOperand × List Byte) :=
  let mod := modrm.extractLsb' 6 2
  let rm := modrm.extractLsb' 0 3
  if mod = 3 then .error .registerForm
  else if rm = 4 then
    match bs with
    | [] => .error .truncated
    | sib :: rest =>
      let scale := sib.extractLsb' 6 2
      let index := Reg.ofBits (sib.extractLsb' 3 3)
      let base := sib.extractLsb' 0 3
      if base = 5 ∧ mod = 0 then
        match takeDisp32 rest with
        | .ok (d, rest) => .ok (.sibDirect scale index d, rest)
        | .error e => .error e
      else
        match takeDisp mod rest with
        | .ok (d, rest) => .ok (.sib scale index (Reg.ofBits base) d, rest)
        | .error e => .error e
  else if rm = 5 ∧ mod = 0 then
    match takeDisp32 bs with
    | .ok (d, rest) => .ok (.direct d, rest)
    | .error e => .error e
  else
    match takeDisp mod bs with
    | .ok (d, rest) => .ok (.base (Reg.ofBits rm) d, rest)
    | .error e => .error e

/-- `0F 01 /7`, memory form: `INVLPG` (R110). -/
def decodeInvlpg : List Byte → Except DecodeError (Instr × List Byte)
  | [] => .error .truncated
  | modrm :: bs =>
    if modrm.extractLsb' 3 3 = (7 : BitVec 3) then
      match takeMem modrm bs with
      | .ok (m, rest) => .ok (.invlpg m, rest)
      | .error e => .error e
    else .error (.unknownExtension (modrm.extractLsb' 3 3))

/-- `0F 22 /r`: a move to CR0, CR3 or CR4; `mod` is ignored (R110). -/
def decodeMovToCr : List Byte → Except DecodeError (Instr × List Byte)
  | [] => .error .truncated
  | modrm :: rest =>
    let r := Reg.ofBits (modrm.extractLsb' 0 3)
    if modrm.extractLsb' 3 3 = (0 : BitVec 3) then .ok (.movToCr0 r, rest)
    else if modrm.extractLsb' 3 3 = (3 : BitVec 3) then .ok (.movToCr3 r, rest)
    else if modrm.extractLsb' 3 3 = (4 : BitVec 3) then .ok (.movToCr4 r, rest)
    else .error (.unknownExtension (modrm.extractLsb' 3 3))

/-- `0F 20 /r`: a move from the control register that `reg` names; `mod` is ignored (R110). -/
def decodeMovFromCr : List Byte → Except DecodeError (Instr × List Byte)
  | [] => .error .truncated
  | modrm :: rest =>
    .ok (.movFromCr (modrm.extractLsb' 3 3) (Reg.ofBits (modrm.extractLsb' 0 3)), rest)

/-- `66 0F 38 82 /r`, memory form, after the byte `66`: `INVPCID` (R110). -/
def decodeInvpcid : List Byte → Except DecodeError (Instr × List Byte)
  | b1 :: b2 :: b3 :: modrm :: bs =>
    if b1 = 0x0F ∧ b2 = 0x38 ∧ b3 = 0x82 then
      match takeMem modrm bs with
      | .ok (m, rest) => .ok (.invpcid (Reg.ofBits (modrm.extractLsb' 3 3)) m, rest)
      | .error e => .error e
    else .error (.unknownOpcode 0x66)
  | _ => .error .truncated

/-- The two-byte opcodes, after the byte `0F` (R110). -/
def decodeTwoByte : List Byte → Except DecodeError (Instr × List Byte)
  | [] => .error .truncated
  | b :: bs =>
    if b = 0x01 then decodeInvlpg bs
    else if b = 0x22 then decodeMovToCr bs
    else if b = 0x20 then decodeMovFromCr bs
    else .error (.unknownOpcode b)

/-- The instruction that begins at the first byte, and the bytes after it (R110). -/
def decode : List Byte → Except DecodeError (Instr × List Byte)
  | [] => .error .truncated
  | b :: bs =>
    if b = 0xF4 then .ok (.hlt, bs)
    else if b = 0x0F then decodeTwoByte bs
    else if b = 0x66 then decodeInvpcid bs
    else .error (.unknownOpcode b)

/-- The bytes of a displacement, lowest first (D5). -/
def disp32Bytes (d : BitVec 32) : List Byte :=
  [d.extractLsb' 0 8, d.extractLsb' 8 8, d.extractLsb' 16 8, d.extractLsb' 24 8]

/-- The `mod` field that a displacement calls for. -/
def Disp.mod : Disp → BitVec 2
  | .none => 0
  | .d8 _ => 1
  | .d32 _ => 2

/-- The bytes of a displacement. -/
def Disp.bytes : Disp → List Byte
  | .none => []
  | .d8 d => [d]
  | .d32 d => disp32Bytes d

/-- The ModR/M byte, and the SIB and displacement bytes after it, of a memory form with `reg`. -/
def memBytes (reg : BitVec 3) : MemOperand → List Byte
  | .base r d => (d.mod ++ reg ++ r.toBits : BitVec 8) :: d.bytes
  | .direct d => ((0 : BitVec 2) ++ reg ++ (5 : BitVec 3) : BitVec 8) :: disp32Bytes d
  | .sib scale index base d =>
    (d.mod ++ reg ++ (4 : BitVec 3) : BitVec 8) ::
      (scale ++ index.toBits ++ base.toBits : BitVec 8) :: d.bytes
  | .sibDirect scale index d =>
    ((0 : BitVec 2) ++ reg ++ (4 : BitVec 3) : BitVec 8) ::
      (scale ++ index.toBits ++ (5 : BitVec 3) : BitVec 8) :: disp32Bytes d

/-- The ModR/M byte of a control-register move: `mod` is taken as 11B (R110). -/
def crModrm (n : BitVec 3) (r : Reg) : Byte := ((3 : BitVec 2) ++ n ++ r.toBits : BitVec 8)

/-- The bytes of an instruction that has an encoding of its own (R110). The four `INVPCID` types share
`INVPCID`'s encoding and differ in a register's value; events and internal steps have none. -/
def encode : Instr → Option (List Byte)
  | .invlpg m => some (0x0F :: 0x01 :: memBytes 7 m)
  | .invpcid r m => some (0x66 :: 0x0F :: 0x38 :: 0x82 :: memBytes r.toBits m)
  | .invpcidAddress _ _ => none
  | .invpcidContext _ => none
  | .invpcidAllGlobals => none
  | .invpcidAll => none
  | .movToCr0 r => some [0x0F, 0x22, crModrm 0 r]
  | .movToCr3 r => some [0x0F, 0x22, crModrm 3 r]
  | .movToCr4 r => some [0x0F, 0x22, crModrm 4 r]
  | .movFromCr n r => some [0x0F, 0x20, crModrm n r]
  | .hlt => some [0xF4]
  | .taskSwitch _ => none
  | .vmxTransition => none
  | .pageFault _ _ _ => none
  | .access _ _ _ => none
  | .fill _ => none
  | .evict _ => none

/-- The longest instruction of the table: `INVPCID` with SIB and a four-byte displacement. -/
def longestInstr : Nat := 10

/-- The `n` bytes of `w`, the most significant first: spec/opcode_table.json reads an instruction's
bytes as ONE number whose highest byte is the first byte ("byte 0 leftmost"; its `fixed` fields put
`0F 01` of `INVLPG` in bits 23..8). -/
def bytesHighFirst : Nat → Nat → List Byte
  | 0, _ => []
  | n + 1, w => BitVec.ofNat 8 (w >>> (8 * n)) :: bytesHighFirst n w

/-- The `n` bytes of `w`, the least significant first. -/
def bytesLowFirst : Nat → Nat → List Byte
  | 0, _ => []
  | n + 1, w => BitVec.ofNat 8 w :: bytesLowFirst n (w >>> 8)

/-- Whether the first instruction of `bs` takes at least the first `n` bytes. -/
def readsAll (n : Nat) (bs : List Byte) : Bool :=
  match decode bs with
  | .ok (_, rest) => rest.length + n ≤ bs.length
  | .error _ => false

/-- The bytes in memory order of a table word: the table's own numbering (first byte highest), or,
where the whole word is an instruction in the other order only, that order. Operand bytes above
`nbits` are 0 (log entry 4). -/
def tableBytes (nbits w : Nat) : List Byte :=
  let pad := List.replicate longestInstr (0 : Byte)
  let high := bytesHighFirst (nbits / 8) w ++ pad
  let low := bytesLowFirst (nbits / 8) w ++ pad
  bif !readsAll (nbits / 8) high && readsAll (nbits / 8) low then low else high

/-- The instruction the decoder reads from a word of spec/opcode_table.json. -/
def decodeTableWord (nbits w : Nat) : Option Instr :=
  match decode (tableBytes nbits w) with
  | .ok (i, _) => some i
  | .error _ => none

end Sys2Proof
end

