-- ==== Sys2Proof/Machine/State.lean ====
section
/-! DEFINITION. The machine's state as plain data (R20 to R36), the reasons a step stops, and the
state after reset (R44 to R47, R350). One logical processor executes (`self`); the others stand beside
it with registers and caches of their own; physical memory is shared (R20, R335). -/

namespace Sys2Proof.Machine

/-- Physical memory: the bytes that differ from 0, by strictly rising address (R32; log entry 9). -/
abbrev Memory := List Host.Cell

/-- The eight general registers that the table's encodings name (PRESUMED, log entry 2). -/
structure Gprs where
  rax : Word
  rcx : Word
  rdx : Word
  rbx : Word
  rsp : Word
  rbp : Word
  rsi : Word
  rdi : Word
  deriving DecidableEq, Repr

/-- The PDPTE registers of PAE paging (R25). Number and format PRESUMED: four of 64 bits (log entry 10). -/
structure Pdptrs where
  p0 : Word
  p1 : Word
  p2 : Word
  p3 : Word
  deriving DecidableEq, Repr

/-- The four paging-structure caches (R30). -/
structure Psc where
  pml5e : List PscEntry
  pml4e : List PscEntry
  pdpte : List PscEntry
  pde   : List PscEntry
  deriving DecidableEq, Repr

/-- The two exceptions in scope (R320); a page fault carries what is recorded for its handler (R321). -/
inductive Exception
  | generalProtection
  | pageFault (la : Word) (kind : Kind) (priv : Priv)
  deriving DecidableEq, Repr

/-- What stands at one place of an instruction stream: the bytes of one instruction, or an operation
given by its operand values (D2: "a program is a list of operations"). -/
inductive Work
  | code (bytes : List Byte)
  | op (i : Instr)
  deriving DecidableEq, Repr

/-- One place of an instruction stream, with the privilege it executes at (R331). -/
structure Item where
  priv : Priv
  work : Work
  deriving DecidableEq, Repr

/-- An exception handler: "a handler program supplied as a parameter" (D22), and whether the faulting
instruction is re-executed after it (R321 (c)). -/
structure Handler where
  ops     : List Item
  retries : Bool
  deriving DecidableEq, Repr

/-- What a run shows (R355): the physical accesses, the exceptions, the speculative reads (R75) and
the read side effects (R76); `cpu` is the processor's number. -/
inductive Event
  | access (cpu pa : Nat) (kind : Kind) (bytes : List Byte) (memType : BitVec 3)
  | speculativeRead (cpu pa : Nat)
  | sideEffect (cpu pa : Nat)
  | exception (cpu : Nat) (e : Exception)
  deriving DecidableEq, Repr

/-- A value that memory has had, which a walk may still see (R74, D8), with the linear addresses that have
faulted since: a walk of one of these does not see it any more (R243; log entries 19, 23). -/
structure Past where
  mem    : Memory
  notFor : List Word
  deriving DecidableEq, Repr

/-- A logical processor (R20). -/
structure Processor where
  /-- Its number (the model's own; R335: identifiers are not in the source). -/
  id : Nat
  /-- The general registers. -/
  regs : Gprs
  /-- CR0 (R21). -/
  cr0 : Word
  /-- CR2, the address of the latest page fault (R321; PRESUMED from G10, log entry 11). -/
  cr2 : Word
  /-- CR3 (R23). -/
  cr3 : Word
  /-- CR4 (R22). -/
  cr4 : Word
  /-- IA32_EFER (R24). -/
  efer : Word
  /-- The PDPTE registers (R25). -/
  pdptrs : Pdptrs
  /-- The privilege of the instruction in execution (R331). -/
  mode : Priv
  /-- The TLBs, as one set (R27). -/
  tlb : List TlbEntry
  /-- The paging-structure caches (R30). -/
  psc : Psc
  /-- The values memory has had since this processor's last serializing instruction, newest first:
  what a walk may still see of them (R74, D8). -/
  window : List Past
  /-- Stopped by `HLT` (R336). -/
  halted : Bool
  /-- The latest exception, as recorded for its handler (R321). -/
  exception : Option Exception
  /-- The instruction stream still to run (D2). -/
  program : List Item
  /-- The handler of #PF, vector 14 (R320), if one is supplied (D22). -/
  pfHandler : Option Handler
  /-- The handler of #GP, vector 13 (R320), if one is supplied (D22). -/
  gpHandler : Option Handler
  deriving DecidableEq, Repr

/-- The state of the machine. -/
structure State where
  /-- The parameters of the implementation (R3); no step changes them. -/
  cfg : Params
  /-- The logical processor that executes. -/
  self : Processor
  /-- The other logical processors (R335). -/
  others : List Processor
  /-- Physical memory, shared by all (R32). -/
  mem : Memory
  /-- The model's own counter: how many free values have been drawn (log entry 5). -/
  draws : Nat
  /-- What the run has shown, newest first (R355). -/
  trace : List Event
  deriving DecidableEq, Repr

/-- Why the machine stops with a fault: never. The spec names no such stop: its two exceptions are taken and
end in a next state (R320, R321), and physical memory is flat, with no address reserved (R81, D7). -/
inductive Fault
  deriving DecidableEq, Repr

/-- Why a step has no meaning for what it was given. -/
inductive Refusal
  /-- An instruction that the model does not reach yet. Safe: nothing is claimed of it. -/
  | notModelled (mnemonic : String)
  /-- Raised by the fetch, for bytes that are no instruction of the table (R309). Safe. -/
  | undecodable (e : DecodeError)
  /-- Raised by `INVPCID` with a type above 3 (R108: "A model refuses such an operation"). Safe. -/
  | invpcidTypeNotDefined (type : Word)
  /-- Raised by `MOV r, CRn` for a register that the spec does not name (R21 to R23, R321). Safe. -/
  | noSuchControlRegister (n : BitVec 3)
  /-- Raised by a task switch in IA-32e mode (R238: "Task switches do not occur in IA-32e mode"). Safe. -/
  | taskSwitchInIa32eMode
  deriving DecidableEq, Repr

/-- Empty paging-structure caches (R44). -/
def Psc.empty : Psc := { pml5e := [], pml4e := [], pdpte := [], pde := [] }

/-- The general registers after reset. DESIGN CHOICE: 0 (log entry 2). -/
def Gprs.reset : Gprs :=
  { rax := 0, rcx := 0, rdx := 0, rbx := 0, rsp := 0, rbp := 0, rsi := 0, rdi := 0 }

/-- The parameters of the machine that resets. DESIGN CHOICE (log entry 6). -/
def Params.reset : Params :=
  { pcidSupported := true, hlatSupported := false, maxPhyAddr := 52, readSideEffects := [] }

/-- A logical processor after reset (R44, R45, R47): paging and PCIDs off, every cache empty.
PRESUMED from G12: the other bits of CR0 (log entry 7). -/
def Processor.reset : Processor :=
  { id := 0, regs := Gprs.reset, cr0 := 0x60000010, cr2 := 0, cr3 := 0, cr4 := 0, efer := 0,
    pdptrs := { p0 := 0, p1 := 0, p2 := 0, p3 := 0 }, mode := .supervisor, tlb := [],
    psc := Psc.empty, window := [], halted := false, exception := none, program := [],
    pfHandler := none, gpHandler := none }

/-- The machine right after reset (R44 to R47, R350): one logical processor, memory with nothing
listed, no program (log entries 4, 6, 7, 9). -/
def State.reset : State :=
  { cfg := Params.reset, self := Processor.reset, others := [], mem := [], draws := 0, trace := [] }

end Sys2Proof.Machine
end

