-- ==== Sys2Proof/Machine/Flags.lean ====
section
/-! DEFINITION. The flags. Every flag of this spec is a bit of a control register, of IA32_EFER or of
a paging-structure entry (R42); the machine has no status flags. This file names the bits of the
control registers (R21 to R24, R106), the current PCID (R121) and the paging mode (R62). Positions
that the source does not state are PRESUMED from G1 (log entry 8). -/

namespace Sys2Proof.Machine

/-- `v[hi:lo]` as a number (R4). -/
def slice (v : Word) (hi lo : Nat) : Nat := (v.toNat >>> lo) % 2 ^ (hi + 1 - lo)

/-- `CR0.PG`: paging enabled (R21). -/
def cr0Pg (cr0 : Word) : Bool := cr0.getLsbD 31

/-- `CR4.PSE`: 4-MByte pages with 32-bit paging (R22). -/
def cr4Pse (cr4 : Word) : Bool := cr4.getLsbD 4

/-- `CR4.PAE` (R22). -/
def cr4Pae (cr4 : Word) : Bool := cr4.getLsbD 5

/-- `CR4.PGE`, bit 7: global pages (R22, R106). -/
def cr4Pge (cr4 : Word) : Bool := cr4.getLsbD 7

/-- `CR4.LA57`: 5-level paging (G1, G2). -/
def cr4La57 (cr4 : Word) : Bool := cr4.getLsbD 12

/-- `CR4.PCIDE`, bit 17: PCIDs enabled (R22, R106). -/
def cr4Pcide (cr4 : Word) : Bool := cr4.getLsbD 17

/-- `CR4.SMEP` (R22). -/
def cr4Smep (cr4 : Word) : Bool := cr4.getLsbD 20

/-- `IA32_EFER.LME` (G1, G2). -/
def eferLme (efer : Word) : Bool := efer.getLsbD 8

/-- `IA32_EFER.LMA`: in IA-32e mode (R24). -/
def eferLma (efer : Word) : Bool := efer.getLsbD 10

/-- `IA32_EFER.NXE` (R24). -/
def eferNxe (efer : Word) : Bool := efer.getLsbD 11

def Processor.pg (l : Processor) : Bool := cr0Pg l.cr0
def Processor.pse (l : Processor) : Bool := cr4Pse l.cr4
def Processor.pae (l : Processor) : Bool := cr4Pae l.cr4
def Processor.pge (l : Processor) : Bool := cr4Pge l.cr4
def Processor.la57 (l : Processor) : Bool := cr4La57 l.cr4
def Processor.pcide (l : Processor) : Bool := cr4Pcide l.cr4
def Processor.smep (l : Processor) : Bool := cr4Smep l.cr4
def Processor.lme (l : Processor) : Bool := eferLme l.efer
def Processor.lma (l : Processor) : Bool := eferLma l.efer
def Processor.nxe (l : Processor) : Bool := eferNxe l.efer

/-- `IA32_EFER` with `LMA` equal to `LME` and `CR0.PG` (G2: "IA32_EFER.LMA = IA32_EFER.LME and
CR0.PG"; PRESUMED, log entry 12). -/
def eferWithLma (efer : Word) (pg : Bool) : Word :=
  (efer &&& ~~~(1#64 <<< 10)) ||| (if eferLme efer && pg then 1#64 <<< 10 else 0)

/-- The value CR3 takes from `src`: bits 51:0 of `src`, the bits above as they were; bit 63 of `src` is
a command and is not stored (R23, R234, G3). -/
def cr3Loaded (old src : Word) : Word :=
  (old.extractLsb' 52 12 ++ src.extractLsb' 0 52 : BitVec 64)

/-- The current PCID: "If CR4.PCIDE = 0, the current PCID is always 000H; otherwise, the current PCID
is the value of bits 11:0 of CR3" (R121). -/
def Processor.curPcid (l : Processor) : Pcid :=
  if l.pcide then l.cr3.extractLsb' 0 12 else 0

/-- The paging mode: `None` iff `CR0.PG = 0`; 4-level or 5-level iff `IA32_EFER.LMA = 1` and
`CR0.PG = 1` (R62). Which of the two, and which of 32-bit and PAE paging, is PRESUMED from G2 (log
entry 12). -/
def Processor.pagingMode (l : Processor) : PagingMode :=
  if !l.pg then .none
  else if l.lma then (if l.la57 then .l5 else .l4)
  else if l.pae then .pae
  else .p32

/-- 4-level or 5-level paging: the paging modes of IA-32e mode (R62). -/
def PagingMode.ia32e : PagingMode → Bool
  | .l4 => true
  | .l5 => true
  | _ => false

end Sys2Proof.Machine
end

