-- ==== Sys2Proof/Machine/Operands.lean ====
section
/-! DEFINITION. Operand forms: reading and writing the general registers, the source operand of a
control-register move, and the linear address of a memory form. The spec takes operands as values
(R40, D1) and leaves the forming of an address out (R102); the forms here are the family's, PRESUMED
(log entries 2 and 3). -/

namespace Sys2Proof.Machine

/-- The value of a general register. -/
def Gprs.get (g : Gprs) : Reg → Word
  | .rax => g.rax
  | .rcx => g.rcx
  | .rdx => g.rdx
  | .rbx => g.rbx
  | .rsp => g.rsp
  | .rbp => g.rbp
  | .rsi => g.rsi
  | .rdi => g.rdi

/-- The registers with one of them written. -/
def Gprs.set (g : Gprs) (r : Reg) (v : Word) : Gprs :=
  match r with
  | .rax => { g with rax := v }
  | .rcx => { g with rcx := v }
  | .rdx => { g with rdx := v }
  | .rbx => { g with rbx := v }
  | .rsp => { g with rsp := v }
  | .rbp => { g with rbp := v }
  | .rsi => { g with rsi := v }
  | .rdi => { g with rdi := v }

/-- A value at the operand width: "32-bit operand outside 64-bit mode, 64-bit in 64-bit mode" (R110).
64-bit mode is taken as IA-32e mode (log entry 3). -/
def Processor.atOperandWidth (l : Processor) (v : Word) : Word :=
  if l.lma then v else (v.extractLsb' 0 32).setWidth 64

/-- The source operand of a control-register move, or the type operand of `INVPCID` (R103 to R105). -/
def Processor.source (l : Processor) (r : Reg) : Word := l.atOperandWidth (l.regs.get r)

/-- A displacement, sign-extended to the address width. -/
def dispValue : Disp → Word
  | .none => 0
  | .d8 d => d.signExtend 64
  | .d32 d => d.signExtend 64

/-- A scaled index; the index `rsp` stands for none. -/
def scaledIndex (g : Gprs) (scale : BitVec 2) (index : Reg) : Word :=
  if index = .rsp then 0 else g.get index <<< scale.toNat

/-- The linear address of a memory form, the value that R102 and R103 name: flat segments, 64-bit
addresses in IA-32e mode and 32-bit addresses outside it. The direct form is relative to the
instruction pointer in IA-32e mode; the spec has none (R41), so the pointer is the free value `ip`. -/
def Processor.linearAddress (l : Processor) (ip : Word) : MemOperand → Word
  | .base r d => l.atOperandWidth (l.regs.get r + dispValue d)
  | .direct d => l.atOperandWidth (if l.lma then ip + dispValue (.d32 d) else dispValue (.d32 d))
  | .sib scale index base d =>
    l.atOperandWidth (l.regs.get base + scaledIndex l.regs scale index + dispValue d)
  | .sibDirect scale index d =>
    l.atOperandWidth (scaledIndex l.regs scale index + dispValue (.d32 d))

end Sys2Proof.Machine
end

