-- ==== Sys2Proof/Machine/Memory.lean ====
section
/-! DEFINITION. Physical memory (R32): one canonical form for every content, byte reads and writes,
and the assembly of multi-byte values, lowest address least significant (D5). -/

namespace Sys2Proof.Machine

/-- What an address reads as that nothing has written. DESIGN CHOICE: 0 (R46 leaves memory after reset
unspecified; log entry 9). -/
def Memory.unwritten : Byte := 0

/-- The canonical form: addresses strictly rising, all above `low`, and no byte listed that equals what
an unlisted address reads as. -/
def Memory.wfFrom : Option Nat → Memory → Bool
  | _, [] => true
  | low, (a, b) :: m =>
    (match low with
      | none => true
      | some l => l < a) && b != Memory.unwritten && Memory.wfFrom (some a) m

/-- Memory is in its canonical form. -/
def Memory.wf (m : Memory) : Bool := Memory.wfFrom none m

/-- The byte at an address. -/
def Memory.read : Memory → Nat → Byte
  | [], _ => Memory.unwritten
  | (a, b) :: m, k => if a = k then b else Memory.read m k

/-- Memory with one byte stored; the canonical form is kept. -/
def Memory.write : Memory → Nat → Byte → Memory
  | [], k, v => if v = Memory.unwritten then [] else [(k, v)]
  | (a, b) :: m, k, v =>
    if k < a then (if v = Memory.unwritten then (a, b) :: m else (k, v) :: (a, b) :: m)
    else if k = a then (if v = Memory.unwritten then m else (k, v) :: m)
    else (a, b) :: Memory.write m k v

/-- The `n` bytes from an address on. -/
def Memory.readBytes (m : Memory) : Nat → Nat → List Byte
  | _, 0 => []
  | k, n + 1 => Memory.read m k :: Memory.readBytes m (k + 1) n

/-- Memory with bytes stored from an address on. -/
def Memory.writeBytes : Memory → Nat → List Byte → Memory
  | m, _, [] => m
  | m, k, b :: bs => Memory.writeBytes (Memory.write m k b) (k + 1) bs

/-- The value of bytes, the first least significant (D5). -/
def bytesValue : List Byte → Nat
  | [] => 0
  | b :: bs => b.toNat + 256 * bytesValue bs

/-- The `n`-byte value at an address (D5). -/
def Memory.readValue (m : Memory) (k n : Nat) : Word :=
  BitVec.ofNat 64 (bytesValue (Memory.readBytes m k n))

/-- Whether one of the `n` bytes from an address on lies in one of the ranges (base, size). -/
def inRanges (ranges : List (Nat × Nat)) (k n : Nat) : Bool :=
  ranges.any fun r => k < r.1 + r.2 && r.1 < k + n

end Sys2Proof.Machine
end

