-- ==== Sys2Proof/Machine/Paging.lean ====
section
/-! DEFINITION. Linear addresses and paging structures: page numbers and cache tags (R61 to R65, R171
to R177), the reading of one paging-structure entry (the `Walk` parameter of R67, with the layouts of
G4: PRESUMED, log entry 10), the walk over the structures and what it finds (R141, R191), and whether
an access is permitted (R322). -/

namespace Sys2Proof.Machine

/-- The number of page-offset bits of a page size (R63). -/
def pageBits : PageSize → Nat
  | .k4 => 12
  | .m2 => 21
  | .m4 => 22
  | .g1 => 30

/-- The smaller of two page sizes (R64). -/
def smallerPage (a b : PageSize) : PageSize :=
  if pageBits a ≤ pageBits b then a else b

/-- The width of a linear address (R62). With paging off the width of P32 is used (log entry 13). -/
def PagingMode.width : PagingMode → Nat
  | .none => 32
  | .p32 => 32
  | .pae => 32
  | .l4 => 48
  | .l5 => 57

/-- The page number of a linear address, `la[W-1:s]` (R61, R63). -/
def pageNumber (m : PagingMode) (la : Word) (z : PageSize) : Nat :=
  slice la (m.width - 1) (pageBits z)

/-- The page sizes of a paging mode, the largest first (R63). -/
def PagingMode.pageSizes : PagingMode → List PageSize
  | .none => []
  | .p32 => [.m4, .k4]
  | .pae => [.m2, .k4]
  | .l4 => [.g1, .m2, .k4]
  | .l5 => [.g1, .m2, .k4]

/-- The lowest linear-address bit of a cache's tag (R171, R173, R175, R177). -/
def tagLow (m : PagingMode) : CacheKind → Nat
  | .pml5e => 48
  | .pml4e => 39
  | .pdpte => 30
  | .pde => if m = .p32 then 22 else 21

/-- `TagOf(m, k, la)` (R171, R173, R175, R177). -/
def tagOf (m : PagingMode) (k : CacheKind) (la : Word) : Nat :=
  slice la (m.width - 1) (tagLow m k)

/-- `Caches(m)`: the paging-structure caches of a paging mode (R30, R191). -/
def PagingMode.caches : PagingMode → List CacheKind
  | .none => []
  | .p32 => [.pde]
  | .pae => [.pde]
  | .l4 => [.pde, .pdpte, .pml4e]
  | .l5 => [.pde, .pdpte, .pml4e, .pml5e]

/-- A linear address whose bits above `W-1` repeat bit `W-1`, with 4-level and 5-level paging; every
address with the other modes. PRESUMED: R62 names canonical form and leaves it open (log entry 14). -/
def PagingMode.canonical (m : PagingMode) (la : Word) : Bool :=
  !m.ia32e || (la.toNat >>> (m.width - 1) == 0) ||
    (la.toNat >>> (m.width - 1) == 2 ^ (65 - m.width) - 1)

/-- The 64-bit address that the lower `W` bits of `la` name: in 4-level and 5-level paging the bits above
repeat bit `W-1` (canonical form, PRESUMED, log entry 14), in the other modes they are 0. -/
def PagingMode.extend (m : PagingMode) (la : Word) : Word :=
  let low := la.toNat % 2 ^ m.width
  BitVec.ofNat 64 (if m.ia32e && la.getLsbD (m.width - 1) then low + (2 ^ 64 - 2 ^ m.width) else low)

/-- The levels of paging-structure entries (R67). -/
inductive Level
  | pml5e | pml4e | pdpte | pde | pte
  deriving DecidableEq, Repr

/-- `Levels(m)` (R67). -/
def PagingMode.levels : PagingMode → List Level
  | .none => []
  | .p32 => [.pde, .pte]
  | .pae => [.pdpte, .pde, .pte]
  | .l4 => [.pml4e, .pdpte, .pde, .pte]
  | .l5 => [.pml5e, .pml4e, .pdpte, .pde, .pte]

/-- `Below(k)`: the levels strictly after that of a cache (R191). -/
def levelsBelow : CacheKind → List Level
  | .pml5e => [.pml4e, .pdpte, .pde, .pte]
  | .pml4e => [.pdpte, .pde, .pte]
  | .pdpte => [.pde, .pte]
  | .pde => [.pte]

/-- The cache that holds entries of a level (R30). -/
def Level.cache : Level → Option CacheKind
  | .pml5e => some .pml5e
  | .pml4e => some .pml4e
  | .pdpte => some .pdpte
  | .pde => some .pde
  | .pte => none

/-- `Index(m, k, la)` (R67). -/
def indexOf (m : PagingMode) (k : Level) (la : Word) : Nat :=
  match k with
  | .pml5e => slice la 56 48
  | .pml4e => slice la 47 39
  | .pdpte => if m = .pae then slice la 31 30 else slice la 38 30
  | .pde => if m = .p32 then slice la 31 22 else slice la 29 21
  | .pte => if m = .p32 then slice la 21 12 else slice la 20 12

/-- The physical address that a number stands for where the spec forms no address of `MAXPHYADDR` bits: the
root in CR3 (R23: bits 51:12), that of HLAT paging, and a linear address with paging off. A number of more
bits keeps its offset in the 4-KByte frame, and its frame is free (DESIGN CHOICE, log entry 38). -/
def physicalAddress (c : Params) (a : Nat) : Nat :=
  if a < 2 ^ c.maxPhyAddr then a
  else (Config.frameBeyond c.maxPhyAddr (a >>> 12) % 2 ^ (c.maxPhyAddr - 12)) <<< 12 + a % 4096

/-- The bytes of a paging-structure entry (G4). -/
def entrySize (m : PagingMode) : Nat := if m = .p32 then 4 else 8

/-- `View`: the fields of a paging-structure entry (R66, R67). -/
structure View where
  p       : Bool
  rsvdOk  : Bool
  a       : Bool
  rw      : Bool
  us      : Bool
  xd      : Bool
  pcd     : Bool
  pwt     : Bool
  ps      : Bool
  g       : Bool
  d       : Bool
  addr    : Nat
  pkey    : BitVec 4
  memType : BitVec 3
  restart : Bool
  maps    : Bool
  deriving DecidableEq, Repr

/-- `MapsPage(m, k, v, CR4)` (R67). -/
def mapsPage (m : PagingMode) (k : Level) (ps pse : Bool) : Bool :=
  match k with
  | .pte => true
  | .pde => ps && (m != .p32 || pse)
  | .pdpte => ps && m.ia32e
  | .pml4e => false
  | .pml5e => false

/-- The page size of an entry of a level that maps a page (R63). -/
def nativeSize (m : PagingMode) : Level → PageSize
  | .pde => if m = .p32 then .m4 else .m2
  | .pdpte => .g1
  | _ => .k4

/-- The physical address in an entry, `MAXPHYADDR` bits wide (`addr[MAXPHYADDR-1:sx]`, R141, R191; places from
G4): the page frame's, or that of the next structure. -/
def entryAddr (width : Nat) (m : PagingMode) (k : Level) (maps : Bool) (raw : Word) : Nat :=
  if m = .p32 then
    (if maps && k == .pde then (slice raw 31 22) <<< 22 + (slice raw 20 13) <<< 32
      else (slice raw 31 12) <<< 12) % 2 ^ width
  else
    let low := if maps then pageBits (nativeSize m k) else 12
    (slice raw (width - 1) low) <<< low

/-- The reserved bits are 0 (R66; their places from G4). PRESUMED, where G4 is silent, the family's: those of a
PDPTE of PAE paging are 63:MAXPHYADDR, 8:5 and 2:1 (log entry 10 lists them all). -/
def reservedOk (width : Nat) (m : PagingMode) (k : Level) (maps nxe : Bool) (raw : Word) : Bool :=
  match m with
  | .none => true
  | .p32 => !(maps && k == .pde) || (!raw.getLsbD 21 && (slice raw 20 13) <<< 32 < 2 ^ width)
  | .pae =>
    if k = .pdpte then slice raw 63 width == 0 && slice raw 2 1 == 0 && slice raw 8 5 == 0
    else slice raw 62 width == 0 && (nxe || !raw.getLsbD 63) &&
      (!(maps && k == .pde) || slice raw 20 13 == 0)
  | _ =>
    slice raw 51 width == 0 && (nxe || !raw.getLsbD 63) &&
      (match k with
        | .pml5e => !raw.getLsbD 7
        | .pml4e => !raw.getLsbD 7
        | .pdpte => !maps || slice raw 29 13 == 0
        | .pde => !maps || slice raw 20 13 == 0
        | .pte => true)

/-- The fields of an entry's value (R66; places from G4). A PDPTE of PAE paging has no R/W, U/S, XD or
accessed flag and contributes the neutral value (R141, R178). The memory type is opaque: the PAT, PCD
and PWT bits (log entry 10). -/
def viewOf (width : Nat) (m : PagingMode) (k : Level) (nxe pse : Bool) (raw : Word) : View :=
  let maps := mapsPage m k (raw.getLsbD 7) pse
  let bare := m == .pae && k == .pdpte
  let pat := if k = .pte then raw.getLsbD 7 else raw.getLsbD 12
  { p := raw.getLsbD 0
    rsvdOk := reservedOk width m k maps nxe raw
    a := bare || raw.getLsbD 5
    rw := bare || raw.getLsbD 1
    us := bare || raw.getLsbD 2
    xd := !bare && m != .p32 && raw.getLsbD 63
    pcd := raw.getLsbD 4
    pwt := raw.getLsbD 3
    ps := k != .pte && raw.getLsbD 7
    g := raw.getLsbD 8
    d := raw.getLsbD 6
    addr := entryAddr width m k maps raw
    pkey := if m.ia32e then raw.extractLsb' 59 4 else 0
    memType := BitVec.ofBool pat ++ BitVec.ofBool (raw.getLsbD 4) ++ BitVec.ofBool (raw.getLsbD 3)
    restart := raw.getLsbD 11
    maps := maps }

/-- A PDPTE register (R25). -/
def Pdptrs.get (r : Pdptrs) (i : Nat) : Word :=
  match i with
  | 0 => r.p0
  | 1 => r.p1
  | 2 => r.p2
  | _ => r.p3

/-- `ReadPSE`: the entry for `la` of the table at `table`, with its place in memory; a PDPTE of PAE
paging comes from its register (R25, R67). -/
def Processor.readPse (l : Processor) (c : Params) (mem : Memory) (k : Level) (table : Nat)
    (la : Word) : Option Nat × View :=
  let m := l.pagingMode
  let i := indexOf m k la
  if m = .pae ∧ k = .pdpte then
    (none, viewOf c.maxPhyAddr m k l.nxe l.pse (Pdptrs.get l.pdptrs i))
  else
    let a := table + entrySize m * i
    (some a, viewOf c.maxPhyAddr m k l.nxe l.pse (Memory.readValue mem a (entrySize m)))

/-- The rights before any entry is traversed: (1, 1, 0) (R191). -/
def neutralRights : Rights := { rw := true, us := true, xd := false, pkey := 0 }

/-- The rights after one more entry (R141, R191); the protection key is that of the entry that maps
the page (G4; R141: "not in the source"). -/
def rightsThrough (r : Rights) (v : View) : Rights :=
  { rw := r.rw && v.rw, us := r.us && v.us, xd := r.xd || v.xd, pkey := if v.maps then v.pkey else 0 }

/-- One entry that a walk used: its place in memory (none for a PDPTE register), what was read, the rights
accumulated down to it, and the addresses that nothing read so far may serve (R243, log entry 19). -/
structure Hop where
  level  : Level
  hlat   : Bool
  place  : Option Nat
  view   : View
  rights : Rights
  notFor : List Word
  deriving DecidableEq, Repr

/-- How a walk ends. -/
inductive PathEnd
  /-- At an entry that maps a page. -/
  | mapped
  /-- At an entry that is not present or has a reserved bit set. -/
  | notPresent
  /-- At an entry of this level with the HLAT restart flag set (R186). -/
  | restart (k : Level)
  deriving DecidableEq, Repr

/-- `WalkFrom` (R191), with the entries used. The read of the `i`-th entry sees the value of memory that
`moment i` gives (R74). -/
def Processor.walk (l : Processor) (c : Params) (moment : Nat → Past) (hlat : Bool) (la : Word) :
    List Level → Nat → Rights → Nat → List Hop × PathEnd
  | [], _, _, _ => ([], .notPresent)
  | k :: ks, table, acc, i =>
    let r := l.readPse c (moment i).mem k table la
    let v := r.2
    if !v.p || !v.rsvdOk then ([], .notPresent)
    else
      let hop : Hop :=
        { level := k, hlat, place := r.1, view := v, rights := rightsThrough acc v
          notFor := (moment i).notFor }
      if hlat && v.restart then ([hop], .restart k)
      else if v.maps then ([hop], .mapped)
      else
        let rest := l.walk c moment hlat la ks v.addr (rightsThrough acc v) (i + 1)
        (hop :: rest.1, rest.2)

/-- `Root(m)`: the first paging structure's address (R23, R67). For 32-bit paging, where the source
gives no bits, PRESUMED (log entry 10). PAE paging starts at its registers. -/
def Processor.root (l : Processor) (c : Params) : Nat :=
  match l.pagingMode with
  | .p32 => physicalAddress c ((slice l.cr3 31 12) <<< 12)
  | .pae => 0
  | _ => physicalAddress c ((slice l.cr3 51 12) <<< 12)

/-- A paging-structure cache of a processor. -/
def Psc.get (p : Psc) : CacheKind → List PscEntry
  | .pml5e => p.pml5e
  | .pml4e => p.pml4e
  | .pdpte => p.pdpte
  | .pde => p.pde

/-- The paging-structure caches with one of them changed. -/
def Psc.update (p : Psc) (k : CacheKind) (f : List PscEntry → List PscEntry) : Psc :=
  match k with
  | .pml5e => { p with pml5e := f p.pml5e }
  | .pml4e => { p with pml4e := f p.pml4e }
  | .pdpte => { p with pdpte := f p.pdpte }
  | .pde => { p with pde := f p.pde }

/-- `la` as an address of the mode that a cache entry was made in, if it is one: `la` itself in the same mode.
In another mode an entry is not re-interpreted (R247): it is for the addresses it was made for, which are
compared in their 64-bit form (DEDUCED, log entry 37). -/
def Processor.asIn (l : Processor) (made : PagingMode) (la : Word) : Option Word :=
  if made = l.pagingMode then some la
  else
    let a := l.pagingMode.extend la
    if made.extend a = a then some a else none

/-- `Match(e, la)`: the page number of `la` is that of the entry (R147). -/
def Processor.matchesTlb (l : Processor) (la : Word) (e : TlbEntry) : Bool :=
  (l.asIn e.mode la).any fun a => pageNumber e.mode a e.shift == e.pn

/-- `OnPage(e, la)`: `la` lies on the page of the translation that the entry was cut from (R221, R224). -/
def Processor.onPage (l : Processor) (la : Word) (e : TlbEntry) : Bool :=
  (l.asIn e.mode la).any fun a =>
    pageNumber e.mode a e.xshift == e.pn >>> (pageBits e.xshift - pageBits e.shift)

/-- The tag of an entry of cache `k` is that of `la` (R171, R173, R175, R177). -/
def Processor.tagMatches (l : Processor) (la : Word) (k : CacheKind) (e : PscEntry) : Bool :=
  (l.asIn e.mode la).any fun a => e.tag == tagOf e.mode k a

/-- `UsableTLB(e)` (R127). -/
def Processor.usableTlb (l : Processor) (e : TlbEntry) : Bool := e.pcid == l.curPcid || e.glob

/-- `Hit(la)` (R147). -/
def Processor.hits (l : Processor) (la : Word) : List TlbEntry :=
  l.tlb.filter fun e => l.matchesTlb la e && l.usableTlb e

/-- The entry of cache `k` is for `la` under the current PCID (R127, R179). -/
def Processor.matchesPsc (l : Processor) (la : Word) (k : CacheKind) (e : PscEntry) : Bool :=
  e.pcid == l.curPcid && l.tagMatches la k e

/-- Where a translation may start (R191, R195): a TLB entry, a paging-structure-cache entry, or the
root, of ordinary or of HLAT paging. -/
inductive Route
  | tlb (e : TlbEntry)
  | psc (k : CacheKind) (e : PscEntry)
  | root
  | hlatRoot
  deriving DecidableEq, Repr

/-- The paging-structure-cache entries usable for `la` by a translation that commences with the given
kind of paging (R179, R185). -/
def Processor.pscRoutes (l : Processor) (hlat : Bool) (la : Word) : List Route :=
  l.pagingMode.caches.flatMap fun k =>
    ((l.psc.get k).filter fun e => l.matchesPsc la k e && e.hlat == hlat).map (Route.psc k)

/-- Where ordinary paging may start walking: choices (b) and (c) of R191. -/
def Processor.walkRoutes (l : Processor) (la : Word) : List Route :=
  l.pscRoutes false la ++ [.root]

/-- Every start that R191 allows, in no binding order (R195); the starts of HLAT paging on a processor
that supports it (R185). DESIGN CHOICE (D10, log entry 15): HLAT paging is in use only with 4-level and
5-level paging, and a TLB entry is usable whichever kind of paging made it. -/
def Processor.routes (l : Processor) (c : Params) (la : Word) : List Route :=
  (l.hits la).map .tlb ++ l.walkRoutes la ++
    (if c.hlatSupported && l.pagingMode.ia32e then l.pscRoutes true la ++ [.hlatRoot] else [])

/-- The member of a list that a free number picks. -/
def pick {α : Type} (n : Nat) (default : α) : List α → α
  | [] => default
  | [x] => x
  | x :: y :: xs => (x :: y :: xs).getD (n % (xs.length + 2)) default

/-- A walk from its start to its end, with the largest page size that a restart of HLAT paging left
(R64). -/
structure Path where
  hops : List Hop
  ends : PathEnd
  cap  : Option PageSize
  deriving DecidableEq, Repr

/-- The largest page size after a restart caused at a level (R64). The PML5E and PML4E levels, for
which no size is stated, set no bound (log entry 15). -/
def restartCap : Level → Option PageSize
  | .pdpte => some .g1
  | .pde => some .m2
  | .pte => some .k4
  | _ => none

/-- The level of a paging-structure cache's entries. -/
def cacheLevel : CacheKind → Level
  | .pml5e => .pml5e
  | .pml4e => .pml4e
  | .pdpte => .pdpte
  | .pde => .pde

/-- The walk of ordinary paging from a start (R191 (b), (c)). -/
def Processor.ordinaryWalk (l : Processor) (c : Params) (moment : Nat → Past) (la : Word)
    (r : Route) (i : Nat) : List Hop × PathEnd :=
  match r with
  | .psc k e => l.walk c moment false la (levelsBelow k) e.addr
      { rw := e.rw, us := e.us, xd := e.xd, pkey := 0 } i
  | _ => l.walk c moment false la l.pagingMode.levels (l.root c) neutralRights i

/-- Ordinary paging after a restart of HLAT paging at level `k`, which used the entries `hops` (R186). The
rights start anew: the R/W, U/S and XD flags of `hops` do not count in what is made after the restart
(D10; DESIGN CHOICE, log entry 15). -/
def Processor.restarted (l : Processor) (c : Params) (moment : Nat → Past) (ch : WalkChoice)
    (la : Word) (hops : List Hop) (k : Level) : Path :=
  let rest := l.ordinaryWalk c moment la (pick ch.restartRoute .root (l.walkRoutes la)) hops.length
  { hops := hops ++ rest.1, ends := rest.2, cap := restartCap k }

/-- The walk of HLAT paging and, after a restart, of ordinary paging (R64, R185, R186). -/
def Processor.hlatPath (l : Processor) (c : Params) (moment : Nat → Past) (ch : WalkChoice)
    (la : Word) (levels : List Level) (table : Nat) (acc : Rights) : Path :=
  match l.walk c moment true la levels table acc 0 with
  | (hops, .restart k) => l.restarted c moment ch la hops k
  | (hops, e) => { hops, ends := e, cap := none }

/-- The walk that a route other than a TLB entry takes. -/
def Processor.path (l : Processor) (c : Params) (moment : Nat → Past) (ch : WalkChoice)
    (la : Word) (r : Route) : Path :=
  match r with
  | .hlatRoot => l.hlatPath c moment ch la l.pagingMode.levels (physicalAddress c (ch.hlatRoot <<< 12))
    neutralRights
  | .psc k e =>
    if e.hlat then
      if e.restart then l.restarted c moment ch la [] (cacheLevel k)
      else l.hlatPath c moment ch la (levelsBelow k) e.addr
        { rw := e.rw, us := e.us, xd := e.xd, pkey := 0 }
    else
      let w := l.ordinaryWalk c moment la r 0
      { hops := w.1, ends := w.2, cap := none }
  | _ =>
    let w := l.ordinaryWalk c moment la .root 0
    { hops := w.1, ends := w.2, cap := none }

/-- What a translation yields (R191): the physical address, the rights and the attributes. -/
structure Translation where
  pa      : Nat
  rights  : Rights
  dirty   : Bool
  memType : BitVec 3
  deriving DecidableEq, Repr

/-- The page size of the translation that an entry maps, no larger than a restart allows (R63, R64). -/
def Hop.pageSize (h : Hop) (m : PagingMode) (cap : Option PageSize) : PageSize :=
  match cap with
  | none => nativeSize m h.level
  | some z => smallerPage z (nativeSize m h.level)

/-- The physical address of `la` through an entry that maps a page: `addr[MAXPHYADDR-1:sx] : la[sx-1:0]` with
the translation's page shift `sx`, which a restart of HLAT paging may have made smaller than the entry's own
(R64, R65, R191). The address bits of an entry below its own page size are 0 (`entryAddr`, G4). -/
def Hop.pa (h : Hop) (m : PagingMode) (cap : Option PageSize) (la : Word) : Nat :=
  h.view.addr + la.toNat % 2 ^ pageBits (h.pageSize m cap)

/-- The translation through an entry that maps a page (R191). -/
def Hop.translation (h : Hop) (m : PagingMode) (cap : Option PageSize) (la : Word) : Translation :=
  { pa := h.pa m cap la, rights := h.rights, dirty := h.view.d, memType := h.view.memType }

/-- The translation that a TLB entry gives (R65, R147). -/
def tlbTranslation (e : TlbEntry) (la : Word) : Translation :=
  { pa := e.frame <<< pageBits e.shift + la.toNat % 2 ^ pageBits e.shift
    rights := { rw := e.rw, us := e.us, xd := e.xd, pkey := e.pkey }
    dirty := e.dirty, memType := e.memType }

/-- The TLB entry made from the entry that maps the page (R141, R149, R151). Its frame is
`addr[MAXPHYADDR-1:sx] : la[sx-1:shift]`. -/
def Processor.tlbEntryOf (l : Processor) (ch : WalkChoice) (cap : Option PageSize) (la : Word)
    (h : Hop) : TlbEntry :=
  let m := l.pagingMode
  let x := h.pageSize m cap
  let z := pick ch.fracture x (m.pageSizes.filter fun s => pageBits s ≤ pageBits x)
  { mode := m, pcid := l.curPcid, shift := z, pn := pageNumber m la z, xshift := x
    glob := l.pge && h.view.g
    frame := h.pa m cap la >>> pageBits z
    rw := h.rights.rw, us := h.rights.us, xd := h.rights.xd, pkey := h.rights.pkey
    dirty := h.view.d, memType := h.view.memType, other := ch.other }

/-- The paging-structure-cache entry made from an entry that references another structure (R172, R174,
R176, R178, R31). -/
def Processor.pscEntryOf (l : Processor) (k : CacheKind) (la : Word) (h : Hop) : PscEntry :=
  { mode := l.pagingMode, pcid := l.curPcid, tag := tagOf l.pagingMode k la, addr := h.view.addr
    rw := h.rights.rw, us := h.rights.us, xd := h.rights.xd
    pcd := h.view.pcd, pwt := h.view.pwt, hlat := h.hlat, restart := h.hlat && h.view.restart }

/-- `Permits` (R322) as its named properties give it, and free in every other case. XD counts only with
`IA32_EFER.NXE = 1`, the protection key only with 4-level and 5-level paging (R154). That reads and
fetches do not depend on R/W is DEDUCED from R322's list of causes and T27 (log entry 16). -/
def Processor.permits (l : Processor) (r : Rights) (k : Kind) (p : Priv) : Bool :=
  let xd := r.xd && l.nxe
  let pkey := if l.pagingMode.ia32e then r.pkey else 0
  if k = .write ∧ p = .user ∧ r.rw = false then false
  else if p = .user ∧ r.us = false then false
  else if k = .fetch ∧ xd = true then false
  else if r.us && !l.smep && (k != .write || r.rw) &&
      !(l.pagingMode.ia32e && Config.pkeyRestricts pkey k p) then true
  else Config.permitsOpen { r with xd := xd, pkey := pkey } k p l.cr0 l.cr4 l.efer

end Sys2Proof.Machine
end

