-- ==== Sys2Proof/Machine/Ops.lean ====
section
/-! DEFINITION. The shared operations: drawing free values, storing to memory, the invalidation
primitive (R220) with every required set (R250), making cache entries and filling (R141, R172 to R194),
translating and accessing (R191, R307), taking an exception (R321, R324), and the internal steps and
the scheduling that run between operations (R335). -/

namespace Sys2Proof.Machine

/-! ### State updates -/

/-- One free value has been drawn. -/
def State.tick (s : State) : State := { s with draws := s.draws + 1 }

/-- The state with the executing processor changed. -/
def State.onSelf (s : State) (f : Processor → Processor) : State := { s with self := f s.self }

/-- The state with one more event shown (R355). -/
def State.show (s : State) (e : Event) : State := { s with trace := e :: s.trace }

/-- A processor that may still see the value memory had (R74). -/
def Processor.pushWindow (l : Processor) (m : Memory) : Processor :=
  { l with window := { mem := m, notFor := [] } :: l.window }

/-- Bytes stored to physical memory. No cache entry changes (R72); until its next serializing
instruction each processor may still translate with what memory held before (R74, D8, D9). -/
def State.store (s : State) (k : Nat) (bytes : List Byte) : State :=
  { s with
    mem := Memory.writeBytes s.mem k bytes
    self := s.self.pushWindow s.mem
    others := s.others.map fun l => l.pushWindow s.mem }

/-- `SetAccessed`, `SetDirty` (R67): a flag of the entry at a place is set in memory as it is now; "every
other bit" stays as it is (D9). `bit` is 5 for the accessed flag and 6 for the dirty flag (G4). -/
def State.setFlag (s : State) (k bit : Nat) : State :=
  s.store k [Memory.read s.mem k ||| (1#8 <<< bit)]

/-- The end of what a serializing instruction ends: after it no translation reads a value older than a
store before it (R74 (b), R244). -/
def Processor.serialize (l : Processor) : Processor := { l with window := [] }

/-- After a page fault at `la` no walk of an address of its 4-KByte page sees a value older than the
fault, so that the fault does not recur (R243); a walk of another address still may (R74 (a), D8).
DEDUCED, log entry 19. -/
def Processor.faulted (l : Processor) (la : Word) : Processor :=
  { l with window := l.window.map fun p => { p with notFor := la :: p.notFor } }

/-- A walk of `la` may see a value of memory: no address of its 4-KByte page has faulted since. -/
def Processor.sees (l : Processor) (la : Word) (p : Past) : Bool :=
  !p.notFor.any fun x => pageNumber l.pagingMode x .k4 == pageNumber l.pagingMode la .k4

/-- The present value of memory. -/
def State.present (s : State) : Past := { mem := s.mem, notFor := [] }

/-- A value of memory that a walk of `la` may see: the present one, or one it has had since the
processor's last serializing instruction (R74, D8). -/
def State.moment (s : State) (la : Word) (n : Nat) : Past :=
  pick n s.present (s.present :: s.self.window.filter fun p => s.self.sees la p)

/-- The memory that the `i`-th read of a walk of `la` sees, with the addresses that it and the reads
before it may not serve. -/
def State.momentAt (s : State) (ch : WalkChoice) (la : Word) (i : Nat) : Past :=
  { mem := (s.moment la (ch.moments.getD i 0)).mem
    notFor := (List.range (i + 1)).flatMap fun j => (s.moment la (ch.moments.getD j 0)).notFor }

/-! ### Invalidation (R220) -/

/-- `Invalidate(ReqTLB, ReqPSC)` with the extra sets given: every entry in a required or an extra set is
removed (R220). -/
def Processor.invalidate (l : Processor) (reqTlb : TlbEntry → Bool)
    (reqPsc : CacheKind → PscEntry → Bool) (extraTlb : TlbEntry → Bool)
    (extraPsc : CacheKind → PscEntry → Bool) : Processor :=
  { l with
    tlb := l.tlb.filter fun e => !(reqTlb e || extraTlb e)
    psc :=
      { pml5e := l.psc.pml5e.filter fun e => !(reqPsc .pml5e e || extraPsc .pml5e e)
        pml4e := l.psc.pml4e.filter fun e => !(reqPsc .pml4e e || extraPsc .pml4e e)
        pdpte := l.psc.pdpte.filter fun e => !(reqPsc .pdpte e || extraPsc .pdpte e)
        pde := l.psc.pde.filter fun e => !(reqPsc .pde e || extraPsc .pde e) } }

/-- `Invalidate(ReqTLB, ReqPSC)`, the extra sets free (R220). Never writes memory or a register. -/
def State.invalidate (s : State) (reqTlb : TlbEntry → Bool)
    (reqPsc : CacheKind → PscEntry → Bool) : State :=
  (s.onSelf fun l =>
    l.invalidate reqTlb reqPsc (Config.dropsTlb s.draws) (Config.dropsPsc s.draws)).tick

/-- No required TLB entry. -/
def noTlb : TlbEntry → Bool := fun _ => false

/-- No required paging-structure-cache entry. -/
def noPsc : CacheKind → PscEntry → Bool := fun _ _ => false

/-- All of `TLB`. -/
def allTlb : TlbEntry → Bool := fun _ => true

/-- All of every `PSC[k]`. -/
def allPsc : CacheKind → PscEntry → Bool := fun _ _ => true

/-- The TLB entries associated with a PCID "except those for global pages" (R227, R231, R232). -/
def nonGlobalOf (p : Pcid) : TlbEntry → Bool := fun e => e.pcid == p && !e.glob

/-- The TLB entries associated with a PCID, global or not (R236, D18). -/
def tlbOf (p : Pcid) : TlbEntry → Bool := fun e => e.pcid == p

/-- The paging-structure-cache entries associated with a PCID. -/
def pscOf (p : Pcid) : CacheKind → PscEntry → Bool := fun _ e => e.pcid == p

/-- `INVLPG`'s required TLB entries (R221, R222, R224). -/
def Processor.invlpgTlb (l : Processor) (la : Word) : TlbEntry → Bool :=
  fun e => l.onPage la e && (e.pcid == l.curPcid || e.glob)

/-- A page fault's required TLB entries (R242). -/
def Processor.faultTlb (l : Processor) (la : Word) : TlbEntry → Bool :=
  fun e => e.pcid == l.curPcid && l.onPage la e

/-- The entries of the caches of the paging mode, under a PCID, whose tag matches `la` (R226, R242). -/
def Processor.pscFor (l : Processor) (p : Pcid) (la : Word) : CacheKind → PscEntry → Bool :=
  fun k e => l.pagingMode.caches.contains k && e.pcid == p && l.tagMatches la k e

/-- `INVPCID` type 0's required TLB entries (R226, D19). -/
def Processor.addressTlb (l : Processor) (p : Pcid) (la : Word) : TlbEntry → Bool :=
  fun e => e.pcid == p && !e.glob && l.matchesTlb la e

/-- The non-global TLB entries (R229). -/
def nonGlobal : TlbEntry → Bool := fun e => !e.glob

/-! ### Making cache entries -/

/-- A TLB entry added to the set (R141, R7). -/
def Processor.addTlb (l : Processor) (e : TlbEntry) : Processor :=
  if e ∈ l.tlb then l else { l with tlb := e :: l.tlb }

/-- A paging-structure-cache entry added to its set (R180, R7). -/
def Processor.addPsc (l : Processor) (k : CacheKind) (e : PscEntry) : Processor :=
  { l with psc := l.psc.update k fun es => if e ∈ es then es else e :: es }

/-- The accessed flag of an entry used, if the walk read it as clear, is set in memory before anything
is cached from it (R145, R181). -/
def State.setAccessed (s : State) (h : Hop) : State :=
  match h.place with
  | some k => if h.view.a then s else s.setFlag k 5
  | none => s

/-- A TLB entry would serve an address that has faulted since what it is made from was in memory. -/
def Processor.tlbBarred (l : Processor) (h : Hop) (e : TlbEntry) : Bool :=
  h.notFor.any fun x => l.matchesTlb x e

/-- The same of a paging-structure-cache entry. -/
def Processor.pscBarred (l : Processor) (h : Hop) (k : CacheKind) (e : PscEntry) : Bool :=
  h.notFor.any fun x => l.tagMatches x k e

/-- What is cached from an entry used, if anything is (R194): a TLB entry from the entry that maps the
page, else an entry of the level's cache if the mode has it; nothing that would make a page fault recur
(R243: between the fault and the retry entries are made "only from memory as it then is"; log entry
19). -/
def State.cacheHop (s : State) (ch : WalkChoice) (cap : Option PageSize) (la : Word) (h : Hop) :
    State :=
  if h.view.maps && !(h.hlat && h.view.restart) then
    if s.self.tlbBarred h (s.self.tlbEntryOf ch cap la h) then s
    else s.onSelf fun l => l.addTlb (l.tlbEntryOf ch cap la h)
  else
    match h.level.cache with
    | some k =>
      if s.self.pagingMode.caches.contains k && !h.view.ps &&
          !s.self.pscBarred h k (s.self.pscEntryOf k la h) then
        s.onSelf fun l => l.addPsc k (l.pscEntryOf k la h)
      else s
    | none => s

/-- The effects of a fill along the entries used, in order (R194): each accessed flag is set, and then
the entry may be cached. `i` counts the entries. -/
def State.fillHops (s : State) (ch : WalkChoice) (cap : Option PageSize) (la : Word) :
    List Hop → Nat → State
  | [], _ => s
  | h :: hs, i =>
    let s1 := s.setAccessed h
    let s2 := if ch.creates.getD i false then s1.cacheHop ch cap la h else s1
    s2.fillHops ch cap la hs (i + 1)

/-- `Fill(la)` with its choices (R194): nothing with paging off; else the effects along the first
`depth` entries of a walk. An address that is not canonical is translated by its lower bits (R62;
DESIGN CHOICE, log entry 14). -/
def State.fillWith (s : State) (ch : WalkChoice) (la : Word) : State :=
  if s.self.pagingMode = .none then s
  else
    match pick ch.route .root (s.self.routes s.cfg la) with
    | .tlb _ => s
    | r =>
      let p := s.self.path s.cfg (s.momentAt ch la) ch la r
      s.fillHops ch p.cap la (p.hops.take ch.depth) 0

/-- `Fill(la)`, its choices free (R194). -/
def State.fill (s : State) (la : Word) : State := s.tick.fillWith (Config.walkChoice s.draws) la

/-- `TLB <- TLB \ S` and `PSC[k] <- PSC[k] \ S` for the free subsets of the eviction steps (R143,
R190). -/
def State.evict (s : State) : State := s.invalidate noTlb noPsc

/-! ### Translation and access -/

/-- What a translation finds before access rights are looked at. -/
inductive Located
  /-- A TLB entry (R191 (a)). -/
  | hit (e : TlbEntry)
  /-- The end of a walk (R191 (b), (c)). -/
  | walked (p : Path)
  deriving DecidableEq, Repr

/-- The choice of R191 and the walk it leads to. -/
def State.locate (s : State) (ch : WalkChoice) (la : Word) : Located :=
  match pick ch.route .root (s.self.routes s.cfg la) with
  | .tlb e => .hit e
  | r => .walked (s.self.path s.cfg (s.momentAt ch la) ch la r)

/-- How one translated access ends. -/
inductive Found
  /-- It goes to a physical address, with a memory type. -/
  | ok (pa : Nat) (memType : BitVec 3)
  /-- It causes a page fault: no translation, or rights that forbid it (R191, R322). -/
  | pageFault
  deriving DecidableEq, Repr

/-- The dirty flag of a page in the entry that maps it, after a write that used the walk `p`: set, or
not, as the free choice says (absent Section 4.8; log entry 17). -/
def State.dirtyByWalk (s : State) (ch : WalkChoice) (p : Path) : State :=
  match p.hops.getLast? with
  | some { place := some k, view := v, .. } =>
    if v.maps && !v.d && ch.dirty % 3 != 0 then s.setFlag k 6 else s
  | _ => s

/-- The dirty flag after a write that used a TLB entry: nothing if the entry says dirty (R286), else
as the free choice says: nothing, or a walk from the root sets it in memory, or the walk sets it in memory
and the flag of the entry is set in place (R148, G5). DESIGN CHOICE (log entry 17): that walk is one of ordinary
paging, also where HLAT paging made the entry, and sets no accessed flag; where it finds no translation, memory
is left alone, and the entry's flag may be set all the same. -/
def State.dirtyByHit (s : State) (ch : WalkChoice) (la : Word) (e : TlbEntry) : State :=
  if e.dirty || ch.dirty % 3 == 0 then s
  else
    let p := s.self.path s.cfg (s.momentAt ch la) ch la .root
    let s1 := if p.ends = .mapped then s.dirtyByWalk ch p else s
    if ch.dirty % 3 == 2 then
      s1.onSelf fun l =>
        { l with tlb := l.tlb.map fun x => if x = e then { x with dirty := true } else x }
    else s1

/-- `Translate(la, kind, priv)` with its choices (R191). Rights are those of the path taken, never
memory's when a cached entry is used (R147, R322). A walk that ends in a permitted access has set every
accessed flag on its way (V10), one that does not may have set some (R194). With paging off the linear
address is the physical one (log entry 13). -/
def State.translateWith (s : State) (ch : WalkChoice) (la : Word) (k : Kind) (priv : Priv) :
    Found × State :=
  if s.self.pagingMode = .none then (.ok (physicalAddress s.cfg (la.toNat % 2 ^ 32)) 0, s)
  else
    match s.locate ch la with
    | .hit e =>
      let t := tlbTranslation e la
      if s.self.permits t.rights k priv then
        (.ok t.pa t.memType, if k = .write then s.dirtyByHit ch la e else s)
      else (.pageFault, s)
    | .walked p =>
      match p.ends, p.hops.getLast? with
      | .mapped, some h =>
        let t := h.translation s.self.pagingMode p.cap la
        if s.self.permits t.rights k priv then
          let s1 := s.fillHops ch p.cap la p.hops 0
          (.ok t.pa t.memType, if k = .write then s1.dirtyByWalk ch p else s1)
        else (.pageFault, s.fillHops ch p.cap la (p.hops.take ch.depth) 0)
      | _, _ => (.pageFault, s.fillHops ch p.cap la (p.hops.take ch.depth) 0)

/-- `Translate(la, kind, priv)`, its choices free (R191, R195). -/
def State.translate (s : State) (la : Word) (k : Kind) (priv : Priv) : Found × State :=
  s.tick.translateWith (Config.walkChoice s.draws) la k priv

/-- The kind of a request. -/
def requestKind : Request → Kind
  | .read _ => .read
  | .write _ => .write
  | .fetch _ => .fetch

/-- The number of bytes of a request. -/
def requestSize : Request → Nat
  | .read n => n
  | .write bs => bs.length
  | .fetch n => n

/-- `n` bytes from `la` on, split where a 4-KByte page ends: "an access whose bytes lie on two pages is
two translations, one per page" (R69, D6). Which page size decides is left open; the model splits at every
4-KByte boundary, also inside a larger page (DESIGN CHOICE, log entry 25). The first argument bounds the
number of parts. -/
def splitPages : Nat → Word → Nat → List (Word × Nat)
  | 0, _, _ => []
  | fuel + 1, la, n =>
    if n = 0 then []
    else
      let k := min n (4096 - la.toNat % 4096)
      (la, k) :: splitPages fuel (la + BitVec.ofNat 64 k) (n - k)

/-- The translations of the parts of one access. -/
inductive Placed
  /-- Each part's physical address, length and memory type. -/
  | ok (parts : List (Nat × Nat × BitVec 3)) (s : State)
  /-- The first part to fault, at its linear address (R326). -/
  | pageFault (la : Word) (s : State)

/-- Translate each part in turn; the first to fault is reported (R69, R326). -/
def State.placeInOrder (s : State) (k : Kind) (priv : Priv) : List (Word × Nat) → Placed
  | [] => .ok [] s
  | (la, n) :: rest =>
    match s.translate la k priv with
    | (.ok pa mt, s1) =>
      match s1.placeInOrder k priv rest with
      | .ok parts s2 => .ok ((pa, n, mt) :: parts) s2
      | .pageFault a s2 => .pageFault a s2
    | (.pageFault, s1) => .pageFault la s1

/-- The parts in the opposite order. -/
def Placed.reversed : Placed → Placed
  | .ok parts s => .ok parts.reverse s
  | p => p

/-- Translate the parts of one access, from the first to the last or from the last to the first: which, and so
which part's fault is reported where several fault, is free (R69, D6 and R326 give no order; log entry
25). -/
def State.place (s : State) (k : Kind) (priv : Priv) (parts : List (Word × Nat)) : Placed :=
  match parts with
  | _ :: _ :: _ =>
    if Config.lastPageFirst s.draws then (s.tick.placeInOrder k priv parts.reverse).reversed
    else s.tick.placeInOrder k priv parts
  | _ => s.placeInOrder k priv parts

/-- A read of physical memory is shown, and its side effect where the address has one (R76, R355). -/
def State.showRead (s : State) (pa n : Nat) (k : Kind) (mt : BitVec 3) : State :=
  let s1 := s.show (.access s.self.id pa k (Memory.readBytes s.mem pa n) mt)
  if inRanges s.cfg.readSideEffects pa n then s1.show (.sideEffect s.self.id pa) else s1

/-- The bytes of each part, read from physical memory, the lowest part first (R307; DESIGN CHOICE, log entry
25). They are those of memory as it is, for a fetch too, so a store to the bytes of an instruction is seen by
every later fetch of them (R80: not in the source; DESIGN CHOICE, log entry 24). -/
def State.readParts (s : State) (k : Kind) : List (Nat × Nat × BitVec 3) → List Byte × State
  | [] => ([], s)
  | (pa, n, mt) :: rest =>
    let r := (s.showRead pa n k mt).readParts k rest
    (Memory.readBytes s.mem pa n ++ r.1, r.2)

/-- The bytes of each part, stored to physical memory, the lowest part first (R307; DESIGN CHOICE, log entry
25). -/
def State.writeParts (s : State) : List (Nat × Nat × BitVec 3) → List Byte → State
  | [], _ => s
  | (pa, n, mt) :: rest, bs =>
    ((s.store pa (bs.take n)).show (.access s.self.id pa .write (bs.take n) mt)).writeParts rest
      (bs.drop n)

/-- How an access ends. -/
inductive Accessed
  /-- Done, with the bytes read. -/
  | done (bytes : List Byte) (s : State)
  /-- It causes a page fault at a linear address; the state holds what earlier parts did. -/
  | pageFault (la : Word) (s : State)

/-- One access: every byte is translated before any is read or written, so that an access that faults
reads and writes nothing (R321 (a), R307). -/
def State.accessOnce (s : State) (la : Word) (req : Request) (priv : Priv) : Accessed :=
  match s.place (requestKind req) priv (splitPages (requestSize req) la (requestSize req)) with
  | .pageFault a s1 => .pageFault a s1
  | .ok parts s1 =>
    match req with
    | .write bs => .done [] (s1.writeParts parts bs)
    | _ =>
      let r := s1.readParts (requestKind req) parts
      .done r.1 r.2

/-- The quadwords of `n` bytes, from an offset on. -/
def quadwords : Nat → Nat → Nat → List (Nat × Nat)
  | 0, _, _ => []
  | fuel + 1, off, n => if n = 0 then [] else (off, min n 8) :: quadwords fuel (off + 8) (n - 8)

/-- The parts cover each of the `n` bytes exactly once. -/
def coversOnce (n : Nat) (parts : List (Nat × Nat)) : Bool :=
  (parts.flatMap fun p => List.range' p.1 p.2).isPerm (List.range n)

/-- The accesses a request is made of: one, or, for more than a quadword, as many as the free choice
says, in its order (R70, R294, M14). -/
def piecesOf (choice : Nat → List (Nat × Nat)) (n : Nat) : List (Nat × Nat) :=
  if n ≤ 8 then [(0, n)]
  else if coversOnce n (choice n) then choice n
  else quadwords n 0 n

/-- The piece of a request at an offset. -/
def requestPiece (req : Request) (off n : Nat) : Request :=
  match req with
  | .read _ => .read n
  | .write bs => .write ((bs.drop off).take n)
  | .fetch _ => .fetch n

/-- The accesses of a request, one after another: what the earlier ones did stays if a later one faults
(R294, R321 (d)). -/
def State.accessPieces (s : State) (la : Word) (req : Request) (priv : Priv) :
    List (Nat × Nat) → Accessed
  | [] => .done [] s
  | (off, n) :: rest =>
    match s.accessOnce (la + BitVec.ofNat 64 off) (requestPiece req off n) priv with
    | .done bytes s1 =>
      match s1.accessPieces la req priv rest with
      | .done more s2 => .done (bytes ++ more) s2
      | .pageFault a s2 => .pageFault a s2
    | .pageFault a s1 => .pageFault a s1

/-- `Access(la, kind, priv)` (R307). -/
def State.accessLinear (s : State) (la : Word) (req : Request) (priv : Priv) : Accessed :=
  s.tick.accessPieces la req priv (piecesOf (Config.pieces s.draws) (requestSize req))

/-- A speculative read of a physical address is shown, and its side effect where it has one (R75, R76). -/
def State.showSpeculative (s : State) (pa : Nat) : State :=
  let s1 := s.show (.speculativeRead s.self.id pa)
  if inRanges s.cfg.readSideEffects pa 1 then s1.show (.sideEffect s.self.id pa) else s1

/-- A speculative read with its choices: "for any linear address that has a translation in memory or a
usable cached entry" (R75), whatever its rights. It may fill on its way, and never faults. An address that
is not canonical is translated by its lower bits (R62; DESIGN CHOICE, log entry 14). -/
def State.speculativeReadWith (s : State) (ch : WalkChoice) (la : Word) : State :=
  if s.self.pagingMode = .none then s
  else
    match s.locate ch la with
    | .hit e => s.showSpeculative (tlbTranslation e la).pa
    | .walked p =>
      let s1 := s.fillHops ch p.cap la (p.hops.take ch.depth) 0
      match p.ends, p.hops.getLast? with
      | .mapped, some h => s1.showSpeculative (h.pa s.self.pagingMode p.cap la)
      | _, _ => s1

/-- A speculative read, its choices free (R75). -/
def State.speculativeRead (s : State) (la : Word) : State :=
  s.tick.speculativeReadWith (Config.walkChoice s.draws) la

/-! ### Exceptions -/

/-- Taking an exception: it is recorded for the handler and shown, and control passes to the handler,
after which the faulting operation `again` is re-executed if the handler says so; without a handler
the instruction stream ends (R321, D22). The spec gives no saved registers, vector table or mode
(R327), and says nothing of a fault inside a handler (R328): it is taken like any other, ahead of what is
left of the interrupted handler, to any depth, and its record replaces the earlier one (DESIGN CHOICE, log
entry 18). -/
def State.deliver (s : State) (x : Exception) (h : Option Handler) (again : List Item) : State :=
  (s.onSelf fun l =>
    { l with
      exception := some x
      program :=
        match h with
        | some h => h.ops ++ (if h.retries then again else []) ++ l.program
        | none => [] }).show (.exception s.self.id x)

/-- The operation in execution, to be re-executed after a handler (R321 (c)). -/
def State.again (s : State) (i : Instr) : List Item := [{ priv := s.self.mode, work := .op i }]

/-- `raise #GP`: no register is written and nothing is invalidated (R109, R324, D12). -/
def State.raiseGp (s : State) (i : Instr) : State :=
  s.deliver .generalProtection s.self.gpHandler (s.again i)

/-- The invalidation of `PageFault(la)` (R242). A page fault is no serializing instruction (R244): what may
be seen of older memory ends for the faulting address only (R243; DEDUCED, log entry 19). -/
def State.faultInvalidate (s : State) (la : Word) : State :=
  (s.invalidate (s.self.faultTlb la) (s.self.pscFor s.self.curPcid la)).onSelf fun l =>
    l.faulted la

/-- `PageFault(la)`: the invalidation, then delivery (R242, R321 (b), D12 (c)). -/
def State.raisePf (s : State) (la : Word) (k : Kind) (priv : Priv) (again : List Item) : State :=
  ((s.faultInvalidate la).onSelf fun l => { l with cr2 := la }).deliver (.pageFault la k priv)
    s.self.pfHandler again

/-- A privileged operation: #GP outside supervisor mode (R308, R331; PRESUMED from G11, log entry 20). -/
def State.privileged (s : State) (i : Instr) (run : State → State) : State :=
  if s.self.mode = .user then s.raiseGp i else run s

/-! ### Control registers -/

/-- CR0 written; `IA32_EFER.LMA` follows `CR0.PG` (R230, G2; log entry 12). -/
def Processor.setCr0 (l : Processor) (v : Word) : Processor :=
  { l with cr0 := v, efer := eferWithLma l.efer (cr0Pg v) }

/-- A PDPTE as loaded from the PAE page-directory-pointer table that CR3 addresses (R25; the bits of
CR3 and the format PRESUMED, log entry 10). A table address of more than MAXPHYADDR bits, which MAXPHYADDR
below 32 allows, stands for a free one, as for every root (DESIGN CHOICE, log entry 38). -/
def pdpteAt (c : Params) (mem : Memory) (cr3 : Word) (i : Nat) : Word :=
  Memory.readValue mem (physicalAddress c ((slice cr3 31 5) <<< 5) + 8 * i) 8

/-- "if PagingMode = PAE: the PDPTE registers are loaded" (R234, R25). -/
def Processor.loadPdptrs (l : Processor) (c : Params) (mem : Memory) : Processor :=
  if l.pagingMode = .pae then
    { l with pdptrs :=
      { p0 := pdpteAt c mem l.cr3 0, p1 := pdpteAt c mem l.cr3 1
        p2 := pdpteAt c mem l.cr3 2, p3 := pdpteAt c mem l.cr3 3 } }
  else l

/-- CR3 loaded with a value, and the PDPTE registers with it (R23, R25). -/
def Processor.setCr3 (l : Processor) (c : Params) (mem : Memory) (v : Word) : Processor :=
  Processor.loadPdptrs { l with cr3 := v } c mem

/-! ### Between two operations (R335) -/

/-- One step that a processor takes on its own. -/
def State.backgroundStep (s : State) : BackgroundAction → State
  | .fill la => s.fill la
  | .evict => s.evict
  | .read la => s.speculativeRead la

/-- Steps that a processor takes on its own, in order. -/
def State.backgroundSteps (s : State) : List BackgroundAction → State
  | [] => s
  | a :: as => (s.backgroundStep a).backgroundSteps as

/-- Paging is off and nothing is cached: no fill, eviction or translated access can do anything (R34). -/
def Processor.quiet (l : Processor) : Bool :=
  l.pagingMode == .none && l.tlb == [] && l.psc == Psc.empty

/-- The free steps of the executing processor between two operations (R75, R143, R146, R190). -/
def State.background (s : State) : State :=
  if s.self.quiet then s else s.tick.backgroundSteps (Config.background s.draws)

/-- The next logical processor in line executes. -/
def State.rotate (s : State) : State :=
  match s.others with
  | [] => s
  | l :: ls => { s with self := l, others := ls ++ [s.self] }

/-- `n` times round. -/
def State.rotateBy (s : State) : Nat → State
  | 0 => s
  | n + 1 => s.rotate.rotateBy n

/-- The free steps of `n` processors, each in its turn. -/
def State.backgroundAll (s : State) : Nat → State
  | 0 => s
  | n + 1 => s.background.rotate.backgroundAll n

/-- Which processor executes the next operation: free (R335). -/
def State.handOver (s : State) : State :=
  if s.others = [] then s
  else s.tick.rotateBy (Config.nextProcessor s.draws % (s.others.length + 1))

/-- What happens between two operations: every processor's fill, eviction and speculative steps, and
then the choice of the processor that executes next (R335). -/
def State.between (s : State) : State := (s.backgroundAll (s.others.length + 1)).handOver

/-- A halted processor is resumed, or stays halted: free (R336, D24). -/
def State.wake (s : State) : State :=
  (s.onSelf fun l => { l with halted := !Config.wakes s.draws }).tick

/-! ### Fetch -/

/-- What the executing processor finds to do. -/
inductive Fetched
  /-- Its instruction stream has ended (D25). -/
  | idle
  /-- `HLT` has stopped it (R336). -/
  | halted
  /-- The bytes are no instruction of the table (R309). -/
  | undecodable (e : DecodeError)
  /-- An operation, and the state with the stream moved past it. -/
  | ready (i : Instr) (s : State)

/-- The stream moved past its first item, at that item's privilege (R331). -/
def State.taken (s : State) (it : Item) (rest : List Item) : State :=
  s.onSelf fun l => { l with program := rest, mode := it.priv }

/-- The next operation of the instruction stream (D2). Of an item given by bytes the first instruction is
run; bytes left after it are dropped (DESIGN CHOICE, log entry 4). -/
def State.fetch (s : State) : Fetched :=
  if s.self.halted then .halted
  else
    match s.self.program with
    | [] => .idle
    | it :: rest =>
      match it.work with
      | .op i => .ready i (s.taken it rest)
      | .code bytes =>
        match decode bytes with
        | .ok (i, _) => .ready i (s.taken it rest)
        | .error e => .undecodable e

end Sys2Proof.Machine
end

