-- ==== Sys2Proof/Machine/Events.lean ====
section
/-! DEFINITION. The events that are not instructions: task switch (R238), VMX transition (R239) and
page fault (R242). -/

namespace Sys2Proof.Machine

/-- `TaskSwitch(newCR3)` (R238). The PDPTE registers are loaded with CR3 (R25). -/
def State.taskSwitch (s : State) (newCr3 : Word) : State :=
  if newCr3 = s.self.cr3 then s.invalidate noTlb noPsc
  else
    let s1 := s.invalidate (nonGlobalOf 0) (pscOf 0)
    s1.onSelf fun l => l.setCr3 s1.cfg s1.mem newCr3

/-- A task switch (R238): "Task switches do not occur in IA-32e mode". -/
def execTaskSwitch (newCr3 : Word) (s : State) : Host.Outcome State Fault Refusal :=
  if s.self.lma then .refused .taskSwitchInIa32eMode else .next (s.taskSwitch newCr3)

/-- A VMX transition (R239): "Nothing may be assumed about what a VMX transition keeps" of the caches;
any subset of the entries goes (log entry 21). -/
def execVmxTransition (s : State) : Host.Outcome State Fault Refusal :=
  .next (s.invalidate noTlb noPsc)

/-- A page-fault exception from an attempt to use `la` (R242). The faulting operation, if it is to be
re-executed, is the stream's next. -/
def execPageFault (la : Word) (k : Kind) (priv : Priv) (s : State) :
    Host.Outcome State Fault Refusal :=
  .next (s.raisePf la k priv [])

end Sys2Proof.Machine
end

