-- ==== Sys2Proof/Machine/Halt.lean ====
section
/-! DEFINITION. `HLT` (R336). -/

namespace Sys2Proof.Machine

/-- `HLT` "stops the instruction stream of the logical processor that executes it"; its caches stay as
they are (R336, D24). -/
def execHlt (s : State) : Host.Outcome State Fault Refusal :=
  .next <| s.privileged .hlt fun s => s.onSelf fun l => { l with halted := true }

end Sys2Proof.Machine
end

