-- ==== Sys2Proof/Machine/Invlpg.lean ====
section
/-! DEFINITION. `INVLPG` (R221 to R224). -/

namespace Sys2Proof.Machine

/-- A case in which the spec does not say what an operation on `la` does: paging is off, or the address
is not canonical (R246, R62). -/
def Processor.unusualAddress (l : Processor) (la : Word) : Bool :=
  l.pagingMode == .none || !l.pagingMode.canonical la

/-- The invalidation of `INVLPG(la)`: TLB entries of the current PCID, and global ones, on the page of
`la`, and every paging-structure-cache entry of the current PCID (R221 to R224); it serializes (R244). -/
def State.invlpg (s : State) (la : Word) : State :=
  (s.invalidate (s.self.invlpgTlb la) (pscOf s.self.curPcid)).onSelf Processor.serialize

/-- `INVLPG` in a case of R246: it faults, or does no required invalidation, or acts as usual, as the
free choice says (N26). -/
def State.invlpgUnusual (s : State) (i : Instr) (la : Word) (choice : Nat) : State :=
  if choice = 0 then s.raiseGp i
  else if choice = 1 then (s.invalidate noTlb noPsc).onSelf Processor.serialize
  else s.invlpg la

/-- `INVLPG` at a linear address (R221). -/
def State.invlpgAt (s : State) (i : Instr) (la : Word) : State :=
  if s.self.unusualAddress la then s.tick.invlpgUnusual i la (Config.unusual s.draws)
  else s.invlpg la

/-- `INVLPG m` (R102, R221): the operand is the linear address of `m`; no memory is read. -/
def execInvlpg (m : MemOperand) (s : State) : Host.Outcome State Fault Refusal :=
  .next <| s.privileged (.invlpg m) fun s =>
    let ip := Config.instructionPointer s.draws
    s.tick.invlpgAt (.invlpg m) (s.self.linearAddress ip m)

end Sys2Proof.Machine
end

