-- ==== Sys2Proof/Machine/Internal.lean ====
section
/-! DEFINITION. An access to a linear address (R191, R307) and the processor-internal steps: the fill
(R194) and the eviction (R220). -/

namespace Sys2Proof.Machine

/-- An access that has ended (R191, R321). -/
def accessEnds (k : Kind) (priv : Priv) (again : List Item) : Accessed → State
  | .done _ s => s
  | .pageFault la s => s.raisePf la k priv again

/-- `Access(la, kind, priv)` (R191, R307). What an address that is not canonical does is free: #GP, or
the translation of its lower bits (R62). Only the address of the first byte is looked at: the bytes of an
access that runs on past the canonical addresses are translated by their lower bits (DESIGN CHOICE, log
entry 14). -/
def execAccess (la : Word) (req : Request) (priv : Priv) (s : State) :
    Host.Outcome State Fault Refusal :=
  let i := Instr.access la req priv
  .next <|
    if !s.self.pagingMode.canonical la && Config.unusual s.draws == 0 then s.tick.raiseGp i
    else accessEnds (requestKind req) priv (s.again i) (s.tick.accessLinear la req priv)

/-- `Fill(la)` (R194). -/
def execFill (la : Word) (s : State) : Host.Outcome State Fault Refusal := .next (s.fill la)

/-- The entries of an eviction in one cache. -/
def evictionPsc (e : Eviction) : CacheKind → List PscEntry
  | .pml5e => e.pml5e
  | .pml4e => e.pml4e
  | .pdpte => e.pdpte
  | .pde => e.pde

/-- Eviction of exactly the entries named: `TLB <- TLB \ S`, `PSC[k] <- PSC[k] \ S` (R143, R190, R220). -/
def execEvict (e : Eviction) (s : State) : Host.Outcome State Fault Refusal :=
  .next <| s.onSelf fun l =>
    l.invalidate noTlb noPsc (fun x => e.tlb.contains x) fun k x => (evictionPsc e k).contains x

end Sys2Proof.Machine
end

