-- ==== Sys2Proof/Machine/Invpcid.lean ====
section
/-! DEFINITION. `INVPCID` and its four types (R225 to R229). "Mappings" are TLB entries and
paging-structure-cache entries, "global translations" global TLB entries (D3). -/

namespace Sys2Proof.Machine

/-- `INVPCID` type 0 (R226). -/
def State.invpcidAddress (s : State) (p : Pcid) (la : Word) : State :=
  (s.invalidate (s.self.addressTlb p la) (s.self.pscFor p la)).onSelf Processor.serialize

/-- `INVPCID` type 1 (R227). -/
def State.invpcidContext (s : State) (p : Pcid) : State :=
  (s.invalidate (nonGlobalOf p) (pscOf p)).onSelf Processor.serialize

/-- `INVPCID` type 2 (R228). -/
def State.invpcidAllGlobals (s : State) : State :=
  (s.invalidate allTlb allPsc).onSelf Processor.serialize

/-- `INVPCID` type 3 (R229). -/
def State.invpcidAll (s : State) : State :=
  (s.invalidate nonGlobal allPsc).onSelf Processor.serialize

/-- A case of R246 for a type that uses the descriptor's PCID: `CR4.PCIDE = 0` and another PCID. -/
def Processor.unusualPcid (l : Processor) (p : Pcid) : Bool := !l.pcide && p != 0

/-- An `INVPCID` that, in a case of R246, faults or acts as usual, as the free choice says (N26). -/
def State.invpcidUnless (s : State) (i : Instr) (unusual : Bool) (run : State → State) : State :=
  if unusual then
    (if Config.unusual s.draws = 0 then s.tick.raiseGp i else run s.tick)
  else run s

/-- `INVPCID` type 0 with the descriptor's fields as operands (R226). `reserved`: a reserved bit of the
descriptor is set. -/
def State.invpcidType0 (s : State) (i : Instr) (reserved : Bool) (p : Pcid) (la : Word) : State :=
  s.invpcidUnless i (reserved || s.self.unusualAddress la || s.self.unusualPcid p)
    fun s => s.invpcidAddress p la

/-- `INVPCID` type 1 (R227): "`desc.la` is not used". -/
def State.invpcidType1 (s : State) (i : Instr) (reserved : Bool) (p : Pcid) : State :=
  s.invpcidUnless i (reserved || s.self.pagingMode == .none || s.self.unusualPcid p)
    fun s => s.invpcidContext p

/-- `INVPCID` type 2 (R228): "The descriptor's fields are not used". -/
def State.invpcidType2 (s : State) (i : Instr) (reserved : Bool) : State :=
  s.invpcidUnless i (reserved || s.self.pagingMode == .none) State.invpcidAllGlobals

/-- `INVPCID` type 3 (R229). -/
def State.invpcidType3 (s : State) (i : Instr) (reserved : Bool) : State :=
  s.invpcidUnless i (reserved || s.self.pagingMode == .none) State.invpcidAll

/-- The four types by number (R225); `type` is at most 3. -/
def State.invpcidTyped (s : State) (i : Instr) (type : Nat) (reserved : Bool) (p : Pcid) (la : Word) :
    State :=
  match type with
  | 0 => s.invpcidType0 i reserved p la
  | 1 => s.invpcidType1 i reserved p
  | 2 => s.invpcidType2 i reserved
  | _ => s.invpcidType3 i reserved

/-- The PCID in a descriptor: bits 11:0 (G7). -/
def descPcid (bytes : List Byte) : Pcid := BitVec.ofNat 12 (bytesValue (bytes.take 8))

/-- Whether a reserved bit of a descriptor, bits 63:12, is set (G7). -/
def descReserved (bytes : List Byte) : Bool := bytesValue (bytes.take 8) >>> 12 != 0

/-- The linear address in a descriptor: bits 127:64 (G7). -/
def descLa (bytes : List Byte) : Word := BitVec.ofNat 64 (bytesValue ((bytes.drop 8).take 8))

/-- `INVPCID` after its descriptor's read: the descriptor's bytes, or a page fault of that read (G7:
"Reading the descriptor is an ordinary data read and can page-fault"). -/
def invpcidRead (i : Instr) (type : Nat) (again : List Item) : Accessed → State
  | .done bytes s => s.invpcidTyped i type (descReserved bytes) (descPcid bytes) (descLa bytes)
  | .pageFault la s => s.raisePf la .read .supervisor again

/-- `INVPCID` of a type up to 3 with its descriptor at `la` (R225, G7). What a descriptor's address that
is not canonical does is free: #GP, or the translation of its lower bits (R62; only the first byte's
address is looked at, log entry 14). -/
def State.invpcidAt (s : State) (i : Instr) (type : Nat) (la : Word) : State :=
  if !s.self.pagingMode.canonical la && Config.unusual s.draws == 0 then s.tick.raiseGp i
  else invpcidRead i type (s.again i) (s.tick.accessOnce la (.read 16) .supervisor)

/-- `INVPCID r, m128` (R225): the type is in `r`, the descriptor in memory at `m` (G7). A type above 3
is refused (R108). -/
def execInvpcid (r : Reg) (m : MemOperand) (s : State) : Host.Outcome State Fault Refusal :=
  let i := Instr.invpcid r m
  if s.self.mode = .user then .next (s.raiseGp i)
  else if 3 < (s.self.source r).toNat then .refused (.invpcidTypeNotDefined (s.self.source r))
  else
    .next (s.tick.invpcidAt i (s.self.source r).toNat
      (s.self.linearAddress (Config.instructionPointer s.draws) m))

/-- `INVPCID` type 0, individual-address (R226). -/
def execInvpcidAddress (p : Pcid) (la : Word) (s : State) : Host.Outcome State Fault Refusal :=
  .next <| s.privileged (.invpcidAddress p la) fun s =>
    s.invpcidType0 (.invpcidAddress p la) false p la

/-- `INVPCID` type 1, single-context (R227). -/
def execInvpcidContext (p : Pcid) (s : State) : Host.Outcome State Fault Refusal :=
  .next <| s.privileged (.invpcidContext p) fun s => s.invpcidType1 (.invpcidContext p) false p

/-- `INVPCID` type 2, all-context including globals (R228). -/
def execInvpcidAllGlobals (s : State) : Host.Outcome State Fault Refusal :=
  .next <| s.privileged .invpcidAllGlobals fun s => s.invpcidType2 .invpcidAllGlobals false

/-- `INVPCID` type 3, all-context (R229). -/
def execInvpcidAll (s : State) : Host.Outcome State Fault Refusal :=
  .next <| s.privileged .invpcidAll fun s => s.invpcidType3 .invpcidAll false

end Sys2Proof.Machine
end

