-- ==== Sys2Proof/Machine/MovCr.lean ====
section
/-! DEFINITION. The moves to and from control registers (R124, R125, R230 to R237, R308). -/

namespace Sys2Proof.Machine

/-- `MOV_to_CR0_check`: "MOV to CR0 causes a general-protection exception if it would clear CR0.PG to 0
while CR4.PCIDE = 1" (R125). -/
def Processor.cr0Refused (l : Processor) (src : Word) : Bool := l.pg && !cr0Pg src && l.pcide

/-- The write of CR0 with its invalidation, one step (R230, D12 (b)); it serializes (R244). -/
def State.loadCr0 (s : State) (src : Word) : State :=
  let s1 :=
    if s.self.pg && !cr0Pg src then s.invalidate allTlb allPsc else s.invalidate noTlb noPsc
  s1.onSelf fun l => (l.setCr0 src).serialize

/-- `MOV_to_CR0(src)` (R230). -/
def State.movToCr0 (s : State) (i : Instr) (src : Word) : State :=
  if s.self.cr0Refused src then s.raiseGp i else s.loadCr0 src

/-- `MOV CR0, r` (R230). -/
def execMovToCr0 (r : Reg) (s : State) : Host.Outcome State Fault Refusal :=
  .next <| s.privileged (.movToCr0 r) fun s => s.movToCr0 (.movToCr0 r) (s.self.source r)

/-- The PCID whose entries `MOV to CR3` must invalidate: 000H with `CR4.PCIDE = 0` (R231), else the one
being established (R232). -/
def Processor.cr3Pcid (l : Processor) (src : Word) : Pcid :=
  if l.pcide then src.extractLsb' 0 12 else 0

/-- `MOV to CR3` must invalidate unless `CR4.PCIDE = 1` and bit 63 of its source is 1 (R233). -/
def Processor.cr3Invalidates (l : Processor) (src : Word) : Bool := !(l.pcide && src.getLsbD 63)

/-- `MOV_to_CR3(src)` (R234). -/
def State.movToCr3 (s : State) (src : Word) : State :=
  let p := s.self.cr3Pcid src
  let s1 :=
    if s.self.cr3Invalidates src then s.invalidate (nonGlobalOf p) (pscOf p)
    else s.invalidate noTlb noPsc
  s1.onSelf fun l => (l.setCr3 s1.cfg s1.mem (cr3Loaded l.cr3 src)).serialize

/-- `MOV CR3, r` (R234). -/
def execMovToCr3 (r : Reg) (s : State) : Host.Outcome State Fault Refusal :=
  .next <| s.privileged (.movToCr3 r) fun s => s.movToCr3 (s.self.source r)

/-- `MOV_to_CR4_check` (R124), and the same for a processor that does not allow `CR4.PCIDE = 1` (R109,
D4). -/
def Processor.cr4Refused (l : Processor) (c : Params) (src : Word) : Bool :=
  (!l.pcide && cr4Pcide src && (!l.lma || l.cr3.extractLsb' 0 12 != 0)) ||
    (cr4Pcide src && !c.pcidSupported)

/-- The changes of CR4 that invalidate everything (R235). -/
def Processor.cr4FlushesAll (l : Processor) (src : Word) : Bool :=
  cr4Pge src != l.pge || (l.pcide && !cr4Pcide src)

/-- The changes of CR4 that invalidate the current PCID (R236). -/
def Processor.cr4FlushesPcid (l : Processor) (src : Word) : Bool :=
  cr4Pae src != l.pae || (!l.smep && cr4Smep src)

/-- The write of CR4 with its invalidation, one step (R237, D12 (b)); it serializes (R244). A change that
the source ties to no invalidation, such as that of CR4.LA57, may remove any entries and must remove none
(R247, N15); those left keep the meaning they were made with (log entry 37). -/
def State.loadCr4 (s : State) (src : Word) : State :=
  let s1 :=
    if s.self.cr4FlushesAll src then s.invalidate allTlb allPsc
    else if s.self.cr4FlushesPcid src then
      s.invalidate (tlbOf s.self.curPcid) (pscOf s.self.curPcid)
    else s.invalidate noTlb noPsc
  s1.onSelf fun l => { l with cr4 := src }.serialize

/-- `MOV_to_CR4(src)` (R237). -/
def State.movToCr4 (s : State) (i : Instr) (src : Word) : State :=
  if s.self.cr4Refused s.cfg src then s.raiseGp i else s.loadCr4 src

/-- `MOV CR4, r` (R237). -/
def execMovToCr4 (r : Reg) (s : State) : Host.Outcome State Fault Refusal :=
  .next <| s.privileged (.movToCr4 r) fun s => s.movToCr4 (.movToCr4 r) (s.self.source r)

/-- The control register of a number, for the registers that the spec names (R21 to R23, R321). -/
def Processor.crValue (l : Processor) (n : BitVec 3) : Option Word :=
  if n = 0 then some l.cr0
  else if n = 2 then some l.cr2
  else if n = 3 then some l.cr3
  else if n = 4 then some l.cr4
  else none

/-- A control register read into a general register. -/
def State.movFromCr (s : State) (r : Reg) (v : Word) : State :=
  s.onSelf fun l => { l with regs := l.regs.set r (l.atOperandWidth v) }

/-- `MOV r, CRn` (R110: "reads; invalidates nothing"; R241). A number that names no register of the
spec is refused. -/
def execMovFromCr (n : BitVec 3) (r : Reg) (s : State) : Host.Outcome State Fault Refusal :=
  if s.self.mode = .user then .next (s.raiseGp (.movFromCr n r))
  else
    match s.self.crValue n with
    | none => .refused (.noSuchControlRegister n)
    | some v => .next (s.movFromCr r v)

end Sys2Proof.Machine
end

