-- ==== Sys2Proof/Machine/Dispatch.lean ====
section
/-! DEFINITION. The meaning of every instruction, event and internal step, one arm each. -/

namespace Sys2Proof.Machine

def exec (i : Instr) (s : State) : Host.Outcome State Fault Refusal :=
  match i with
  | .invlpg m => Sys2Proof.Machine.execInvlpg m s
  | .invpcid r m => Sys2Proof.Machine.execInvpcid r m s
  | .invpcidAddress p la => Sys2Proof.Machine.execInvpcidAddress p la s
  | .invpcidContext p => Sys2Proof.Machine.execInvpcidContext p s
  | .invpcidAllGlobals => Sys2Proof.Machine.execInvpcidAllGlobals s
  | .invpcidAll => Sys2Proof.Machine.execInvpcidAll s
  | .movToCr0 r => Sys2Proof.Machine.execMovToCr0 r s
  | .movToCr3 r => Sys2Proof.Machine.execMovToCr3 r s
  | .movToCr4 r => Sys2Proof.Machine.execMovToCr4 r s
  | .movFromCr n r => Sys2Proof.Machine.execMovFromCr n r s
  | .hlt => Sys2Proof.Machine.execHlt s
  | .taskSwitch newCr3 => Sys2Proof.Machine.execTaskSwitch newCr3 s
  | .vmxTransition => Sys2Proof.Machine.execVmxTransition s
  | .pageFault la k priv => Sys2Proof.Machine.execPageFault la k priv s
  | .access la req priv => Sys2Proof.Machine.execAccess la req priv s
  | .fill la => Sys2Proof.Machine.execFill la s
  | .evict e => Sys2Proof.Machine.execEvict e s

end Sys2Proof.Machine
end

