-- ==== Sys2Proof/Machine/Step.lean ====
section
/-! DEFINITION. One step of the machine: the executing processor's next operation, and then what happens
between operations (R335). -/

namespace Sys2Proof.Machine

/-- What happens between two operations, after one that gave a next state. -/
def thenBetween : Host.Outcome State Fault Refusal → Host.Outcome State Fault Refusal
  | .next s => .next s.between
  | .fault r => .fault r
  | .refused r => .refused r

/-- One step. A halted processor, and one whose stream has ended, still takes its internal steps (R336,
D24). -/
def step (s : State) : Host.Outcome State Fault Refusal :=
  match s.fetch with
  | .halted => thenBetween (.next s.wake)
  | .idle => thenBetween (.next s)
  | .undecodable e => .refused (.undecodable e)
  | .ready i s1 => thenBetween (exec i s1)

/-- A table word's instruction as the next item of the executing processor's stream, at its present
privilege (log entry 4). -/
def State.withFetchWord (s : State) (nbits w : Nat) : State :=
  s.onSelf fun l =>
    { l with
      halted := false
      program := { priv := l.mode, work := .code (tableBytes nbits w) } :: l.program }

end Sys2Proof.Machine
end

