-- ==== Sys2Proof/Safety.lean ====
section
/-! DEFINITION. The terms that claims use: what an invalidating operation may leave, what it leaves
alone, which translations memory alone decides, and the invariants of R33 to R35 and R123. -/

namespace Sys2Proof.Machine

/-- The entries left are exactly those in no required set and not among the extra ones that the free
choice `n` names (R220). -/
structure Invalidated (n : Nat) (reqTlb : TlbEntry → Bool) (reqPsc : CacheKind → PscEntry → Bool)
    (l l' : Processor) : Prop where
  tlb : ∀ e, e ∈ l'.tlb ↔ e ∈ l.tlb ∧ reqTlb e = false ∧ Config.dropsTlb n e = false
  psc : ∀ k e, e ∈ l'.psc.get k ↔
    e ∈ l.psc.get k ∧ reqPsc k e = false ∧ Config.dropsPsc n k e = false

/-- No part of a processor changed but its TLB, its paging-structure caches and what it may still see of
older memory. -/
def OnlyCaches (l l' : Processor) : Prop :=
  l' = { l with tlb := l'.tlb, psc := l'.psc, window := l'.window }

/-- Every byte of memory reads as before. -/
def SameMemory (s t : State) : Prop := ∀ a, Memory.read t.mem a = Memory.read s.mem a

/-- Nothing outside the executing processor changed: parameters, the other processors, memory and what
the run has shown. -/
structure SameElsewhere (s t : State) : Prop where
  cfg    : t.cfg = s.cfg
  others : t.others = s.others
  mem    : SameMemory s t
  trace  : t.trace = s.trace

/-- `t` is `s` after an invalidation with these required sets and the extra ones that the free choice `n`
names, and nothing else (R220: "Invalidating never writes memory and never changes a register"). -/
structure OnlyInvalidated (n : Nat) (reqTlb : TlbEntry → Bool)
    (reqPsc : CacheKind → PscEntry → Bool) (s t : State) : Prop where
  elsewhere : SameElsewhere s t
  registers : OnlyCaches s.self t.self
  gone      : Invalidated n reqTlb reqPsc s.self t.self

/-- The handler that is supplied for an exception (R320, D22). -/
def Processor.handlerOf (l : Processor) : Exception → Option Handler
  | .generalProtection => l.gpHandler
  | .pageFault _ _ _ => l.pfHandler

/-- The instruction stream after an exception: the handler's operations, then the faulting operations
`again` if the handler retries, then the rest of the stream; without a handler nothing (R321, D22; log
entry 18). -/
def Processor.handled (l : Processor) (x : Exception) (again : List Item) : List Item :=
  match l.handlerOf x with
  | none => []
  | some h => h.ops ++ ((if h.retries then again else []) ++ l.program)

/-- `t` is `s` with #GP taken by the operation `i`: it is recorded and shown, and the stream goes on at
the handler of #GP, to re-execute `i` if that retries. No control register, general register, cache entry
or byte of memory changed (R324, D12 (a)). -/
structure TookGp (i : Instr) (s t : State) : Prop where
  cfg    : t.cfg = s.cfg
  others : t.others = s.others
  mem    : t.mem = s.mem
  trace  : t.trace = .exception s.self.id .generalProtection :: s.trace
  self   : t.self = { s.self with
    exception := some .generalProtection
    program := s.self.handled .generalProtection [{ priv := s.self.mode, work := .op i }] }

/-- A processor whose registers other than the caches are unchanged, as another processor sees it: only
what it may still see of older memory changed. -/
def OnlyWindow (l l' : Processor) : Prop := l' = { l with window := l'.window }

/-- Each processor of a list differs from its counterpart in its window at most. -/
def OnlyWindows : List Processor → List Processor → Prop
  | [], [] => True
  | l :: ls, l' :: ls' => OnlyWindow l l' ∧ OnlyWindows ls ls'
  | _, _ => False

/-- Two bytes agree but for the accessed and dirty flags (bits 5 and 6 of an entry's first byte, G4). -/
def sameButFlags (a b : Byte) : Prop := a &&& 0x9F = b &&& 0x9F

/-- Two bytes agree but for the accessed flag (bit 5). -/
def sameButAccessed (a b : Byte) : Prop := a &&& 0xDF = b &&& 0xDF

/-- The walk of the paging structures in memory as they are, from the root (R193). -/
def State.memoryWalk (s : State) (la : Word) : List Hop × PathEnd :=
  s.self.ordinaryWalk s.cfg (fun _ => s.present) la .root 0

/-- The paging structures in memory give `la` a translation that permits the access (R191 (c)). -/
def State.memoryPermits (s : State) (la : Word) (k : Kind) (priv : Priv) : Prop :=
  ∃ h, (s.memoryWalk la).2 = .mapped ∧ (s.memoryWalk la).1.getLast? = some h ∧
    s.self.permits h.rights k priv = true

/-- Memory as it is alone decides the translation of `la`: no cached entry is usable for it, and no older
value of memory may still be seen by a walk of it (R193). -/
structure State.OnlyMemory (s : State) (la : Word) : Prop where
  paging : s.self.pagingMode ≠ .none
  routes : s.self.routes s.cfg la = [.root]
  window : ∀ p ∈ s.self.window, s.self.sees la p = false

/-- An access of `n` bytes at `la` that memory alone decides, that it permits through the entry `h`, and
that sets no flag: one page, every accessed flag set, the dirty flag set for a write. -/
structure State.Settled (s : State) (la : Word) (k : Kind) (priv : Priv) (n : Nat) (h : Hop) :
    Prop where
  memory    : s.OnlyMemory la
  canonical : s.self.pagingMode.canonical la = true
  mapped    : (s.memoryWalk la).2 = .mapped
  last      : (s.memoryWalk la).1.getLast? = some h
  permitted : s.self.permits h.rights k priv = true
  accessed  : ∀ x ∈ (s.memoryWalk la).1, x.view.a = true
  dirty     : k = .write → h.view.d = true
  some      : 0 < n
  onePage   : la.toNat % 4096 + n ≤ 4096

/-- The walk that a choice leads to; no entry is read with paging off or on a TLB hit (R191, R194). -/
def State.walkOf (s : State) (ch : WalkChoice) (la : Word) : Path :=
  if s.self.pagingMode = .none then { hops := [], ends := .notPresent, cap := none }
  else
    match s.locate ch la with
    | .hit _ => { hops := [], ends := .notPresent, cap := none }
    | .walked p => p

/-- The TLB entries that each type of `INVPCID` must remove (R226 to R229). -/
def Processor.typeTlb (l : Processor) (type : Nat) (p : Pcid) (la : Word) (e : TlbEntry) : Bool :=
  match type with
  | 0 => e.pcid == p && !e.glob && l.matchesTlb la e
  | 1 => e.pcid == p && !e.glob
  | 2 => true
  | _ => !e.glob

/-- The paging-structure-cache entries that each type of `INVPCID` must remove (R226 to R229). -/
def Processor.typePsc (l : Processor) (type : Nat) (p : Pcid) (la : Word) (k : CacheKind)
    (e : PscEntry) : Bool :=
  match type with
  | 0 => l.pagingMode.caches.contains k && e.pcid == p && l.tagMatches la k e
  | 1 => e.pcid == p
  | _ => true

/-- No global TLB entry of another PCID is for `la` (the limit of R243's guarantee, D21). -/
def Processor.noForeignGlobal (l : Processor) (la : Word) : Prop :=
  ∀ e ∈ l.tlb, e.glob = true → l.matchesTlb la e = true → e.pcid = l.curPcid

/-- The invariants of a logical processor. -/
structure Processor.Inv (c : Params) (l : Processor) : Prop where
  /-- "If CR4.PCIDE = 0, a logical processor does not cache information for any PCID other than 000H"
  (R33, R128): TLB entries. -/
  tlbPcid : l.pcide = false → ∀ e ∈ l.tlb, e.pcid = 0
  /-- The same for paging-structure-cache entries (R33). -/
  pscPcid : l.pcide = false → ∀ k, ∀ e ∈ l.psc.get k, e.pcid = 0
  /-- `CR4.PCIDE = 1` implies IA-32e mode and paging (R123). -/
  pcideMode : l.pcide = true → l.lma = true ∧ l.pg = true
  /-- `CR4.PCIDE = 1` only where PCIDs are supported (R122). -/
  pcideAllowed : l.pcide = true → c.pcidSupported = true
  /-- `IA32_EFER.LMA = IA32_EFER.LME and CR0.PG` (G2). -/
  lmaIs : l.lma = (l.lme && l.pg)
  /-- Nothing is cached while paging is off (R34). -/
  pagingOff : l.pg = false → l.tlb = [] ∧ l.psc = Psc.empty
  /-- A global TLB entry exists only while `CR4.PGE = 1` (R35). -/
  globals : ∀ e ∈ l.tlb, e.glob = true → l.pge = true
  /-- An entry is no larger than the translation it was cut from (R28). -/
  sizes : ∀ e ∈ l.tlb, pageBits e.shift ≤ pageBits e.xshift
  /-- A page frame has `MAXPHYADDR - e.shift` bits (R29), where a physical address is at least as wide as the
  page offset. -/
  frames : ∀ e ∈ l.tlb, pageBits e.xshift ≤ c.maxPhyAddr → e.frame < 2 ^ (c.maxPhyAddr - pageBits e.shift)
  /-- The address of the next paging structure is a physical address (R30, R61). -/
  tables : ∀ k, ∀ e ∈ l.psc.get k, e.addr < 2 ^ c.maxPhyAddr
  /-- Without HLAT support no entry was cached during HLAT paging (D10). -/
  noHlat : c.hlatSupported = false → ∀ k, ∀ e ∈ l.psc.get k, e.hlat = false

/-- The invariants of the machine: memory in its canonical form, and those of every processor. -/
structure State.Inv (s : State) : Prop where
  mem    : Memory.wf s.mem = true
  self   : s.self.Inv s.cfg
  others : ∀ l ∈ s.others, l.Inv s.cfg

end Sys2Proof.Machine
end

