-- ==== Sys2Proof/Certificates/Slice0/Obligations.lean ====
section
/-! DEFINITION. The statements for the provers. Each docstring names the rule or the log entry that the
statement rests on. -/

open Sys2Proof Sys2Proof.Machine

/-! ### Encoding and steps -/

/-- Decoding the encoding of a well-formed instruction gives it back, whatever bytes follow
(30_encoding.md R110; the forms of a memory operand are log entry 3). -/
def Obligations.DecodeEncodeAgree : Prop :=
  ∀ (i : Instr) (bs rest : List Byte), i.wf = true → encode i = some bs →
    decode (bs ++ rest) = .ok (i, rest)

/-- Words that the spec itself writes out (R112; programs P1 to P4 of 95_test_vectors.md) decode to the
instructions they stand for. -/
def Obligations.SpecWordsDecode : Prop :=
  decode [0x0F, 0x01, 0x3E] = .ok (.invlpg (.base .rsi .none), []) ∧
  decode [0x66, 0x0F, 0x38, 0x82, 0x03] = .ok (.invpcid .rax (.base .rbx .none), []) ∧
  decode [0x0F, 0x22, 0xD8] = .ok (.movToCr3 .rax, []) ∧
  decode [0x0F, 0x22, 0xE1] = .ok (.movToCr4 .rcx, []) ∧
  decode [0x0F, 0x20, 0xE0] = .ok (.movFromCr 4 .rax, []) ∧
  decode [0xF4] = .ok (.hlt, [])

/-- A step runs the operation at the head of the instruction stream, decoded if it is given by bytes, at
that place's privilege, and then what happens between operations (D2, R335; the stream is log entry
4). -/
def Obligations.StepRunsDecoded : Prop :=
  ∀ (s : State) (it : Item) (rest : List Item) (i : Instr), s.self.halted = false →
    s.self.program = it :: rest →
    (it.work = .op i ∨ ∃ bytes tail, it.work = .code bytes ∧ decode bytes = .ok (i, tail)) →
    step s = thenBetween
      (exec i { s with self := { s.self with program := rest, mode := it.priv } })

/-- Bytes that are no instruction of the table are refused (R309). -/
def Obligations.StepRefusesOtherBytes : Prop :=
  ∀ (s : State) (priv : Priv) (bytes : List Byte) (e : DecodeError) (rest : List Item),
    s.self.halted = false → s.self.program = { priv, work := .code bytes } :: rest →
    decode bytes = .error e → step s = .refused (.undecodable e)

/-- What a processor does on its own between two operations changes its caches, and of memory the
accessed flags alone (R75, R194). -/
def Obligations.UnaskedStepsKeepState : Prop :=
  ∀ s : State, Memory.wf s.mem = true →
    s.background.cfg = s.cfg ∧ OnlyCaches s.self s.background.self ∧
    OnlyWindows s.others s.background.others ∧
    ∀ a, sameButAccessed (Memory.read s.background.mem a) (Memory.read s.mem a)

/-! ### Reset and invariants -/

/-- What reset leaves (R44, R45, R350, by D13 and D14): caches empty on every logical processor, paging
and PCIDs off. -/
def Obligations.ResetLeaves : Prop :=
  ∀ l ∈ State.reset.self :: State.reset.others,
    l.tlb = [] ∧ (∀ k, l.psc.get k = []) ∧ l.pg = false ∧ l.pse = false ∧ l.pae = false ∧
    l.pge = false ∧ l.pcide = false ∧ l.smep = false ∧ l.cr3 = 0 ∧ l.lma = false ∧ l.nxe = false ∧
    l.pagingMode = .none ∧ l.curPcid = 0

/-- The invariants hold after reset (R351). -/
def Obligations.ResetInv : Prop := State.reset.Inv

/-- Every step keeps the invariants: memory stays canonical; with PCIDs off only PCID 000H is cached
(R33, R128); PCIDs are on only in IA-32e mode with paging (R123); nothing is cached while paging is off
(R34); global entries exist only with `CR4.PGE = 1` (R35); a page frame has `MAXPHYADDR - e.shift` bits (R29),
and the table of a paging-structure-cache entry has a physical address (R61). That
`IA32_EFER.LMA` follows `CR0.PG` is log entry 12, the model's choice. -/
def Obligations.StepKeepsInv : Prop :=
  ∀ s t : State, s.Inv → step s = .next t → t.Inv

/-- "If CR4.PCIDE = 0, the current PCID is always 000H; otherwise, the current PCID is the value of bits
11:0 of CR3" (R121). -/
def Obligations.CurrentPcid : Prop :=
  ∀ l : Processor, (l.cr4.getLsbD 17 = false → l.curPcid = 0) ∧
    (l.cr4.getLsbD 17 = true → l.curPcid = l.cr3.extractLsb' 0 12)

/-- Paging is off exactly with `CR0.PG = 0`, and 4-level or 5-level paging is in use exactly in IA-32e
mode with paging (R62). -/
def Obligations.PagingModeConstraints : Prop :=
  ∀ l : Processor, (l.pagingMode = .none ↔ l.pg = false) ∧
    (l.pagingMode.ia32e = true ↔ l.lma = true ∧ l.pg = true)

/-! ### Translation -/

/-- A TLB entry chosen for a translation is of the current PCID or global and has the page number of the
address (in the mode that it was made in, R247), and it alone decides the physical address and whether the
access faults, whatever memory holds (R147). -/
def Obligations.TlbHitDecides : Prop :=
  ∀ (s : State) (ch : WalkChoice) (la : Word) (k : Kind) (priv : Priv) (e : TlbEntry),
    s.self.pagingMode ≠ .none → s.locate ch la = .hit e →
    e ∈ s.self.tlb ∧ s.self.matchesTlb la e = true ∧
    (e.mode = s.self.pagingMode → pageNumber s.self.pagingMode la e.shift = e.pn) ∧
    (e.pcid = s.self.curPcid ∨ e.glob = true) ∧
    (s.translateWith ch la k priv).1 =
      (if s.self.permits { rw := e.rw, us := e.us, xd := e.xd, pkey := e.pkey } k priv then
        .ok (e.frame <<< pageBits e.shift + la.toNat % 2 ^ pageBits e.shift) e.memType
      else .pageFault)

/-- With no usable entry, and no older value of memory to be seen, every choice walks the structures in
memory from the root (R193). -/
def Obligations.NothingCachedWalksMemory : Prop :=
  ∀ (s : State) (ch : WalkChoice) (la : Word), s.cfg.hlatSupported = false → s.self.hits la = [] →
    (∀ k ∈ s.self.pagingMode.caches, ∀ e ∈ s.self.psc.get k, s.self.matchesPsc la k e = false) →
    (∀ p ∈ s.self.window, s.self.sees la p = false) →
    s.locate ch la =
      .walked { hops := (s.memoryWalk la).1, ends := (s.memoryWalk la).2, cap := none }

/-- Only entries of the current PCID are used, but for global TLB entries (R127), and paging-structure-cache
entries only with the tag of the address. -/
def Obligations.OnlyUsableEntries : Prop :=
  ∀ (l : Processor) (c : Params) (la : Word),
    (∀ e, .tlb e ∈ l.routes c la → e ∈ l.tlb ∧ (e.pcid = l.curPcid ∨ e.glob = true)) ∧
    (∀ k e, .psc k e ∈ l.routes c la →
      k ∈ l.pagingMode.caches ∧ e ∈ l.psc.get k ∧ e.pcid = l.curPcid ∧ l.tagMatches la k e = true ∧
      (e.mode = l.pagingMode → e.tag = tagOf l.pagingMode k la))

/-- A TLB entry made from a walk gives every address of its page number the physical address that the
translation itself gives, whether it is as large as the page or smaller (R65, R149). -/
def Obligations.SmallerEntrySameAddress : Prop :=
  ∀ (l : Processor) (ch : WalkChoice) (cap : Option PageSize) (la la' : Word) (h : Hop),
    h.view.addr % 2 ^ pageBits (h.pageSize l.pagingMode cap) = 0 →
    l.matchesTlb la' (l.tlbEntryOf ch cap la h) = true →
    (tlbTranslation (l.tlbEntryOf ch cap la h) la').pa = h.pa l.pagingMode cap la'

/-- On every walk that a choice leads to, the rights after an entry are no wider than those of any entry
above it and those of a paging-structure-cache entry that the walk, or its ordinary part after a restart
of HLAT paging, starts from: a clear R/W or U/S flag, or a set XD flag, of an upper entry is in everything
made below it (R141, R184). The entries of HLAT
paging before a restart and those of ordinary paging after it are taken apart (log entry 15, the model's
choice). -/
def Obligations.RightsFlowDown : Prop :=
  ∀ (s : State) (ch : WalkChoice) (la : Word),
    let hops := (s.walkOf ch la).hops
    let start := pick ch.route .root (s.self.routes s.cfg la)
    (∀ (i j : Nat) (hi : i < hops.length) (hj : j < hops.length), i ≤ j →
      hops[i].hlat = hops[j].hlat →
      (hops[j].rights.rw = true → hops[i].view.rw = true) ∧
      (hops[j].rights.us = true → hops[i].view.us = true) ∧
      (hops[i].view.xd = true → hops[j].rights.xd = true)) ∧
    (∀ k e, start = .psc k e → ∀ h ∈ hops, h.hlat = e.hlat →
      (h.rights.rw = true → e.rw = true) ∧ (h.rights.us = true → e.us = true) ∧
      (e.xd = true → h.rights.xd = true)) ∧
    ∀ k e, (start = .hlatRoot ∨ ∃ k' e', start = .psc k' e' ∧ e'.hlat = true) →
      pick ch.restartRoute .root (s.self.walkRoutes la) = .psc k e → ∀ h ∈ hops, h.hlat = false →
      (h.rights.rw = true → e.rw = true) ∧ (h.rights.us = true → e.us = true) ∧
      (e.xd = true → h.rights.xd = true)

/-- After a restart of HLAT paging the page size is the smaller of the restart's maximum and the
translation's own (R64; the maxima for a PDPTE and a PTE are the spec's derivation), and the page offset of
the physical address is that of this page size (R65, R191). -/
def Obligations.RestartPageSize : Prop :=
  restartCap .pdpte = some .g1 ∧ restartCap .pde = some .m2 ∧ restartCap .pte = some .k4 ∧
  ∀ (h : Hop) (m : PagingMode) (z : PageSize), pageBits (h.pageSize m (some z)) =
    min (pageBits z) (pageBits (nativeSize m h.level)) ∧
    ∀ la, h.pa m (some z) la = h.view.addr +
      la.toNat % 2 ^ min (pageBits z) (pageBits (nativeSize m h.level))

/-- A PML4 entry that holds the address of its own table serves at every level: page 0 translates to
the table itself (R198; the layout of an entry is log entry 10). -/
def Obligations.SelfReference : Prop :=
  ∀ (s : State) (la raw : Word) (x : Nat), s.self.pagingMode = .l4 → la.toNat % 2 ^ 48 < 4096 →
    s.self.root s.cfg = x → Memory.readValue s.mem x 8 = raw →
    raw.getLsbD 0 = true → raw.getLsbD 7 = false → slice raw 51 s.cfg.maxPhyAddr = 0 →
    (s.self.nxe = true ∨ raw.getLsbD 63 = false) →
    (slice raw (s.cfg.maxPhyAddr - 1) 12) <<< 12 = x →
    (s.memoryWalk la).2 = .mapped ∧ (s.memoryWalk la).1.map Hop.level = PagingMode.l4.levels ∧
      (∀ h ∈ (s.memoryWalk la).1, h.view.addr = x) ∧
      ∀ h, (s.memoryWalk la).1.getLast? = some h → h.pa .l4 none la = x + la.toNat % 4096

/-! ### Fill and eviction -/

/-- A fill completes in every state, with its choices free; it changes the caches, and of memory the
accessed flags of the entries on its walk alone (R194). -/
def Obligations.FillFrame : Prop :=
  ∀ (la : Word) (s : State), Memory.wf s.mem = true → ∃ t, exec (.fill la) s = .next t ∧
    t = s.tick.fillWith (Config.walkChoice s.draws) la ∧ t.cfg = s.cfg ∧ t.trace = s.trace ∧
    OnlyCaches s.self t.self ∧ OnlyWindows s.others t.others ∧
    (∀ a, sameButAccessed (Memory.read t.mem a) (Memory.read s.mem a)) ∧
    ∀ a, (∀ h ∈ (s.walkOf (Config.walkChoice s.draws) la).hops, h.place ≠ some a) →
      Memory.read t.mem a = Memory.read s.mem a

/-- A TLB entry that a fill makes, whatever its choices, comes from the entry that ends its walk, present
and with no reserved bit set, under the current PCID; it is global exactly where R151 says (R126, R141,
R144, R151). -/
def Obligations.FillNewTlb : Prop :=
  ∀ (la : Word) (s : State) (ch : WalkChoice) (e : TlbEntry), e ∈ (s.fillWith ch la).self.tlb →
    e ∉ s.self.tlb →
    ∃ h ∈ (s.walkOf ch la).hops,
      h.view.maps = true ∧ h.view.p = true ∧ h.view.rsvdOk = true ∧ e.pcid = s.self.curPcid ∧
      e.xshift = h.pageSize s.self.pagingMode (s.walkOf ch la).cap ∧ e.pkey = h.rights.pkey ∧
      e.glob = (s.self.pge && h.view.g) ∧ e.rw = h.rights.rw ∧ e.us = h.rights.us ∧
      e.xd = h.rights.xd ∧ e.dirty = h.view.d ∧ e.memType = h.view.memType ∧
      pageBits e.shift ≤ pageBits e.xshift ∧ e.pn = pageNumber s.self.pagingMode la e.shift ∧
      e.frame = h.pa s.self.pagingMode (s.walkOf ch la).cap la >>> pageBits e.shift ∧
      e.mode = s.self.pagingMode

/-- A paging-structure-cache entry that a fill makes, whatever its choices, comes from a present entry of
its level with the PS flag clear, and holds that entry's address and the rights down to it, the kind of
paging and, with HLAT paging, its restart flag (R126, R172 to R180, R31). -/
def Obligations.FillNewPsc : Prop :=
  ∀ (la : Word) (s : State) (ch : WalkChoice) (k : CacheKind) (e : PscEntry),
    e ∈ (s.fillWith ch la).self.psc.get k → e ∉ s.self.psc.get k →
    k ∈ s.self.pagingMode.caches ∧
    ∃ h ∈ (s.walkOf ch la).hops,
      h.level = cacheLevel k ∧ h.view.p = true ∧ h.view.rsvdOk = true ∧ h.view.ps = false ∧
      e.pcid = s.self.curPcid ∧ e.tag = tagOf s.self.pagingMode k la ∧ e.addr = h.view.addr ∧
      e.rw = h.rights.rw ∧ e.us = h.rights.us ∧ e.xd = h.rights.xd ∧ e.pcd = h.view.pcd ∧
      e.pwt = h.view.pwt ∧ e.hlat = h.hlat ∧ e.restart = (h.hlat && h.view.restart) ∧
      e.mode = s.self.pagingMode

/-- When a fill has made a TLB entry, whatever its choices, every accessed flag on its walk is set in memory
(R145); when it has made a paging-structure-cache entry, the accessed flags of the entry cached and of
those above it on the walk are (R181). No older value of memory may be seen by the walk. -/
def Obligations.AccessedBeforeCached : Prop :=
  ∀ (la : Word) (s : State) (ch : WalkChoice), Memory.wf s.mem = true →
    (∀ p ∈ s.self.window, s.self.sees la p = false) →
    let hops := (s.walkOf ch la).hops
    let t := s.fillWith ch la
    (∀ e ∈ t.self.tlb, e ∉ s.self.tlb →
      ∀ h ∈ hops, ∀ a, h.place = some a → (Memory.read t.mem a).getLsbD 5 = true) ∧
    ∀ k, ∀ e ∈ t.self.psc.get k, e ∉ s.self.psc.get k →
      ∃ (j : Nat) (hj : j < hops.length), hops[j].level = cacheLevel k ∧
        e = s.self.pscEntryOf k la hops[j] ∧
        ∀ (i : Nat) (hi : i < hops.length), i ≤ j → ∀ a, hops[i].place = some a →
          (Memory.read t.mem a).getLsbD 5 = true

/-- An eviction takes away exactly the subset it names, and nothing else changes (R143, R190). -/
def Obligations.EvictRemovesSubset : Prop :=
  ∀ (e : Eviction) (s : State), ∃ t, exec (.evict e) s = .next t ∧
    (∀ x, x ∈ t.self.tlb ↔ x ∈ s.self.tlb ∧ x ∉ e.tlb) ∧
    (∀ x, x ∈ t.self.psc.pml5e ↔ x ∈ s.self.psc.pml5e ∧ x ∉ e.pml5e) ∧
    (∀ x, x ∈ t.self.psc.pml4e ↔ x ∈ s.self.psc.pml4e ∧ x ∉ e.pml4e) ∧
    (∀ x, x ∈ t.self.psc.pdpte ↔ x ∈ s.self.psc.pdpte ∧ x ∉ e.pdpte) ∧
    (∀ x, x ∈ t.self.psc.pde ↔ x ∈ s.self.psc.pde ∧ x ∉ e.pde) ∧
    t = { s with self := { s.self with tlb := t.self.tlb, psc := t.self.psc } }

/-! ### Accesses -/

/-- With paging off the linear address is the physical one, or stands for one if it has more bits (log entries 13
and 38, the model's choices): a read or a fetch shows the bytes there and changes nothing else, a write stores its
bytes. -/
def Obligations.AccessPagingOff : Prop :=
  ∀ (la : Word) (req : Request) (priv : Priv) (s : State), s.self.pagingMode = .none →
    Memory.wf s.mem = true → 0 < requestSize req → requestSize req ≤ 8 →
    la.toNat % 4096 + requestSize req ≤ 4096 →
    let pa := physicalAddress s.cfg (la.toNat % 2 ^ 32)
    (la.toNat % 2 ^ 32 < 2 ^ s.cfg.maxPhyAddr → pa = la.toNat % 2 ^ 32) ∧
    ∃ t, exec (.access la req priv) s = .next t ∧ t.cfg = s.cfg ∧
      (∀ bs, req = .write bs →
        (∀ (i : Nat) (hi : i < bs.length), Memory.read t.mem (pa + i) = bs[i]) ∧
        (∀ a, a < pa ∨ pa + bs.length ≤ a → Memory.read t.mem a = Memory.read s.mem a) ∧
        t.self = s.self.pushWindow s.mem ∧ OnlyWindows s.others t.others ∧
        t.trace = .access s.self.id pa .write bs 0 :: s.trace) ∧
      (requestKind req ≠ .write → t.mem = s.mem ∧ t.self = s.self ∧ t.others = s.others ∧
        .access s.self.id pa (requestKind req) (Memory.readBytes s.mem pa (requestSize req)) 0 ∈ t.trace)

/-- A read or a fetch that memory alone decides and permits completes: it shows the bytes at the
physical address, and changes no register and no byte of memory (R191, R307). -/
def Obligations.AccessReads : Prop :=
  ∀ (la : Word) (req : Request) (priv : Priv) (s : State) (h : Hop), requestKind req ≠ .write →
    requestSize req ≤ 8 → s.Settled la (requestKind req) priv (requestSize req) h →
    ∃ t, exec (.access la req priv) s = .next t ∧ t.cfg = s.cfg ∧ t.mem = s.mem ∧
      t.others = s.others ∧ OnlyCaches s.self t.self ∧
      ∃ more, t.trace = more ++ .access s.self.id (h.pa s.self.pagingMode none la) (requestKind req)
        (Memory.readBytes s.mem (h.pa s.self.pagingMode none la) (requestSize req)) h.view.memType ::
          s.trace

/-- A write that memory alone decides and permits completes: its bytes are stored at the physical
address, and no other byte of memory and no register changes (R191, R307). -/
def Obligations.AccessWrites : Prop :=
  ∀ (la : Word) (bs : List Byte) (priv : Priv) (s : State) (h : Hop), bs.length ≤ 8 →
    Memory.wf s.mem = true → s.Settled la .write priv bs.length h →
    let pa := h.pa s.self.pagingMode none la
    ∃ t, exec (.access la (.write bs) priv) s = .next t ∧ t.cfg = s.cfg ∧
      (∀ (i : Nat) (hi : i < bs.length), Memory.read t.mem (pa + i) = bs[i]) ∧
      (∀ a, a < pa ∨ pa + bs.length ≤ a → Memory.read t.mem a = Memory.read s.mem a) ∧
      OnlyCaches s.self t.self ∧ OnlyWindows s.others t.others ∧
      t.trace = .access s.self.id pa .write bs h.view.memType :: s.trace

/-- An access that memory alone decides, and gives no translation or forbids, page-faults: nothing is
read or written but accessed flags of the entries on its walk, the fault is recorded, the entries for the
address are gone, and the stream goes on at the handler of #PF, to re-execute the access if that retries
(R191, R321, R322, R242; delivery is log entry 18). -/
def Obligations.AccessFaults : Prop :=
  ∀ (la : Word) (req : Request) (priv : Priv) (s : State), Memory.wf s.mem = true →
    s.OnlyMemory la → s.self.pagingMode.canonical la = true → 0 < requestSize req →
    requestSize req ≤ 8 → la.toNat % 4096 + requestSize req ≤ 4096 →
    ((s.memoryWalk la).2 = .notPresent ∨
      ∃ h, (s.memoryWalk la).2 = .mapped ∧ (s.memoryWalk la).1.getLast? = some h ∧
        s.self.permits h.rights (requestKind req) priv = false) →
    ∃ t, exec (.access la req priv) s = .next t ∧
      t.self.exception = some (.pageFault la (requestKind req) priv) ∧
      t.trace = .exception s.self.id (.pageFault la (requestKind req) priv) :: s.trace ∧
      (∀ a, sameButAccessed (Memory.read t.mem a) (Memory.read s.mem a)) ∧
      (∀ a, (∀ h ∈ (s.memoryWalk la).1, h.place ≠ some a) →
        Memory.read t.mem a = Memory.read s.mem a) ∧
      (∀ e ∈ t.self.tlb, s.self.faultTlb la e = false) ∧
      (∀ k, ∀ e ∈ t.self.psc.get k, s.self.pscFor s.self.curPcid la k e = false) ∧
      t.self.program = s.self.handled (.pageFault la (requestKind req) priv)
        [{ priv := s.self.mode, work := .op (.access la req priv) }] ∧
      t.self.regs = s.self.regs ∧ t.self.cr0 = s.self.cr0 ∧ t.self.cr3 = s.self.cr3 ∧
      t.self.cr4 = s.self.cr4 ∧ t.self.efer = s.self.efer

/-- One access of at most a quadword that faults reads and writes no byte, on whichever of its pages it
faults: only flags of paging-structure entries and caches may have changed (R321). -/
def Obligations.FaultingAccessDoesNothing : Prop :=
  ∀ (s t : State) (la a : Word) (req : Request) (priv : Priv), Memory.wf s.mem = true →
    s.accessOnce la req priv = .pageFault a t →
    t.cfg = s.cfg ∧ t.trace = s.trace ∧ OnlyCaches s.self t.self ∧ OnlyWindows s.others t.others ∧
    ∀ b, sameButFlags (Memory.read t.mem b) (Memory.read s.mem b)

/-- "No store to memory, by any logical processor, is an invalidating operation" (R72): after a write
that is done every paging-structure-cache entry is still there, and every TLB entry but for its dirty
flag, on every logical processor. -/
def Obligations.StoresInvalidateNothing : Prop :=
  ∀ (s t : State) (la : Word) (bs bytes : List Byte) (priv : Priv),
    s.accessOnce la (.write bs) priv = .done bytes t →
    (∀ e ∈ s.self.tlb, ∃ e' ∈ t.self.tlb, e' = { e with dirty := e'.dirty }) ∧
    (∀ k, ∀ e ∈ s.self.psc.get k, e ∈ t.self.psc.get k) ∧ OnlyWindows s.others t.others

/-! ### Faults and recovery -/

/-- "These invalidations ensure that the page-fault exception will not recur" if memory permits the
access (R243), within the limits that R243 states: right after a page fault on `la` every choice of a
translation of `la` goes through memory. No global entry of another PCID is for `la`. That a page fault
ends the view of older memory, for the faulting address, is log entry 19, the model's choice. -/
def Obligations.NoSecondSpuriousFault : Prop :=
  ∀ (s t : State) (la : Word) (k k' : Kind) (priv priv' : Priv) (ch : WalkChoice), s.Inv →
    s.cfg.hlatSupported = false → s.self.pagingMode ≠ .none → s.self.noForeignGlobal la →
    exec (.pageFault la k priv) s = .next t → t.memoryPermits la k' priv' →
    ∃ pa mt, (t.translateWith ch la k' priv').1 = .ok pa mt

/-- A page fault's required sets are gone, the fault is recorded and shown, the stream goes on at the
handler of #PF, and nothing outside the executing processor changed (R242, R321). `CR2` is log entry 11,
delivery log entry 18. -/
def Obligations.PageFaultResult : Prop :=
  ∀ (la : Word) (k : Kind) (priv : Priv) (s : State), ∃ t, exec (.pageFault la k priv) s = .next t ∧
    Invalidated s.draws
      (fun e => e.pcid == s.self.curPcid && s.self.onPage la e)
      (fun c e => s.self.pagingMode.caches.contains c && e.pcid == s.self.curPcid &&
        s.self.tagMatches la c e) s.self t.self ∧
    t.self = { s.self with
      cr2 := la, tlb := t.self.tlb, psc := t.self.psc, window := t.self.window
      exception := some (.pageFault la k priv)
      program := s.self.handled (.pageFault la k priv) [] } ∧
    t.cfg = s.cfg ∧ t.others = s.others ∧ t.mem = s.mem ∧
    t.trace = .exception s.self.id (.pageFault la k priv) :: s.trace

/-- #GP goes to the handler of #GP and #PF to the handler of #PF (`Processor.handled`: without one the
stream ends), and an operation either leaves the stream alone or takes one exception, which is recorded
and shown; the operation that may be re-executed is then the faulting one (R321, R324, D22; log entry 18,
the model's choice). The page-fault event itself is given no operation to re-execute. -/
def Obligations.ExceptionGoesToHandler : Prop :=
  (∀ (s : State) (i : Instr), (s.raiseGp i).self.program =
    s.self.handled .generalProtection [{ priv := s.self.mode, work := .op i }]) ∧
  (∀ (s : State) (la : Word) (k : Kind) (priv : Priv) (again : List Item),
    (s.raisePf la k priv again).self.program = s.self.handled (.pageFault la k priv) again) ∧
  ∀ (i : Instr) (s t : State), exec i s = .next t →
    (t.self.program = s.self.program ∧ t.self.exception = s.self.exception) ∨
    ∃ (x : Exception) (again : List Item), t.self.exception = some x ∧
      t.trace.head? = some (.exception s.self.id x) ∧ t.self.program = s.self.handled x again ∧
      ((∃ la k priv, i = .pageFault la k priv) → again = []) ∧
      ((∀ la k priv, i ≠ .pageFault la k priv) → again = [{ priv := s.self.mode, work := .op i }])

/-- Outside supervisor mode the system instructions raise #GP and do nothing else (R308, R331; general
knowledge in the spec, log entry 20). -/
def Obligations.UserModeRaisesGp : Prop :=
  ∀ (i : Instr) (s : State), s.self.mode = .user →
    ((∃ m, i = .invlpg m) ∨ (∃ r m, i = .invpcid r m) ∨ (∃ p la, i = .invpcidAddress p la) ∨
      (∃ p, i = .invpcidContext p) ∨ i = .invpcidAllGlobals ∨ i = .invpcidAll ∨
      (∃ r, i = .movToCr0 r) ∨ (∃ r, i = .movToCr3 r) ∨ (∃ r, i = .movToCr4 r) ∨
      (∃ n r, i = .movFromCr n r) ∨ i = .hlt) →
    ∃ t, exec i s = .next t ∧ TookGp i s t

/-! ### INVLPG and INVPCID -/

/-- `INVLPG` removes the TLB entries of the current PCID, and the global ones, on the page of its
operand, and every paging-structure-cache entry of the current PCID; it serializes, and nothing else
changes (R221 to R224, R244). The first free value drawn is the instruction pointer that an operand may be
relative to, the second names the extra entries. -/
def Obligations.InvlpgResult : Prop :=
  ∀ (m : MemOperand) (s : State), s.self.mode = .supervisor → s.self.pagingMode ≠ .none →
    let la := s.self.linearAddress (Config.instructionPointer s.draws) m
    s.self.pagingMode.canonical la = true →
    ∃ t, exec (.invlpg m) s = .next t ∧ t.self.window = [] ∧
      OnlyInvalidated (s.draws + 1) (fun e => s.self.onPage la e && (e.pcid == s.self.curPcid || e.glob))
        (fun _ e => e.pcid == s.self.curPcid) s t

/-- After `INVLPG` every choice of a translation of its operand walks the structures in memory, as they
are (R193, R221 to R224, R74). -/
def Obligations.InvlpgThenMemory : Prop :=
  ∀ (m : MemOperand) (s t : State) (ch : WalkChoice), s.Inv → s.cfg.hlatSupported = false →
    s.self.mode = .supervisor → s.self.pagingMode ≠ .none →
    let la := s.self.linearAddress (Config.instructionPointer s.draws) m
    s.self.pagingMode.canonical la = true → exec (.invlpg m) s = .next t →
    t.mem = s.mem ∧ t.locate ch la =
      .walked { hops := (t.memoryWalk la).1, ends := (t.memoryWalk la).2, cap := none }

/-- In the cases of R246, on which the spec is silent, `INVLPG` and the `INVPCID` types raise #GP or
invalidate as free choices say; nothing else changes (log entry 14, the model's choice). `INVPCID` of a type up to
3 and every access go on too, whatever address they form (R191, R320; log entry 38, the model's choice). -/
def Obligations.UnusualOperands : Prop :=
  (∀ (i : Instr) (s : State), s.self.mode = .supervisor →
    ((∃ m, i = .invlpg m) ∨ (∃ p la, i = .invpcidAddress p la) ∨ (∃ p, i = .invpcidContext p) ∨
      i = .invpcidAllGlobals ∨ i = .invpcidAll) →
    ∃ t, exec i s = .next t ∧
      (TookGp i s t ∨ ∃ n reqTlb reqPsc, OnlyInvalidated n reqTlb reqPsc s t)) ∧
  (∀ (r : Reg) (m : MemOperand) (s : State), s.self.mode = .supervisor → (s.self.source r).toNat ≤ 3 →
    ∃ t, exec (.invpcid r m) s = .next t) ∧
  ∀ (la : Word) (req : Request) (priv : Priv) (s : State), ∃ t, exec (.access la req priv) s = .next t

/-- `INVPCID` type 0 (R226). -/
def Obligations.InvpcidAddressResult : Prop :=
  ∀ (p : Pcid) (la : Word) (s : State), s.self.mode = .supervisor → s.self.pagingMode ≠ .none →
    s.self.pagingMode.canonical la = true → (s.self.pcide = true ∨ p = 0) →
    ∃ t, exec (.invpcidAddress p la) s = .next t ∧ t.self.window = [] ∧
      OnlyInvalidated s.draws (fun e => e.pcid == p && !e.glob && s.self.matchesTlb la e)
        (fun k e => s.self.pagingMode.caches.contains k && e.pcid == p &&
          s.self.tagMatches la k e) s t

/-- `INVPCID` type 1 (R227). -/
def Obligations.InvpcidContextResult : Prop :=
  ∀ (p : Pcid) (s : State), s.self.mode = .supervisor → s.self.pagingMode ≠ .none →
    (s.self.pcide = true ∨ p = 0) →
    ∃ t, exec (.invpcidContext p) s = .next t ∧ t.self.window = [] ∧
      OnlyInvalidated s.draws (fun e => e.pcid == p && !e.glob) (fun _ e => e.pcid == p) s t

/-- `INVPCID` type 2 leaves every cache empty (R228). -/
def Obligations.InvpcidAllGlobalsResult : Prop :=
  ∀ s : State, s.self.mode = .supervisor → s.self.pagingMode ≠ .none →
    ∃ t, exec .invpcidAllGlobals s = .next t ∧
      t.self = { s.self with tlb := [], psc := Psc.empty, window := [] } ∧
      t.cfg = s.cfg ∧ t.others = s.others ∧ t.mem = s.mem ∧ t.trace = s.trace

/-- `INVPCID` type 3 leaves only global TLB entries (R229). -/
def Obligations.InvpcidAllResult : Prop :=
  ∀ s : State, s.self.mode = .supervisor → s.self.pagingMode ≠ .none →
    ∃ t, exec .invpcidAll s = .next t ∧ t.self.window = [] ∧ t.self.psc = Psc.empty ∧
      OnlyInvalidated s.draws (fun e => !e.glob) (fun _ _ => true) s t

/-- `INVPCID r, m128` with a type up to 3 does that type's work with the PCID and the linear address of
the descriptor in memory (R225; the descriptor's layout is G7, log entry 29). The descriptor's read is one that memory
alone decides; its reserved bits are 0 and no case of R246 applies. -/
def Obligations.InvpcidResult : Prop :=
  ∀ (r : Reg) (m : MemOperand) (s : State) (h : Hop), s.self.mode = .supervisor →
    let type := (s.self.source r).toNat
    let at_ := s.self.linearAddress (Config.instructionPointer s.draws) m
    let desc := Memory.readBytes s.mem (h.pa s.self.pagingMode none at_) 16
    type ≤ 3 → s.Settled at_ .read .supervisor 16 h → descReserved desc = false →
    (type = 0 → s.self.pagingMode.canonical (descLa desc) = true) →
    (type ≤ 1 → s.self.pcide = true ∨ descPcid desc = 0) →
    ∃ t, exec (.invpcid r m) s = .next t ∧ t.cfg = s.cfg ∧ t.mem = s.mem ∧ t.others = s.others ∧
      t.self.window = [] ∧ OnlyCaches s.self t.self ∧
      (∀ e ∈ t.self.tlb, s.self.typeTlb type (descPcid desc) (descLa desc) e = false) ∧
      ∀ k, ∀ e ∈ t.self.psc.get k, s.self.typePsc type (descPcid desc) (descLa desc) k e = false

/-- `INVPCID` with a type above 3 is refused: "A model refuses such an operation" (R108). -/
def Obligations.InvpcidTypeRefused : Prop :=
  ∀ (r : Reg) (m : MemOperand) (s : State), s.self.mode = .supervisor →
    3 < (s.self.source r).toNat →
    exec (.invpcid r m) s = .refused (.invpcidTypeNotDefined (s.self.source r))

/-- `INVPCID` whose descriptor lies on one page that memory gives no translation page-faults on the
descriptor's address: nothing but accessed flags on its walk changes in memory, and the stream goes on at
the handler of #PF, to re-execute the `INVPCID` if that retries (R225, R321; the descriptor's read is G7,
log entry 29, delivery log entry 18). -/
def Obligations.InvpcidDescriptorFaults : Prop :=
  ∀ (r : Reg) (m : MemOperand) (s : State), Memory.wf s.mem = true → s.self.mode = .supervisor →
    (s.self.source r).toNat ≤ 3 →
    let at_ := s.self.linearAddress (Config.instructionPointer s.draws) m
    s.OnlyMemory at_ → s.self.pagingMode.canonical at_ = true → at_.toNat % 4096 + 16 ≤ 4096 →
    (s.memoryWalk at_).2 = .notPresent →
    ∃ t, exec (.invpcid r m) s = .next t ∧
      t.self.exception = some (.pageFault at_ .read .supervisor) ∧
      t.self.program = s.self.handled (.pageFault at_ .read .supervisor)
        [{ priv := .supervisor, work := .op (.invpcid r m) }] ∧
      t.trace = .exception s.self.id (.pageFault at_ .read .supervisor) :: s.trace ∧
      (∀ a, sameButAccessed (Memory.read t.mem a) (Memory.read s.mem a)) ∧
      ∀ a, (∀ h ∈ (s.memoryWalk at_).1, h.place ≠ some a) →
        Memory.read t.mem a = Memory.read s.mem a

/-! ### Control registers -/

/-- `MOV to CR0` that passes the check of R125 writes the whole register; it must empty every cache if it
clears `CR0.PG` and nothing otherwise; it serializes (R230, R244). -/
def Obligations.MovToCr0Result : Prop :=
  ∀ (r : Reg) (s : State), s.self.mode = .supervisor → s.self.cr0Refused (s.self.source r) = false →
    ∃ t, exec (.movToCr0 r) s = .next t ∧ SameElsewhere s t ∧
      Invalidated s.draws (fun _ => s.self.pg && !cr0Pg (s.self.source r))
        (fun _ _ => s.self.pg && !cr0Pg (s.self.source r)) s.self t.self ∧
      t.self = { s.self with
        cr0 := s.self.source r, efer := t.self.efer, tlb := t.self.tlb, psc := t.self.psc
        window := [] }

/-- `IA32_EFER.LMA` follows `IA32_EFER.LME` and `CR0.PG` at a write of CR0, and no other bit of IA32_EFER
changes (G2, log entry 12: the model's choice). -/
def Obligations.LmaFollowsPaging : Prop :=
  ∀ (r : Reg) (s t : State), s.self.mode = .supervisor →
    s.self.cr0Refused (s.self.source r) = false → exec (.movToCr0 r) s = .next t →
    t.self.lma = (s.self.lme && cr0Pg (s.self.source r)) ∧
    ∀ i, i ≠ 10 → t.self.efer.getLsbD i = s.self.efer.getLsbD i

/-- "MOV to CR0 causes a general-protection exception if it would clear CR0.PG to 0 while CR4.PCIDE = 1"
(R125), and nothing else changes. -/
def Obligations.MovToCr0Gp : Prop :=
  ∀ (r : Reg) (s : State), s.self.pg = true → cr0Pg (s.self.source r) = false →
    s.self.cr4.getLsbD 17 = true →
    ∃ t, exec (.movToCr0 r) s = .next t ∧ TookGp (.movToCr0 r) s t

/-- `MOV to CR3` with `CR4.PCIDE = 0` removes every entry of PCID 000H but global TLB entries, and loads
bits 51:0 of its source (R231, R234). -/
def Obligations.MovToCr3WithoutPcids : Prop :=
  ∀ (r : Reg) (s : State), s.self.mode = .supervisor → s.self.cr4.getLsbD 17 = false →
    ∃ t, exec (.movToCr3 r) s = .next t ∧ SameElsewhere s t ∧
      Invalidated s.draws (fun e => e.pcid == 0 && !e.glob) (fun _ e => e.pcid == 0) s.self t.self ∧
      t.self.cr3.extractLsb' 0 52 = (s.self.source r).extractLsb' 0 52 ∧
      t.self = { s.self with
        cr3 := t.self.cr3, pdptrs := t.self.pdptrs, tlb := t.self.tlb, psc := t.self.psc
        window := [] }

/-- `MOV to CR3` with `CR4.PCIDE = 1` and bit 63 of its source 0 removes every entry of the PCID it
establishes but global TLB entries (R232, R234). -/
def Obligations.MovToCr3Establishes : Prop :=
  ∀ (r : Reg) (s : State), s.self.mode = .supervisor → s.self.cr4.getLsbD 17 = true →
    (s.self.source r).getLsbD 63 = false →
    ∃ t, exec (.movToCr3 r) s = .next t ∧ SameElsewhere s t ∧
      t.self.curPcid = (s.self.source r).extractLsb' 0 12 ∧
      Invalidated s.draws (fun e => e.pcid == (s.self.source r).extractLsb' 0 12 && !e.glob)
        (fun _ e => e.pcid == (s.self.source r).extractLsb' 0 12) s.self t.self ∧
      t.self.cr3.extractLsb' 0 52 = (s.self.source r).extractLsb' 0 52 ∧
      t.self = { s.self with
        cr3 := t.self.cr3, pdptrs := t.self.pdptrs, tlb := t.self.tlb, psc := t.self.psc
        window := [] }

/-- `MOV to CR3` with `CR4.PCIDE = 1` and bit 63 of its source 1 must remove nothing; it makes the PCID
in its source current, and bit 63 is not stored (R233, R234; CR3's own bit 63 is log
entry 32). -/
def Obligations.MovToCr3WithoutFlush : Prop :=
  ∀ (r : Reg) (s : State), s.self.mode = .supervisor → s.self.cr4.getLsbD 17 = true →
    (s.self.source r).getLsbD 63 = true →
    ∃ t, exec (.movToCr3 r) s = .next t ∧ SameElsewhere s t ∧
      t.self.curPcid = (s.self.source r).extractLsb' 0 12 ∧
      Invalidated s.draws (fun _ => false) (fun _ _ => false) s.self t.self ∧
      t.self.cr3.extractLsb' 0 52 = (s.self.source r).extractLsb' 0 52 ∧
      t.self.cr3.getLsbD 63 = s.self.cr3.getLsbD 63 ∧
      t.self = { s.self with
        cr3 := t.self.cr3, pdptrs := t.self.pdptrs, tlb := t.self.tlb, psc := t.self.psc
        window := [] }

/-- With PAE paging a load of CR3, by `MOV to CR3` or by a task switch that changes it, loads the PDPTE
registers from the table it addresses; otherwise they keep their values (R25, R234; the table's place and
format are log entry 10, the task switch log entry 31). -/
def Obligations.Cr3LoadsPdptes : Prop :=
  ∀ (s t : State),
    let loaded : Pdptrs :=
      { p0 := pdpteAt s.cfg s.mem t.self.cr3 0, p1 := pdpteAt s.cfg s.mem t.self.cr3 1
        p2 := pdpteAt s.cfg s.mem t.self.cr3 2, p3 := pdpteAt s.cfg s.mem t.self.cr3 3 }
    (∀ r, s.self.mode = .supervisor → exec (.movToCr3 r) s = .next t →
      t.self.pdptrs = if s.self.pagingMode = .pae then loaded else s.self.pdptrs) ∧
    ∀ v, exec (.taskSwitch v) s = .next t →
      t.self.pdptrs = if s.self.pagingMode = .pae ∧ v ≠ s.self.cr3 then loaded else s.self.pdptrs

/-- `MOV to CR4` that changes `CR4.PGE`, or clears `CR4.PCIDE`, empties every cache (R235, R237). -/
def Obligations.MovToCr4FlushesAll : Prop :=
  ∀ (r : Reg) (s : State), s.self.mode = .supervisor →
    s.self.cr4Refused s.cfg (s.self.source r) = false →
    ((s.self.source r).getLsbD 7 ≠ s.self.cr4.getLsbD 7 ∨
      (s.self.cr4.getLsbD 17 = true ∧ (s.self.source r).getLsbD 17 = false)) →
    ∃ t, exec (.movToCr4 r) s = .next t ∧ SameElsewhere s t ∧
      t.self = { s.self with cr4 := s.self.source r, tlb := [], psc := Psc.empty, window := [] }

/-- `MOV to CR4` that flushes not everything, and changes `CR4.PAE` or sets `CR4.SMEP`, removes every
entry of the current PCID, global or not; any other must remove nothing (R236, R237, D18). Entries are not
re-interpreted where it changes between 4-level and 5-level paging (R247): one that is left is for the same
canonical addresses of 4-level paging as before, and one made in 4-level paging for no other (log entry 37,
which deduces it from R247's "must not assume"). -/
def Obligations.MovToCr4Otherwise : Prop :=
  ∀ (r : Reg) (s : State), s.self.mode = .supervisor →
    s.self.cr4Refused s.cfg (s.self.source r) = false →
    (s.self.source r).getLsbD 7 = s.self.cr4.getLsbD 7 →
    ¬(s.self.cr4.getLsbD 17 = true ∧ (s.self.source r).getLsbD 17 = false) →
    let flush := cr4Pae (s.self.source r) != s.self.pae ||
      (!s.self.smep && cr4Smep (s.self.source r))
    ∃ t, exec (.movToCr4 r) s = .next t ∧ SameElsewhere s t ∧
      Invalidated s.draws (fun e => flush && e.pcid == s.self.curPcid)
        (fun _ e => flush && e.pcid == s.self.curPcid) s.self t.self ∧
      t.self = { s.self with
        cr4 := s.self.source r, tlb := t.self.tlb, psc := t.self.psc, window := [] } ∧
      (s.self.pagingMode.ia32e = true → t.self.pagingMode.ia32e = true →
        (∀ la, PagingMode.l4.canonical la = true →
          (∀ e, t.self.matchesTlb la e = s.self.matchesTlb la e) ∧
          ∀ k e, t.self.tagMatches la k e = s.self.tagMatches la k e) ∧
        ∀ la, t.self.pagingMode.canonical la = true → PagingMode.l4.canonical la = false →
          (∀ e, e.mode = .l4 → t.self.matchesTlb la e = false) ∧
          ∀ k e, e.mode = .l4 → t.self.tagMatches la k e = false)

/-- "MOV to CR4 causes a general-protection exception (#GP) if it would change CR4.PCIDE from 0 to 1 and
either IA32_EFER.LMA = 0 or CR3[11:0] ≠ 000H" (R124), and nothing else changes. -/
def Obligations.MovToCr4Gp : Prop :=
  ∀ (r : Reg) (s : State), s.self.cr4.getLsbD 17 = false → (s.self.source r).getLsbD 17 = true →
    (s.self.lma = false ∨ s.self.cr3.extractLsb' 0 12 ≠ 0) →
    ∃ t, exec (.movToCr4 r) s = .next t ∧ TookGp (.movToCr4 r) s t

/-- On a processor without PCIDs a `MOV to CR4` that would set `CR4.PCIDE` raises #GP (R109, D4). -/
def Obligations.MovToCr4Unsupported : Prop :=
  ∀ (r : Reg) (s : State), s.cfg.pcidSupported = false → (s.self.source r).getLsbD 17 = true →
    ∃ t, exec (.movToCr4 r) s = .next t ∧ TookGp (.movToCr4 r) s t

/-- A move from a control register of the spec writes it, at the operand width, to the general register,
and nothing else; a number that names none is refused (R110; log entry 22). -/
def Obligations.MovFromCrResult : Prop :=
  ∀ (n : BitVec 3) (r : Reg) (s : State), s.self.mode = .supervisor →
    exec (.movFromCr n r) s =
      if n = 0 then .next { s with self := { s.self with
        regs := s.self.regs.set r (s.self.atOperandWidth s.self.cr0) } }
      else if n = 2 then .next { s with self := { s.self with
        regs := s.self.regs.set r (s.self.atOperandWidth s.self.cr2) } }
      else if n = 3 then .next { s with self := { s.self with
        regs := s.self.regs.set r (s.self.atOperandWidth s.self.cr3) } }
      else if n = 4 then .next { s with self := { s.self with
        regs := s.self.regs.set r (s.self.atOperandWidth s.self.cr4) } }
      else .refused (.noSuchControlRegister n)

/-! ### HLT, task switch and VMX transition -/

/-- "`HLT` stops the instruction stream of the logical processor that executes it" (R336): nothing else
changes, and a halted processor's next step fetches nothing (its resuming is log entry 28, the model's
choice). -/
def Obligations.HltStops : Prop :=
  ∀ s : State,
    (s.self.mode = .supervisor →
      exec .hlt s = .next { s with self := { s.self with halted := true } }) ∧
    (s.self.halted = true → ∃ w : Bool, step s = .next
      (State.between { s with self := { s.self with halted := w }, draws := s.draws + 1 }))

/-- A task switch that changes CR3 removes every entry of PCID 000H but global TLB entries and loads CR3;
one that does not must remove nothing; in IA-32e mode there is none (R238; the refusal is
log entry 31, the model's choice). -/
def Obligations.TaskSwitchResult : Prop :=
  ∀ (v : Word) (s : State),
    (s.self.lma = true → exec (.taskSwitch v) s = .refused .taskSwitchInIa32eMode) ∧
    (s.self.lma = false → ∃ t, exec (.taskSwitch v) s = .next t ∧ SameElsewhere s t ∧
      Invalidated s.draws (fun e => v != s.self.cr3 && (e.pcid == 0 && !e.glob))
        (fun _ e => v != s.self.cr3 && e.pcid == 0) s.self t.self ∧
      t.self = { s.self with
        cr3 := v, pdptrs := t.self.pdptrs, tlb := t.self.tlb, psc := t.self.psc })

/-- A VMX transition may drop any entries and changes nothing else (R239, D11; log entry 21, the model's
choice). -/
def Obligations.VmxTransitionResult : Prop :=
  ∀ s : State, ∃ t, exec .vmxTransition s = .next t ∧
    OnlyInvalidated s.draws (fun _ => false) (fun _ _ => false) s t

/-! ### The whole machine -/

/-- No operation has an effect on another logical processor's registers or caches (R245; that it removes
none of their entries, which R240 (f) would permit, is log entry 27, the model's choice), none changes the
implementation's parameters (R3), and none changes the number, the privilege or the handlers of the
executing processor (log entries 33, 20 and 18, the model's choice). -/
def Obligations.LocalEffectOnly : Prop :=
  ∀ (i : Instr) (s t : State), exec i s = .next t →
    t.cfg = s.cfg ∧ OnlyWindows s.others t.others ∧ t.self.id = s.self.id ∧
    t.self.mode = s.self.mode ∧ t.self.pfHandler = s.self.pfHandler ∧
    t.self.gpHandler = s.self.gpHandler

/-- Which operations may change which register: CR3 is "written by `MOV to CR3` and by a task switch"
(R23), and the PDPTE registers with it (R25), CR0 and CR4 by their moves alone (R21, R22), the general
registers by `MOV r, CRn` alone. That IA32_EFER changes with `MOV to CR0` alone is log entry 12, that a VMX
transition changes no register log entry 21, that exceptions and task switches change no other register log
entries 18 and 31: the model's choices. -/
def Obligations.OnlyMovesWriteRegisters : Prop :=
  ∀ (i : Instr) (s t : State), exec i s = .next t →
    (t.self.cr0 ≠ s.self.cr0 → ∃ r, i = .movToCr0 r) ∧
    (t.self.efer ≠ s.self.efer → ∃ r, i = .movToCr0 r) ∧
    (t.self.cr3 ≠ s.self.cr3 → (∃ r, i = .movToCr3 r) ∨ ∃ v, i = .taskSwitch v) ∧
    (t.self.pdptrs ≠ s.self.pdptrs → (∃ r, i = .movToCr3 r) ∨ ∃ v, i = .taskSwitch v) ∧
    (t.self.cr4 ≠ s.self.cr4 → ∃ r, i = .movToCr4 r) ∧
    (t.self.regs ≠ s.self.regs → ∃ n r, i = .movFromCr n r)

/-- Which operations may change memory: a write the bytes at the physical addresses that are shown as write
events of the trace, and those of a write of up to a quadword, which is one access (log entry 25), are the
addresses that `State.place` gives; an access, a fill and the read of an `INVPCID` descriptor the accessed and dirty flags of
paging-structure entries; and nothing else any byte (R32, R71, R220). That a VMX transition and the taking
of an exception change no byte is log entries 21 and 18, the model's choice. -/
def Obligations.OnlyAccessesWriteMemory : Prop :=
  ∀ (i : Instr) (s t : State), exec i s = .next t → Memory.wf s.mem = true →
    ((∀ la req priv, i ≠ .access la req priv) → (∀ la, i ≠ .fill la) →
      (∀ r m, i ≠ .invpcid r m) → t.mem = s.mem) ∧
    ((∀ la bs priv, i ≠ .access la (.write bs) priv) →
      ∀ a, sameButFlags (Memory.read t.mem a) (Memory.read s.mem a)) ∧
    (∃ more, t.trace = more ++ s.trace ∧
      ∀ a, (∀ cpu pa bytes mt, Event.access cpu pa .write bytes mt ∈ more →
          a < pa ∨ pa + bytes.length ≤ a) →
        sameButFlags (Memory.read t.mem a) (Memory.read s.mem a)) ∧
    (∀ la bs priv parts u, i = .access la (.write bs) priv → bs.length ≤ 8 →
      s.tick.tick.place .write priv (splitPages bs.length la bs.length) = .ok parts u →
      ∀ a, (∀ p ∈ parts, a < p.1 ∨ p.1 + p.2.1 ≤ a) →
        sameButFlags (Memory.read t.mem a) (Memory.read s.mem a)) ∧
    Memory.wf t.mem = true
end

