-- ==== Sys2Proof/Laws/Memory.lean ====
section
/-! SUPPORT. Every memory operation keeps the canonical form, and a read after a write gives what was
written there and what stood there before elsewhere. -/

namespace Sys2Proof.Machine

@[simp] theorem Memory.read_nil (k : Nat) : Memory.read [] k = Memory.unwritten := rfl

@[simp] theorem Memory.wf_nil : Memory.wf [] = true := rfl

theorem Memory.wfFrom_weaken (m : Memory) (l : Nat) (h : Memory.wfFrom (some l) m = true) :
    Memory.wfFrom none m = true := by
  cases m with
  | nil => rfl
  | cons c m => simp only [Memory.wfFrom, Bool.and_eq_true] at h ⊢; exact ⟨⟨trivial, h.1.2⟩, h.2⟩

theorem Memory.wfFrom_lower (m : Memory) (l l' : Nat) (hl : l' ≤ l)
    (h : Memory.wfFrom (some l) m = true) : Memory.wfFrom (some l') m = true := by
  cases m with
  | nil => rfl
  | cons c m =>
    simp only [Memory.wfFrom, Bool.and_eq_true, decide_eq_true_eq] at h ⊢
    exact ⟨⟨by omega, h.1.2⟩, h.2⟩

/-- Above the bound of a canonical memory nothing is listed at or below it. -/
theorem Memory.read_of_le (m : Memory) (l k : Nat) (hk : k ≤ l)
    (h : Memory.wfFrom (some l) m = true) : Memory.read m k = Memory.unwritten := by
  induction m generalizing l with
  | nil => rfl
  | cons c m ih =>
    obtain ⟨a, b⟩ := c
    simp only [Memory.wfFrom, Bool.and_eq_true, decide_eq_true_eq] at h
    have : a ≠ k := by omega
    simp only [Memory.read, if_neg this]
    exact ih a (by omega) h.2

theorem Memory.write_keeps_wfFrom (m : Memory) (low : Option Nat) (k : Nat) (v : Byte)
    (hk : ∀ l, low = some l → l < k) (h : Memory.wfFrom low m = true) :
    Memory.wfFrom low (Memory.write m k v) = true := by
  induction m generalizing low with
  | nil =>
    by_cases hv : v = Memory.unwritten
    · simp [Memory.write, hv, Memory.wfFrom]
    · cases low with
      | none => simp [Memory.write, hv, Memory.wfFrom]
      | some l => simp [Memory.write, hv, Memory.wfFrom, hk l rfl]
  | cons c m ih =>
    obtain ⟨a, b⟩ := c
    simp only [Memory.wfFrom, Bool.and_eq_true] at h
    obtain ⟨⟨hlow, hb⟩, hm⟩ := h
    by_cases hka : k < a
    · by_cases hv : v = Memory.unwritten
      · simp only [Memory.write, if_pos hka, if_pos hv, Memory.wfFrom, Bool.and_eq_true]
        exact ⟨⟨hlow, hb⟩, hm⟩
      · simp only [Memory.write, if_pos hka, if_neg hv, Memory.wfFrom, Bool.and_eq_true,
          decide_eq_true_eq]
        refine ⟨⟨?_, by simpa using hv⟩, ⟨hka, hb⟩, hm⟩
        cases low with
        | none => rfl
        | some l => simpa using hk l rfl
    · by_cases hke : k = a
      · subst hke
        by_cases hv : v = Memory.unwritten
        · simp only [Memory.write, if_neg hka, if_true, if_pos hv]
          cases low with
          | none => exact Memory.wfFrom_weaken m k hm
          | some l => exact Memory.wfFrom_lower m k l (by have := hk l rfl; omega) hm
        · simp only [Memory.write, if_neg hka, if_true, if_neg hv, Memory.wfFrom, Bool.and_eq_true]
          exact ⟨⟨hlow, by simpa using hv⟩, hm⟩
      · simp only [Memory.write, if_neg hka, if_neg hke, Memory.wfFrom, Bool.and_eq_true]
        exact ⟨⟨hlow, hb⟩, ih (some a) (by intro l hl; cases hl; omega) hm⟩

/-- A write keeps the canonical form. -/
theorem Memory.write_keeps_wf (m : Memory) (k : Nat) (v : Byte) (h : Memory.wf m = true) :
    Memory.wf (Memory.write m k v) = true :=
  Memory.write_keeps_wfFrom m none k v (by simp) h

theorem Memory.read_write_from (m : Memory) (low : Option Nat) (k j : Nat) (v : Byte)
    (h : Memory.wfFrom low m = true) :
    Memory.read (Memory.write m k v) j = if j = k then v else Memory.read m j := by
  induction m generalizing low with
  | nil =>
    by_cases hv : v = Memory.unwritten
    · simp [Memory.write, hv, Memory.read]
    · by_cases hj : j = k
      · simp [Memory.write, hv, Memory.read, hj]
      · simp [Memory.write, hv, Memory.read, hj, Ne.symm hj]
  | cons c m ih =>
    obtain ⟨a, b⟩ := c
    simp only [Memory.wfFrom, Bool.and_eq_true] at h
    obtain ⟨⟨_, hb⟩, hm⟩ := h
    by_cases hka : k < a
    · by_cases hv : v = Memory.unwritten
      · simp only [Memory.write, if_pos hka, if_pos hv]
        by_cases hj : j = k
        · subst hj
          have : Memory.read m j = Memory.unwritten := Memory.read_of_le m a j (by omega) hm
          simp [Memory.read, hv, this, show a ≠ j by omega]
        · simp [hj]
      · simp only [Memory.write, if_pos hka, if_neg hv]
        by_cases hj : j = k
        · simp [Memory.read, hj]
        · rw [if_neg hj, Memory.read.eq_2, if_neg (Ne.symm hj)]
    · by_cases hke : k = a
      · subst hke
        by_cases hv : v = Memory.unwritten
        · simp only [Memory.write, if_neg hka, if_true, if_pos hv]
          by_cases hj : j = k
          · subst hj
            simpa [hv] using Memory.read_of_le m j j (le_refl j) hm
          · simp [Memory.read, hj, Ne.symm hj]
        · simp only [Memory.write, if_neg hka, if_true, if_neg hv]
          by_cases hj : j = k
          · simp [Memory.read, hj]
          · simp [Memory.read, hj, Ne.symm hj]
      · simp only [Memory.write, if_neg hka, if_neg hke, Memory.read]
        by_cases ha : a = j
        · simp [ha, show j ≠ k by omega]
        · simpa [ha] using ih (some a) hm

/-- A read after a write gives the byte written at its address and what stood there elsewhere. -/
theorem Memory.read_write (m : Memory) (k j : Nat) (v : Byte) (h : Memory.wf m = true) :
    Memory.read (Memory.write m k v) j = if j = k then v else Memory.read m j :=
  Memory.read_write_from m none k j v h

/-- Storing bytes keeps the canonical form. -/
theorem Memory.writeBytes_keeps_wf (m : Memory) (k : Nat) (bs : List Byte)
    (h : Memory.wf m = true) : Memory.wf (Memory.writeBytes m k bs) = true := by
  induction bs generalizing m k with
  | nil => exact h
  | cons b bs ih => exact ih _ _ (Memory.write_keeps_wf m k b h)

/-- Storing bytes leaves every address outside them alone. -/
theorem Memory.read_writeBytes_outside (m : Memory) (k j : Nat) (bs : List Byte)
    (h : Memory.wf m = true) (hj : j < k ∨ k + bs.length ≤ j) :
    Memory.read (Memory.writeBytes m k bs) j = Memory.read m j := by
  induction bs generalizing m k with
  | nil => rfl
  | cons b bs ih =>
    have hne : j ≠ k := by simp only [List.length_cons] at hj; omega
    rw [Memory.writeBytes, ih _ _ (Memory.write_keeps_wf m k b h)
      (by simp only [List.length_cons] at hj; omega), Memory.read_write m k j b h, if_neg hne]

/-- A byte stored is the byte read. -/
theorem Memory.read_writeBytes_inside (m : Memory) (k i : Nat) (bs : List Byte)
    (h : Memory.wf m = true) (hi : i < bs.length) :
    Memory.read (Memory.writeBytes m k bs) (k + i) = bs[i] := by
  induction bs generalizing m k i with
  | nil => simp at hi
  | cons b bs ih =>
    cases i with
    | zero =>
      rw [Memory.writeBytes, Memory.read_writeBytes_outside _ _ _ _
        (Memory.write_keeps_wf m k b h) (Or.inl (by omega)), Memory.read_write m k _ b h]
      simp
    | succ i =>
      have := ih (Memory.write m k b) (k + 1) i (Memory.write_keeps_wf m k b h)
        (by simpa using hi)
      rw [Memory.writeBytes, show k + (i + 1) = k + 1 + i by omega, this]
      rfl

end Sys2Proof.Machine
end

