-- ==== Sys2Proof/Laws/State.lean ====
section
/-! SUPPORT. One lemma per field for each update of the state and of a processor, each true by `rfl`. -/

namespace Sys2Proof.Machine

@[simp] theorem State.tick_cfg (s : State) :
    (s.tick).cfg = s.cfg := rfl
@[simp] theorem State.tick_self (s : State) :
    (s.tick).self = s.self := rfl
@[simp] theorem State.tick_others (s : State) :
    (s.tick).others = s.others := rfl
@[simp] theorem State.tick_mem (s : State) :
    (s.tick).mem = s.mem := rfl
@[simp] theorem State.tick_draws (s : State) :
    (s.tick).draws = s.draws + 1 := rfl
@[simp] theorem State.tick_trace (s : State) :
    (s.tick).trace = s.trace := rfl

@[simp] theorem State.onSelf_cfg (s : State) (f : Processor → Processor) :
    (s.onSelf f).cfg = s.cfg := rfl
@[simp] theorem State.onSelf_self (s : State) (f : Processor → Processor) :
    (s.onSelf f).self = f s.self := rfl
@[simp] theorem State.onSelf_others (s : State) (f : Processor → Processor) :
    (s.onSelf f).others = s.others := rfl
@[simp] theorem State.onSelf_mem (s : State) (f : Processor → Processor) :
    (s.onSelf f).mem = s.mem := rfl
@[simp] theorem State.onSelf_draws (s : State) (f : Processor → Processor) :
    (s.onSelf f).draws = s.draws := rfl
@[simp] theorem State.onSelf_trace (s : State) (f : Processor → Processor) :
    (s.onSelf f).trace = s.trace := rfl

@[simp] theorem State.show_cfg (s : State) (e : Event) :
    (s.show e).cfg = s.cfg := rfl
@[simp] theorem State.show_self (s : State) (e : Event) :
    (s.show e).self = s.self := rfl
@[simp] theorem State.show_others (s : State) (e : Event) :
    (s.show e).others = s.others := rfl
@[simp] theorem State.show_mem (s : State) (e : Event) :
    (s.show e).mem = s.mem := rfl
@[simp] theorem State.show_draws (s : State) (e : Event) :
    (s.show e).draws = s.draws := rfl
@[simp] theorem State.show_trace (s : State) (e : Event) :
    (s.show e).trace = e :: s.trace := rfl

@[simp] theorem State.store_cfg (s : State) (k : Nat) (bs : List Byte) :
    (s.store k bs).cfg = s.cfg := rfl
@[simp] theorem State.store_self (s : State) (k : Nat) (bs : List Byte) :
    (s.store k bs).self = s.self.pushWindow s.mem := rfl
@[simp] theorem State.store_others (s : State) (k : Nat) (bs : List Byte) :
    (s.store k bs).others = s.others.map fun l => l.pushWindow s.mem := rfl
@[simp] theorem State.store_mem (s : State) (k : Nat) (bs : List Byte) :
    (s.store k bs).mem = Memory.writeBytes s.mem k bs := rfl
@[simp] theorem State.store_draws (s : State) (k : Nat) (bs : List Byte) :
    (s.store k bs).draws = s.draws := rfl
@[simp] theorem State.store_trace (s : State) (k : Nat) (bs : List Byte) :
    (s.store k bs).trace = s.trace := rfl

@[simp] theorem Processor.pushWindow_id (l : Processor) (m : Memory) :
    (l.pushWindow m).id = l.id := rfl
@[simp] theorem Processor.pushWindow_regs (l : Processor) (m : Memory) :
    (l.pushWindow m).regs = l.regs := rfl
@[simp] theorem Processor.pushWindow_cr0 (l : Processor) (m : Memory) :
    (l.pushWindow m).cr0 = l.cr0 := rfl
@[simp] theorem Processor.pushWindow_cr2 (l : Processor) (m : Memory) :
    (l.pushWindow m).cr2 = l.cr2 := rfl
@[simp] theorem Processor.pushWindow_cr3 (l : Processor) (m : Memory) :
    (l.pushWindow m).cr3 = l.cr3 := rfl
@[simp] theorem Processor.pushWindow_cr4 (l : Processor) (m : Memory) :
    (l.pushWindow m).cr4 = l.cr4 := rfl
@[simp] theorem Processor.pushWindow_efer (l : Processor) (m : Memory) :
    (l.pushWindow m).efer = l.efer := rfl
@[simp] theorem Processor.pushWindow_pdptrs (l : Processor) (m : Memory) :
    (l.pushWindow m).pdptrs = l.pdptrs := rfl
@[simp] theorem Processor.pushWindow_mode (l : Processor) (m : Memory) :
    (l.pushWindow m).mode = l.mode := rfl
@[simp] theorem Processor.pushWindow_tlb (l : Processor) (m : Memory) :
    (l.pushWindow m).tlb = l.tlb := rfl
@[simp] theorem Processor.pushWindow_psc (l : Processor) (m : Memory) :
    (l.pushWindow m).psc = l.psc := rfl
@[simp] theorem Processor.pushWindow_window (l : Processor) (m : Memory) :
    (l.pushWindow m).window = { mem := m, notFor := [] } :: l.window := rfl
@[simp] theorem Processor.pushWindow_halted (l : Processor) (m : Memory) :
    (l.pushWindow m).halted = l.halted := rfl
@[simp] theorem Processor.pushWindow_exception (l : Processor) (m : Memory) :
    (l.pushWindow m).exception = l.exception := rfl
@[simp] theorem Processor.pushWindow_program (l : Processor) (m : Memory) :
    (l.pushWindow m).program = l.program := rfl
@[simp] theorem Processor.pushWindow_pfHandler (l : Processor) (m : Memory) :
    (l.pushWindow m).pfHandler = l.pfHandler := rfl
@[simp] theorem Processor.pushWindow_gpHandler (l : Processor) (m : Memory) :
    (l.pushWindow m).gpHandler = l.gpHandler := rfl

@[simp] theorem Processor.serialize_id (l : Processor) :
    (l.serialize).id = l.id := rfl
@[simp] theorem Processor.serialize_regs (l : Processor) :
    (l.serialize).regs = l.regs := rfl
@[simp] theorem Processor.serialize_cr0 (l : Processor) :
    (l.serialize).cr0 = l.cr0 := rfl
@[simp] theorem Processor.serialize_cr2 (l : Processor) :
    (l.serialize).cr2 = l.cr2 := rfl
@[simp] theorem Processor.serialize_cr3 (l : Processor) :
    (l.serialize).cr3 = l.cr3 := rfl
@[simp] theorem Processor.serialize_cr4 (l : Processor) :
    (l.serialize).cr4 = l.cr4 := rfl
@[simp] theorem Processor.serialize_efer (l : Processor) :
    (l.serialize).efer = l.efer := rfl
@[simp] theorem Processor.serialize_pdptrs (l : Processor) :
    (l.serialize).pdptrs = l.pdptrs := rfl
@[simp] theorem Processor.serialize_mode (l : Processor) :
    (l.serialize).mode = l.mode := rfl
@[simp] theorem Processor.serialize_tlb (l : Processor) :
    (l.serialize).tlb = l.tlb := rfl
@[simp] theorem Processor.serialize_psc (l : Processor) :
    (l.serialize).psc = l.psc := rfl
@[simp] theorem Processor.serialize_window (l : Processor) :
    (l.serialize).window = [] := rfl
@[simp] theorem Processor.serialize_halted (l : Processor) :
    (l.serialize).halted = l.halted := rfl
@[simp] theorem Processor.serialize_exception (l : Processor) :
    (l.serialize).exception = l.exception := rfl
@[simp] theorem Processor.serialize_program (l : Processor) :
    (l.serialize).program = l.program := rfl
@[simp] theorem Processor.serialize_pfHandler (l : Processor) :
    (l.serialize).pfHandler = l.pfHandler := rfl
@[simp] theorem Processor.serialize_gpHandler (l : Processor) :
    (l.serialize).gpHandler = l.gpHandler := rfl

@[simp] theorem Processor.faulted_id (l : Processor) (la : Word) :
    (l.faulted la).id = l.id := rfl
@[simp] theorem Processor.faulted_regs (l : Processor) (la : Word) :
    (l.faulted la).regs = l.regs := rfl
@[simp] theorem Processor.faulted_cr0 (l : Processor) (la : Word) :
    (l.faulted la).cr0 = l.cr0 := rfl
@[simp] theorem Processor.faulted_cr2 (l : Processor) (la : Word) :
    (l.faulted la).cr2 = l.cr2 := rfl
@[simp] theorem Processor.faulted_cr3 (l : Processor) (la : Word) :
    (l.faulted la).cr3 = l.cr3 := rfl
@[simp] theorem Processor.faulted_cr4 (l : Processor) (la : Word) :
    (l.faulted la).cr4 = l.cr4 := rfl
@[simp] theorem Processor.faulted_efer (l : Processor) (la : Word) :
    (l.faulted la).efer = l.efer := rfl
@[simp] theorem Processor.faulted_pdptrs (l : Processor) (la : Word) :
    (l.faulted la).pdptrs = l.pdptrs := rfl
@[simp] theorem Processor.faulted_mode (l : Processor) (la : Word) :
    (l.faulted la).mode = l.mode := rfl
@[simp] theorem Processor.faulted_tlb (l : Processor) (la : Word) :
    (l.faulted la).tlb = l.tlb := rfl
@[simp] theorem Processor.faulted_psc (l : Processor) (la : Word) :
    (l.faulted la).psc = l.psc := rfl
@[simp] theorem Processor.faulted_window (l : Processor) (la : Word) :
    (l.faulted la).window = l.window.map fun p => { p with notFor := la :: p.notFor } := rfl
@[simp] theorem Processor.faulted_halted (l : Processor) (la : Word) :
    (l.faulted la).halted = l.halted := rfl
@[simp] theorem Processor.faulted_exception (l : Processor) (la : Word) :
    (l.faulted la).exception = l.exception := rfl
@[simp] theorem Processor.faulted_program (l : Processor) (la : Word) :
    (l.faulted la).program = l.program := rfl
@[simp] theorem Processor.faulted_pfHandler (l : Processor) (la : Word) :
    (l.faulted la).pfHandler = l.pfHandler := rfl
@[simp] theorem Processor.faulted_gpHandler (l : Processor) (la : Word) :
    (l.faulted la).gpHandler = l.gpHandler := rfl

@[simp] theorem Processor.setCr0_id (l : Processor) (v : Word) :
    (l.setCr0 v).id = l.id := rfl
@[simp] theorem Processor.setCr0_regs (l : Processor) (v : Word) :
    (l.setCr0 v).regs = l.regs := rfl
@[simp] theorem Processor.setCr0_cr0 (l : Processor) (v : Word) :
    (l.setCr0 v).cr0 = v := rfl
@[simp] theorem Processor.setCr0_cr2 (l : Processor) (v : Word) :
    (l.setCr0 v).cr2 = l.cr2 := rfl
@[simp] theorem Processor.setCr0_cr3 (l : Processor) (v : Word) :
    (l.setCr0 v).cr3 = l.cr3 := rfl
@[simp] theorem Processor.setCr0_cr4 (l : Processor) (v : Word) :
    (l.setCr0 v).cr4 = l.cr4 := rfl
@[simp] theorem Processor.setCr0_efer (l : Processor) (v : Word) :
    (l.setCr0 v).efer = eferWithLma l.efer (cr0Pg v) := rfl
@[simp] theorem Processor.setCr0_pdptrs (l : Processor) (v : Word) :
    (l.setCr0 v).pdptrs = l.pdptrs := rfl
@[simp] theorem Processor.setCr0_mode (l : Processor) (v : Word) :
    (l.setCr0 v).mode = l.mode := rfl
@[simp] theorem Processor.setCr0_tlb (l : Processor) (v : Word) :
    (l.setCr0 v).tlb = l.tlb := rfl
@[simp] theorem Processor.setCr0_psc (l : Processor) (v : Word) :
    (l.setCr0 v).psc = l.psc := rfl
@[simp] theorem Processor.setCr0_window (l : Processor) (v : Word) :
    (l.setCr0 v).window = l.window := rfl
@[simp] theorem Processor.setCr0_halted (l : Processor) (v : Word) :
    (l.setCr0 v).halted = l.halted := rfl
@[simp] theorem Processor.setCr0_exception (l : Processor) (v : Word) :
    (l.setCr0 v).exception = l.exception := rfl
@[simp] theorem Processor.setCr0_program (l : Processor) (v : Word) :
    (l.setCr0 v).program = l.program := rfl
@[simp] theorem Processor.setCr0_pfHandler (l : Processor) (v : Word) :
    (l.setCr0 v).pfHandler = l.pfHandler := rfl
@[simp] theorem Processor.setCr0_gpHandler (l : Processor) (v : Word) :
    (l.setCr0 v).gpHandler = l.gpHandler := rfl

@[simp] theorem Processor.invalidate_id (l : Processor) (rt : TlbEntry → Bool) (rp : CacheKind → PscEntry → Bool)
    (xt : TlbEntry → Bool) (xp : CacheKind → PscEntry → Bool) :
    (l.invalidate rt rp xt xp).id = l.id := rfl
@[simp] theorem Processor.invalidate_regs (l : Processor) (rt : TlbEntry → Bool) (rp : CacheKind → PscEntry → Bool)
    (xt : TlbEntry → Bool) (xp : CacheKind → PscEntry → Bool) :
    (l.invalidate rt rp xt xp).regs = l.regs := rfl
@[simp] theorem Processor.invalidate_cr0 (l : Processor) (rt : TlbEntry → Bool) (rp : CacheKind → PscEntry → Bool)
    (xt : TlbEntry → Bool) (xp : CacheKind → PscEntry → Bool) :
    (l.invalidate rt rp xt xp).cr0 = l.cr0 := rfl
@[simp] theorem Processor.invalidate_cr2 (l : Processor) (rt : TlbEntry → Bool) (rp : CacheKind → PscEntry → Bool)
    (xt : TlbEntry → Bool) (xp : CacheKind → PscEntry → Bool) :
    (l.invalidate rt rp xt xp).cr2 = l.cr2 := rfl
@[simp] theorem Processor.invalidate_cr3 (l : Processor) (rt : TlbEntry → Bool) (rp : CacheKind → PscEntry → Bool)
    (xt : TlbEntry → Bool) (xp : CacheKind → PscEntry → Bool) :
    (l.invalidate rt rp xt xp).cr3 = l.cr3 := rfl
@[simp] theorem Processor.invalidate_cr4 (l : Processor) (rt : TlbEntry → Bool) (rp : CacheKind → PscEntry → Bool)
    (xt : TlbEntry → Bool) (xp : CacheKind → PscEntry → Bool) :
    (l.invalidate rt rp xt xp).cr4 = l.cr4 := rfl
@[simp] theorem Processor.invalidate_efer (l : Processor) (rt : TlbEntry → Bool) (rp : CacheKind → PscEntry → Bool)
    (xt : TlbEntry → Bool) (xp : CacheKind → PscEntry → Bool) :
    (l.invalidate rt rp xt xp).efer = l.efer := rfl
@[simp] theorem Processor.invalidate_pdptrs (l : Processor) (rt : TlbEntry → Bool) (rp : CacheKind → PscEntry → Bool)
    (xt : TlbEntry → Bool) (xp : CacheKind → PscEntry → Bool) :
    (l.invalidate rt rp xt xp).pdptrs = l.pdptrs := rfl
@[simp] theorem Processor.invalidate_mode (l : Processor) (rt : TlbEntry → Bool) (rp : CacheKind → PscEntry → Bool)
    (xt : TlbEntry → Bool) (xp : CacheKind → PscEntry → Bool) :
    (l.invalidate rt rp xt xp).mode = l.mode := rfl
@[simp] theorem Processor.invalidate_tlb (l : Processor) (rt : TlbEntry → Bool) (rp : CacheKind → PscEntry → Bool)
    (xt : TlbEntry → Bool) (xp : CacheKind → PscEntry → Bool) :
    (l.invalidate rt rp xt xp).tlb = l.tlb.filter fun e => !(rt e || xt e) := rfl
@[simp] theorem Processor.invalidate_window (l : Processor) (rt : TlbEntry → Bool) (rp : CacheKind → PscEntry → Bool)
    (xt : TlbEntry → Bool) (xp : CacheKind → PscEntry → Bool) :
    (l.invalidate rt rp xt xp).window = l.window := rfl
@[simp] theorem Processor.invalidate_halted (l : Processor) (rt : TlbEntry → Bool) (rp : CacheKind → PscEntry → Bool)
    (xt : TlbEntry → Bool) (xp : CacheKind → PscEntry → Bool) :
    (l.invalidate rt rp xt xp).halted = l.halted := rfl
@[simp] theorem Processor.invalidate_exception (l : Processor) (rt : TlbEntry → Bool) (rp : CacheKind → PscEntry → Bool)
    (xt : TlbEntry → Bool) (xp : CacheKind → PscEntry → Bool) :
    (l.invalidate rt rp xt xp).exception = l.exception := rfl
@[simp] theorem Processor.invalidate_program (l : Processor) (rt : TlbEntry → Bool) (rp : CacheKind → PscEntry → Bool)
    (xt : TlbEntry → Bool) (xp : CacheKind → PscEntry → Bool) :
    (l.invalidate rt rp xt xp).program = l.program := rfl
@[simp] theorem Processor.invalidate_pfHandler (l : Processor) (rt : TlbEntry → Bool) (rp : CacheKind → PscEntry → Bool)
    (xt : TlbEntry → Bool) (xp : CacheKind → PscEntry → Bool) :
    (l.invalidate rt rp xt xp).pfHandler = l.pfHandler := rfl
@[simp] theorem Processor.invalidate_gpHandler (l : Processor) (rt : TlbEntry → Bool) (rp : CacheKind → PscEntry → Bool)
    (xt : TlbEntry → Bool) (xp : CacheKind → PscEntry → Bool) :
    (l.invalidate rt rp xt xp).gpHandler = l.gpHandler := rfl
@[simp] theorem Processor.invalidate_psc_get (l : Processor) (rt : TlbEntry → Bool) (rp : CacheKind → PscEntry → Bool)
    (xt : TlbEntry → Bool) (xp : CacheKind → PscEntry → Bool) (k : CacheKind) :
    (l.invalidate rt rp xt xp).psc.get k = (l.psc.get k).filter fun e => !(rp k e || xp k e) := by
  cases k <;> rfl

@[simp] theorem Psc.get_empty (k : CacheKind) : Psc.empty.get k = [] := by cases k <;> rfl

@[simp] theorem Psc.get_update_same (p : Psc) (k : CacheKind) (f : List PscEntry → List PscEntry) :
    (p.update k f).get k = f (p.get k) := by cases k <;> rfl

theorem Psc.get_update_ne (p : Psc) (k j : CacheKind) (f : List PscEntry → List PscEntry)
    (h : j ≠ k) : (p.update k f).get j = p.get j := by
  cases k <;> cases j <;> first | rfl | exact absurd rfl h

/-- Caches with no entry in any of the four are the empty caches. -/
theorem Psc.eq_empty (p : Psc) (h : ∀ k, p.get k = []) : p = Psc.empty := by
  cases p
  have h1 := h .pml5e
  have h2 := h .pml4e
  have h3 := h .pdpte
  have h4 := h .pde
  simp only [Psc.get] at h1 h2 h3 h4
  subst h1 h2 h3 h4
  rfl

@[simp] theorem Gprs.get_set_same (g : Gprs) (r : Reg) (v : Word) : (g.set r v).get r = v := by
  cases r <;> rfl

theorem Gprs.get_set_ne (g : Gprs) (r q : Reg) (v : Word) (h : q ≠ r) :
    (g.set r v).get q = g.get q := by
  cases r <;> cases q <;> first | rfl | exact absurd rfl h

/-! ### Privilege and CR3 -/

theorem State.privileged_user (s : State) (i : Instr) (run : State → State) (h : s.self.mode = .user) :
    s.privileged i run = s.raiseGp i := if_pos h

theorem State.privileged_supervisor (s : State) (i : Instr) (run : State → State)
    (h : s.self.mode = .supervisor) : s.privileged i run = run s := by
  simp [State.privileged, h]

theorem cr3Loaded_getLsbD (old src : Word) (i : Nat) :
    (cr3Loaded old src).getLsbD i =
      if i < 52 then (src.extractLsb' 0 52).getLsbD i else (old.extractLsb' 52 12).getLsbD (i - 52) :=
  BitVec.getLsbD_append

/-- `MOV to CR3` loads bits 51:0 of its source (R23, R234). -/
theorem cr3Loaded_low (old src : Word) :
    (cr3Loaded old src).extractLsb' 0 52 = src.extractLsb' 0 52 :=
  BitVec.eq_of_getLsbD_eq fun i hi => by simp [cr3Loaded_getLsbD, hi]

/-- The PCID field after `MOV to CR3` is that of its source (R23, R234). -/
theorem cr3Loaded_pcid (old src : Word) :
    (cr3Loaded old src).extractLsb' 0 12 = src.extractLsb' 0 12 :=
  BitVec.eq_of_getLsbD_eq fun i hi => by simp [cr3Loaded_getLsbD, hi, show i < 52 by omega]

/-- The bits above 51 stay; bit 63 of the source is a command (R234). -/
theorem cr3Loaded_high (old src : Word) (i : Nat) (h : 52 ≤ i) :
    (cr3Loaded old src).getLsbD i = old.getLsbD i := by
  rw [cr3Loaded_getLsbD, if_neg (by omega), BitVec.getLsbD_extractLsb', show 52 + (i - 52) = i by omega]
  by_cases hi : i - 52 < 12
  · simp [hi]
  · rw [BitVec.getLsbD_of_ge _ _ (by omega)]; simp

/-! ### Entries made in the paging mode in force (R147, R179) -/

theorem Processor.asIn_same (l : Processor) {made : PagingMode} (h : made = l.pagingMode) (la : Word) :
    l.asIn made la = some la := if_pos h

/-- An entry of the mode in force is for the addresses of its page number (R147). -/
theorem Processor.matchesTlb_same (l : Processor) (la : Word) {e : TlbEntry}
    (h : e.mode = l.pagingMode) :
    l.matchesTlb la e = (pageNumber l.pagingMode la e.shift == e.pn) := by
  simp [Processor.matchesTlb, h, l.asIn_same rfl]

/-- An entry of the mode in force is for the addresses of its tag (R171, R173, R175, R177). -/
theorem Processor.tagMatches_same (l : Processor) (la : Word) (k : CacheKind) {e : PscEntry}
    (h : e.mode = l.pagingMode) :
    l.tagMatches la k e = (e.tag == tagOf l.pagingMode k la) := by
  simp [Processor.tagMatches, h, l.asIn_same rfl]

/-- A canonical address is its own 64-bit form. -/
theorem PagingMode.extend_canonical {m : PagingMode} (hm : m.ia32e = true) {la : Word}
    (h : m.canonical la = true) : m.extend la = la := by
  apply BitVec.eq_of_toNat_eq
  have := la.isLt
  cases m <;> simp only [PagingMode.ia32e, Bool.false_eq_true] at hm <;>
  · simp only [PagingMode.canonical, PagingMode.ia32e, PagingMode.width, Bool.not_true, Bool.false_or,
      Bool.or_eq_true, beq_iff_eq, Nat.shiftRight_eq_div_pow] at h
    simp only [PagingMode.extend, PagingMode.ia32e, PagingMode.width, Bool.true_and, BitVec.getLsbD,
      Nat.testBit_eq_decide_div_mod_eq, BitVec.toNat_ofNat]
    rcases h with h | h
    · rw [if_neg (by simp; omega)]; omega
    · rw [if_pos (by simp; omega)]; omega

/-- An address that is its own 64-bit form is canonical. -/
theorem PagingMode.canonical_of_extend {m : PagingMode} (hm : m.ia32e = true) {la : Word}
    (h : m.extend la = la) : m.canonical la = true := by
  have h := congrArg BitVec.toNat h
  have := la.isLt
  cases m <;> simp only [PagingMode.ia32e, Bool.false_eq_true] at hm <;>
  · simp only [PagingMode.extend, PagingMode.ia32e, PagingMode.width, Bool.true_and, BitVec.getLsbD,
      Nat.testBit_eq_decide_div_mod_eq, BitVec.toNat_ofNat] at h
    simp only [PagingMode.canonical, PagingMode.ia32e, PagingMode.width, Bool.not_true, Bool.false_or,
      Bool.or_eq_true, beq_iff_eq, Nat.shiftRight_eq_div_pow]
    split at h <;> rename_i q <;> simp only [decide_eq_true_eq] at q <;> omega

/-- For a canonical address, the mode in force decides nothing: an entry is for it exactly if it is an address
of the mode that the entry was made in (R247, log entry 37). -/
theorem Processor.asIn_canonical (l : Processor) (hm : l.pagingMode.ia32e = true) {la : Word}
    (h : l.pagingMode.canonical la = true) (made : PagingMode) :
    l.asIn made la = if made.extend la = la then some la else none := by
  have e := PagingMode.extend_canonical hm h
  unfold Processor.asIn
  split
  · rename_i q; rw [q, if_pos e]
  · simp only [e]

/-! ### CR3 -/

/-- A load of CR3 changes CR3 and the PDPTE registers alone. -/
theorem Processor.setCr3_eq (l : Processor) (c : Params) (m : Memory) (v : Word) :
    l.setCr3 c m v = { l with cr3 := v, pdptrs := (l.setCr3 c m v).pdptrs } := by
  unfold Processor.setCr3 Processor.loadPdptrs
  split <;> rfl

end Sys2Proof.Machine
end

