-- ==== Sys2Proof/Laws/Ops.lean ====
section
/-! SUPPORT. What each shared operation can do, said once: invalidation, filling, translating and
accessing change nothing but caches, flags of paging-structure entries and, for a store, the bytes
stored. -/

namespace Sys2Proof.Machine

/-! ### Frames -/

theorem OnlyCaches.refl (l : Processor) : OnlyCaches l l := rfl

theorem OnlyCaches.trans {l m n : Processor} (h : OnlyCaches l m) (g : OnlyCaches m n) :
    OnlyCaches l n := by
  unfold OnlyCaches at *; rw [g, h]

theorem OnlyWindow.trans {l m n : Processor} (h : OnlyWindow l m) (g : OnlyWindow m n) :
    OnlyWindow l n := by
  unfold OnlyWindow at *; rw [g, h]

theorem OnlyWindows.refl (ls : List Processor) : OnlyWindows ls ls := by
  induction ls with
  | nil => trivial
  | cons l ls ih => exact ⟨rfl, ih⟩

theorem OnlyWindows.trans {a b c : List Processor} (h : OnlyWindows a b) (g : OnlyWindows b c) :
    OnlyWindows a c := by
  induction a generalizing b c with
  | nil => cases b <;> cases c <;> simp_all [OnlyWindows]
  | cons l a ih =>
    cases b with
    | nil => exact h.elim
    | cons m b =>
      cases c with
      | nil => exact g.elim
      | cons n c => exact ⟨h.1.trans g.1, ih h.2 g.2⟩

theorem OnlyWindows.pushed (ls : List Processor) (m : Memory) :
    OnlyWindows ls (ls.map fun l => l.pushWindow m) := by
  induction ls with
  | nil => trivial
  | cons l ls ih => exact ⟨rfl, ih⟩

theorem OnlyWindows.length {a b : List Processor} (h : OnlyWindows a b) : b.length = a.length := by
  induction a generalizing b with
  | nil => cases b with
    | nil => rfl
    | cons _ _ => exact h.elim
  | cons l a ih => cases b with
    | nil => exact h.elim
    | cons m b => simp [ih h.2]

/-- `t` is `s` after work on caches and on flags of paging-structure entries: of a byte of memory the
bits of `mask` stay. -/
structure FlagsOnly (mask : Byte) (s t : State) : Prop where
  cfg       : t.cfg = s.cfg
  registers : OnlyCaches s.self t.self
  others    : OnlyWindows s.others t.others
  trace     : t.trace = s.trace
  wf        : Memory.wf s.mem = true → Memory.wf t.mem = true
  mem       : Memory.wf s.mem = true →
    ∀ a, Memory.read t.mem a &&& mask = Memory.read s.mem a &&& mask

theorem FlagsOnly.refl (mask : Byte) (s : State) : FlagsOnly mask s s :=
  ⟨rfl, rfl, OnlyWindows.refl _, rfl, id, fun _ _ => rfl⟩

theorem FlagsOnly.trans {mask : Byte} {s t u : State} (h : FlagsOnly mask s t)
    (g : FlagsOnly mask t u) : FlagsOnly mask s u :=
  ⟨g.cfg.trans h.cfg, h.registers.trans g.registers, h.others.trans g.others,
    g.trace.trans h.trace, fun w => g.wf (h.wf w),
    fun w a => (g.mem (h.wf w) a).trans (h.mem w a)⟩

theorem FlagsOnly.weaken {s t : State} (h : FlagsOnly 0xDF s t) : FlagsOnly 0x9F s t := by
  refine ⟨h.cfg, h.registers, h.others, h.trace, h.wf, fun w a => ?_⟩
  have e : ∀ x : Byte, x &&& 0x9F = x &&& 0xDF &&& 0x9F := fun x => by
    rw [BitVec.and_assoc]; rfl
  rw [e, h.mem w a, ← e]

theorem FlagsOnly.tick (mask : Byte) (s : State) : FlagsOnly mask s s.tick :=
  ⟨rfl, rfl, OnlyWindows.refl _, rfl, id, fun _ _ => rfl⟩

/-- Work on the executing processor's caches alone. -/
theorem FlagsOnly.onSelf (mask : Byte) (s : State) (f : Processor → Processor)
    (h : OnlyCaches s.self (f s.self)) : FlagsOnly mask s (s.onSelf f) :=
  ⟨rfl, h, OnlyWindows.refl _, rfl, id, fun _ _ => rfl⟩

/-- A flag set in memory changes that flag alone. -/
theorem FlagsOnly.setFlag (mask : Byte) (s : State) (k bit : Nat)
    (hb : (1#8 <<< bit) &&& mask = 0) : FlagsOnly mask s (s.setFlag k bit) := by
  refine ⟨rfl, rfl, OnlyWindows.pushed _ _, rfl, fun w => ?_, fun w a => ?_⟩
  · exact Memory.writeBytes_keeps_wf _ _ _ w
  · show Memory.read (Memory.write s.mem k _) a &&& mask = _
    rw [Memory.read_write _ _ _ _ w]
    by_cases ha : a = k
    · subst ha
      rw [if_pos rfl]
      have : ∀ x y : Byte, y &&& mask = 0 → (x ||| y) &&& mask = x &&& mask := by
        intro x y hy
        ext i hi
        have := congrArg (fun z : Byte => z.getLsbD i) hy
        simp at this ⊢
        grind
      exact this _ _ hb
    · rw [if_neg ha]

theorem FlagsOnly.setAccessed (s : State) (h : Hop) : FlagsOnly 0xDF s (s.setAccessed h) := by
  unfold State.setAccessed
  split
  · split
    · exact .refl _ _
    · exact .setFlag _ _ _ _ (by decide)
  · exact .refl _ _

theorem OnlyCaches.addTlb (l : Processor) (e : TlbEntry) : OnlyCaches l (l.addTlb e) := by
  unfold Processor.addTlb; split <;> rfl

theorem OnlyCaches.addPsc (l : Processor) (k : CacheKind) (e : PscEntry) :
    OnlyCaches l (l.addPsc k e) := rfl

/-- All that `State.cacheHop` can do: nothing, or add the TLB entry of an entry that maps a page, or add
the entry of a cache of the paging mode (R194). -/
theorem State.cacheHop_cases (s : State) (ch : WalkChoice) (cap : Option PageSize) (la : Word)
    (h : Hop) :
    s.cacheHop ch cap la h = s ∨
    (h.view.maps = true ∧ ¬(h.hlat = true ∧ h.view.restart = true) ∧
      s.self.tlbBarred h (s.self.tlbEntryOf ch cap la h) = false ∧
      s.cacheHop ch cap la h = s.onSelf fun l => l.addTlb (l.tlbEntryOf ch cap la h)) ∨
    ∃ k, h.level.cache = some k ∧ k ∈ s.self.pagingMode.caches ∧ h.view.ps = false ∧
      s.self.pscBarred h k (s.self.pscEntryOf k la h) = false ∧
      s.cacheHop ch cap la h = s.onSelf fun l => l.addPsc k (l.pscEntryOf k la h) := by
  unfold State.cacheHop
  split
  · rename_i hm
    simp only [Bool.and_eq_true, Bool.not_eq_true', Bool.and_eq_false_imp] at hm
    split
    · exact .inl rfl
    · rename_i hb
      exact .inr (.inl ⟨hm.1, fun x => by simp [hm.2 x.1] at x, by simpa using hb, rfl⟩)
  · split
    · rename_i k hk
      split
      · rename_i hc
        simp only [Bool.and_eq_true, Bool.not_eq_true', List.contains_iff_mem] at hc
        exact .inr (.inr ⟨k, hk, hc.1.1, hc.1.2, hc.2, rfl⟩)
      · exact .inl rfl
    · exact .inl rfl

theorem FlagsOnly.cacheHop (mask : Byte) (s : State) (ch : WalkChoice) (cap : Option PageSize)
    (la : Word) (h : Hop) : FlagsOnly mask s (s.cacheHop ch cap la h) := by
  rcases s.cacheHop_cases ch cap la h with e | ⟨-, -, -, e⟩ | ⟨k, -, -, -, -, e⟩ <;> rw [e]
  · exact .refl _ _
  · exact .onSelf _ _ _ (.addTlb _ _)
  · exact .onSelf _ _ _ (.addPsc _ _ _)

/-- A fill changes accessed flags and caches alone (R194: "It never sets a dirty flag"). -/
theorem FlagsOnly.fillHops (s : State) (ch : WalkChoice) (cap : Option PageSize) (la : Word)
    (hs : List Hop) (i : Nat) : FlagsOnly 0xDF s (s.fillHops ch cap la hs i) := by
  induction hs generalizing s i with
  | nil => exact .refl _ _
  | cons h hs ih =>
    unfold State.fillHops
    refine (FlagsOnly.setAccessed s h).trans (.trans ?_ (ih _ _))
    split
    · exact .cacheHop _ _ _ _ _ _
    · exact .refl _ _

theorem FlagsOnly.fillWith (s : State) (ch : WalkChoice) (la : Word) :
    FlagsOnly 0xDF s (s.fillWith ch la) := by
  unfold State.fillWith
  split
  · exact .refl _ _
  · split
    · exact .refl _ _
    · exact .fillHops _ _ _ _ _ _

theorem FlagsOnly.fill (s : State) (la : Word) : FlagsOnly 0xDF s (s.fill la) :=
  (FlagsOnly.tick _ s).trans (.fillWith _ _ _)

theorem FlagsOnly.dirtyByWalk (s : State) (ch : WalkChoice) (p : Path) :
    FlagsOnly 0x9F s (s.dirtyByWalk ch p) := by
  unfold State.dirtyByWalk
  split
  · split
    · exact .setFlag _ _ _ _ (by decide)
    · exact .refl _ _
  · exact .refl _ _

theorem FlagsOnly.dirtyByHit (s : State) (ch : WalkChoice) (la : Word) (e : TlbEntry) :
    FlagsOnly 0x9F s (s.dirtyByHit ch la e) := by
  unfold State.dirtyByHit
  split
  · exact .refl _ _
  · extract_lets p s1
    have h1 : FlagsOnly 0x9F s s1 := by
      simp only [s1]
      split
      · exact .dirtyByWalk _ _ _
      · exact .refl _ _
    split
    · exact h1.trans (.onSelf _ _ _ rfl)
    · exact h1

/-- A translation changes flags and caches alone. -/
theorem FlagsOnly.translateWith (s : State) (ch : WalkChoice) (la : Word) (k : Kind) (priv : Priv) :
    FlagsOnly 0x9F s (s.translateWith ch la k priv).2 := by
  unfold State.translateWith
  split
  · exact .refl _ _
  · split
    · extract_lets t
      split
      · show FlagsOnly 0x9F s (if _ then _ else _)
        split
        · exact .dirtyByHit _ _ _ _
        · exact .refl _ _
      · exact .refl _ _
    · split
      · extract_lets t
        split
        · show FlagsOnly 0x9F s (if _ then _ else _)
          split
          · exact ((FlagsOnly.fillHops _ _ _ _ _ _).weaken).trans (.dirtyByWalk _ _ _)
          · exact (FlagsOnly.fillHops _ _ _ _ _ _).weaken
        · exact (FlagsOnly.fillHops _ _ _ _ _ _).weaken
      · exact (FlagsOnly.fillHops _ _ _ _ _ _).weaken

theorem FlagsOnly.translate (s : State) (la : Word) (k : Kind) (priv : Priv) :
    FlagsOnly 0x9F s (s.translate la k priv).2 :=
  (FlagsOnly.tick _ s).trans (.translateWith _ _ _ _ _)

/-- What the translations of an access leave, whether or not one of them faults. -/
def Placed.state : Placed → State
  | .ok _ s => s
  | .pageFault _ s => s

@[simp] theorem Placed.state_ok (ps : List (Nat × Nat × BitVec 3)) (s : State) :
    (Placed.ok ps s).state = s := rfl
@[simp] theorem Placed.state_pageFault (la : Word) (s : State) : (Placed.pageFault la s).state = s := rfl
@[simp] theorem Placed.reversed_state (p : Placed) : p.reversed.state = p.state := by cases p <;> rfl

/-- What the first translation leaves goes on to the others, unless it faults. -/
theorem State.placeInOrder_cons (s : State) (k : Kind) (priv : Priv) (la : Word) (n : Nat)
    (rest : List (Word × Nat)) :
    (s.placeInOrder k priv ((la, n) :: rest)).state = (s.translate la k priv).2 ∨
      (s.placeInOrder k priv ((la, n) :: rest)).state =
        ((s.translate la k priv).2.placeInOrder k priv rest).state := by
  simp only [State.placeInOrder]
  generalize s.translate la k priv = r
  obtain ⟨f, s1⟩ := r
  cases f with
  | ok pa mt =>
    refine .inr ?_
    simp only
    cases s1.placeInOrder k priv rest <;> rfl
  | pageFault => exact .inl rfl

theorem FlagsOnly.placeInOrder (s : State) (k : Kind) (priv : Priv) (parts : List (Word × Nat)) :
    FlagsOnly 0x9F s (s.placeInOrder k priv parts).state := by
  induction parts generalizing s with
  | nil => exact .refl _ _
  | cons part rest ih =>
    have ht := FlagsOnly.translate s part.1 k priv
    rcases s.placeInOrder_cons k priv part.1 part.2 rest with e | e <;> rw [e]
    · exact ht
    · exact ht.trans (ih _)

/-- All that `State.place` leaves: what translating the parts leaves, in the one order or the other. -/
theorem State.place_state (s : State) (k : Kind) (priv : Priv) (parts : List (Word × Nat)) :
    ∃ u order, (u = s ∨ u = s.tick) ∧ (order = parts ∨ order = parts.reverse) ∧
      (s.place k priv parts).state = (u.placeInOrder k priv order).state := by
  unfold State.place
  split
  · split
    · exact ⟨_, _, .inr rfl, .inr rfl, Placed.reversed_state _⟩
    · exact ⟨_, _, .inr rfl, .inl rfl, rfl⟩
  · exact ⟨_, _, .inl rfl, .inl rfl, rfl⟩

theorem FlagsOnly.place (s : State) (k : Kind) (priv : Priv) (parts : List (Word × Nat)) :
    FlagsOnly 0x9F s (s.place k priv parts).state := by
  obtain ⟨u, order, hu, -, e⟩ := s.place_state k priv parts
  rw [e]
  rcases hu with rfl | rfl
  · exact .placeInOrder _ _ _ _
  · exact (FlagsOnly.tick _ s).trans (.placeInOrder _ _ _ _)

/-! ### Invalidation -/

/-- The TLB entries left are those in neither a required nor an extra set (R220). -/
theorem Processor.mem_invalidate_tlb (l : Processor) (rt : TlbEntry → Bool)
    (rp : CacheKind → PscEntry → Bool) (xt : TlbEntry → Bool) (xp : CacheKind → PscEntry → Bool)
    (e : TlbEntry) :
    e ∈ (l.invalidate rt rp xt xp).tlb ↔ e ∈ l.tlb ∧ rt e = false ∧ xt e = false := by
  simp [Processor.invalidate]

/-- The same of the paging-structure caches (R220). -/
theorem Processor.mem_invalidate_psc (l : Processor) (rt : TlbEntry → Bool)
    (rp : CacheKind → PscEntry → Bool) (xt : TlbEntry → Bool) (xp : CacheKind → PscEntry → Bool)
    (k : CacheKind) (e : PscEntry) :
    e ∈ (l.invalidate rt rp xt xp).psc.get k ↔ e ∈ l.psc.get k ∧ rp k e = false ∧ xp k e = false := by
  simp [Processor.invalidate_psc_get]

/-- `State.invalidate` only invalidates (R220). -/
theorem OnlyInvalidated.invalidate (s : State) (rt : TlbEntry → Bool)
    (rp : CacheKind → PscEntry → Bool) : OnlyInvalidated s.draws rt rp s (s.invalidate rt rp) :=
  ⟨⟨rfl, rfl, fun _ => rfl, rfl⟩, rfl,
    s.self.mem_invalidate_tlb rt rp (Config.dropsTlb s.draws) (Config.dropsPsc s.draws),
    s.self.mem_invalidate_psc rt rp (Config.dropsTlb s.draws) (Config.dropsPsc s.draws)⟩

/-- An invalidation that serializes only invalidates, and ends what was seen of older memory. -/
theorem OnlyInvalidated.serialized (s : State) (rt : TlbEntry → Bool)
    (rp : CacheKind → PscEntry → Bool) :
    OnlyInvalidated s.draws rt rp s ((s.invalidate rt rp).onSelf Processor.serialize) ∧
      ((s.invalidate rt rp).onSelf Processor.serialize).self.window = [] :=
  ⟨⟨⟨rfl, rfl, fun _ => rfl, rfl⟩, rfl,
    s.self.mem_invalidate_tlb rt rp (Config.dropsTlb s.draws) (Config.dropsPsc s.draws),
    s.self.mem_invalidate_psc rt rp (Config.dropsTlb s.draws) (Config.dropsPsc s.draws)⟩, rfl⟩

/-! ### Exceptions -/

/-- #GP is taken by the operation `i` (R324, D22). -/
theorem TookGp.raiseGp (s : State) (i : Instr) : TookGp i s (s.raiseGp i) := by
  refine ⟨rfl, rfl, rfl, rfl, ?_⟩
  cases h : s.self.gpHandler <;>
    simp [State.raiseGp, State.deliver, State.onSelf, State.show, State.again, Processor.handled,
      Processor.handlerOf, h]

end Sys2Proof.Machine
end

