-- ==== Sys2Proof/Laws/Inv.lean ====
section
/-! SUPPORT. Each shared operation keeps the invariants of `Safety.lean` (R33 to R35, R123). -/

namespace Sys2Proof.Machine

/-- A TLB entry that the invariants allow a processor to hold. -/
structure Processor.GoodTlb (c : Params) (l : Processor) (e : TlbEntry) : Prop where
  pcid  : l.pcide = false → e.pcid = 0
  glob  : e.glob = true → l.pge = true
  size  : pageBits e.shift ≤ pageBits e.xshift
  frame : pageBits e.xshift ≤ c.maxPhyAddr → e.frame < 2 ^ (c.maxPhyAddr - pageBits e.shift)
  on    : l.pg = true

/-- A paging-structure-cache entry that the invariants allow a processor to hold. -/
structure Processor.GoodPsc (c : Params) (l : Processor) (e : PscEntry) : Prop where
  pcid : l.pcide = false → e.pcid = 0
  hlat : c.hlatSupported = false → e.hlat = false
  addr : e.addr < 2 ^ c.maxPhyAddr
  on   : l.pg = true

theorem Processor.Inv.goodTlb {c : Params} {l : Processor} (h : l.Inv c) :
    ∀ e ∈ l.tlb, l.GoodTlb c e := by
  intro e he
  refine ⟨fun hp => h.tlbPcid hp e he, h.globals e he, h.sizes e he, h.frames e he, ?_⟩
  by_contra hpg
  rw [(h.pagingOff (by simpa using hpg)).1] at he
  cases he

theorem Processor.Inv.goodPsc {c : Params} {l : Processor} (h : l.Inv c) :
    ∀ k, ∀ e ∈ l.psc.get k, l.GoodPsc c e := by
  intro k e he
  refine ⟨fun hp => h.pscPcid hp k e he, fun hs => h.noHlat hs k e he, h.tables k e he, ?_⟩
  by_contra hpg
  rw [(h.pagingOff (by simpa using hpg)).2, Psc.get_empty] at he
  cases he

/-- The control registers that the invariants read are the same. -/
structure SameControl (l l' : Processor) : Prop where
  cr0  : l'.cr0 = l.cr0
  cr4  : l'.cr4 = l.cr4
  efer : l'.efer = l.efer

/-- The invariants are about the control registers and, entry by entry, about the caches. -/
theorem Processor.Inv.ofEntries {c : Params} {l l' : Processor} (h : l.Inv c)
    (r : SameControl l l') (ht : ∀ e ∈ l'.tlb, l.GoodTlb c e)
    (hp : ∀ k, ∀ e ∈ l'.psc.get k, l.GoodPsc c e) : l'.Inv c := by
  obtain ⟨r0, r4, re⟩ := r
  have pcide : l'.pcide = l.pcide := by simp [Processor.pcide, r4]
  have pge : l'.pge = l.pge := by simp [Processor.pge, r4]
  have pg : l'.pg = l.pg := by simp [Processor.pg, r0]
  have lma : l'.lma = l.lma := by simp [Processor.lma, re]
  have lme : l'.lme = l.lme := by simp [Processor.lme, re]
  refine ⟨?_, ?_, ?_, ?_, ?_, ?_, ?_, ?_, ?_, ?_, ?_⟩
  · rw [pcide]; exact fun x e he => (ht e he).pcid x
  · rw [pcide]; exact fun x k e he => (hp k e he).pcid x
  · rw [pcide, lma, pg]; exact h.pcideMode
  · rw [pcide]; exact h.pcideAllowed
  · rw [lma, lme, pg]; exact h.lmaIs
  · rw [pg]
    intro x
    refine ⟨List.eq_nil_iff_forall_not_mem.2 fun e he => ?_, Psc.eq_empty _ fun k =>
      List.eq_nil_iff_forall_not_mem.2 fun e he => ?_⟩
    · simpa [x] using (ht e he).on
    · simpa [x] using (hp k e he).on
  · rw [pge]; exact fun e he => (ht e he).glob
  · exact fun e he => (ht e he).size
  · exact fun e he => (ht e he).frame
  · exact fun k e he => (hp k e he).addr
  · exact fun x k e he => (hp k e he).hlat x

/-- A change outside the control registers and the caches keeps the invariants. -/
theorem Processor.Inv.same {c : Params} {l l' : Processor} (h : l.Inv c) (r : SameControl l l')
    (t : l'.tlb = l.tlb) (p : l'.psc = l.psc) : l'.Inv c :=
  h.ofEntries r (by rw [t]; exact h.goodTlb) (by rw [p]; exact h.goodPsc)

theorem Processor.Inv.invalidate {c : Params} {l : Processor} (h : l.Inv c)
    (rt : TlbEntry → Bool) (rp : CacheKind → PscEntry → Bool) (xt : TlbEntry → Bool)
    (xp : CacheKind → PscEntry → Bool) : (l.invalidate rt rp xt xp).Inv c :=
  h.ofEntries ⟨rfl, rfl, rfl⟩
    (fun e he => h.goodTlb e ((l.mem_invalidate_tlb rt rp xt xp e).1 he).1)
    (fun k e he => h.goodPsc k e ((l.mem_invalidate_psc rt rp xt xp k e).1 he).1)

theorem Processor.Inv.pushWindow {c : Params} {l : Processor} (h : l.Inv c) (m : Memory) :
    (l.pushWindow m).Inv c :=
  h.same ⟨rfl, rfl, rfl⟩ rfl rfl

theorem Processor.Inv.serialize {c : Params} {l : Processor} (h : l.Inv c) : l.serialize.Inv c :=
  h.same ⟨rfl, rfl, rfl⟩ rfl rfl

/-! ### States -/

theorem State.Inv.onSelf {s : State} (h : s.Inv) {f : Processor → Processor}
    (hf : (f s.self).Inv s.cfg) : (s.onSelf f).Inv := ⟨h.mem, hf, h.others⟩

theorem State.Inv.tick {s : State} (h : s.Inv) : s.tick.Inv := ⟨h.mem, h.self, h.others⟩

theorem State.Inv.show {s : State} (h : s.Inv) (e : Event) : (s.show e).Inv :=
  ⟨h.mem, h.self, h.others⟩

theorem State.Inv.store {s : State} (h : s.Inv) (k : Nat) (bs : List Byte) : (s.store k bs).Inv := by
  refine ⟨Memory.writeBytes_keeps_wf _ _ _ h.mem, h.self.pushWindow _, ?_⟩
  simp only [State.store_others, List.mem_map, State.store_cfg]
  rintro l ⟨l0, h0, rfl⟩
  exact (h.others l0 h0).pushWindow _

theorem State.Inv.setFlag {s : State} (h : s.Inv) (k bit : Nat) : (s.setFlag k bit).Inv :=
  h.store _ _

theorem State.Inv.setAccessed {s : State} (h : s.Inv) (p : Hop) : (s.setAccessed p).Inv := by
  unfold State.setAccessed
  split
  · split
    · exact h
    · exact h.setFlag _ _
  · exact h

theorem State.Inv.invalidate {s : State} (h : s.Inv) (rt : TlbEntry → Bool)
    (rp : CacheKind → PscEntry → Bool) : (s.invalidate rt rp).Inv :=
  (h.onSelf (h.self.invalidate _ _ _ _)).tick

theorem State.Inv.serialized {s : State} (h : s.Inv) : (s.onSelf Processor.serialize).Inv :=
  h.onSelf h.self.serialize

/-! ### Entries made -/

theorem pick_mem {α : Type} (n : Nat) (d : α) (l : List α) : pick n d l = d ∨ pick n d l ∈ l := by
  unfold pick
  split
  · exact .inl rfl
  · exact .inr (by simp)
  · rename_i x y xs
    refine .inr ?_
    have hl : n % (xs.length + 2) < (x :: y :: xs).length := by
      exact Nat.mod_lt n (Nat.succ_pos (xs.length + 1))
    rw [List.getD_eq_getElem _ _ hl]
    exact List.getElem_mem hl

theorem Processor.pg_of_mode {l : Processor} (h : l.pagingMode ≠ .none) : l.pg = true := by
  by_contra hpg
  exact h (by simp [Processor.pagingMode, hpg])

/-- The address in an entry is one of `MAXPHYADDR` bits, and that of a page is a multiple of the page's size
(R61, R141, R191). -/
theorem entryAddr_spec (width : Nat) (m : PagingMode) (k : Level) (maps : Bool) (raw : Word) :
    entryAddr width m k maps raw < 2 ^ width ∧
      (maps = true → mapsPage m k true true = true →
        entryAddr width m k maps raw % 2 ^ pageBits (nativeSize m k) = 0) := by
  have low : ∀ a n : Nat, (a <<< n) % 2 ^ width % 2 ^ n = 0 := by
    intro a n
    rw [Nat.shiftLeft_eq]
    rcases Nat.le_total n width with h | h
    · rw [Nat.mod_mod_of_dvd _ (pow_dvd_pow 2 h), Nat.mul_mod_left]
    · have : a * 2 ^ n % 2 ^ width = 0 :=
        Nat.mod_eq_zero_of_dvd ((pow_dvd_pow 2 h).mul_left a)
      rw [this, Nat.zero_mod]
  unfold entryAddr
  split
  · rename_i hm
    subst hm
    refine ⟨Nat.mod_lt _ (by positivity), fun hk hp => ?_⟩
    subst hk
    cases k <;> simp only [mapsPage, PagingMode.ia32e, Bool.and_false, Bool.false_eq_true] at hp
    · have e : ∀ a b : Nat, a <<< 22 + b <<< 32 = (a + b <<< 10) <<< 22 := by
        intro a b; simp only [Nat.shiftLeft_eq]; omega
      simp only [Bool.true_and, beq_self_eq_true, if_true, e, nativeSize, pageBits]
      exact low _ 22
    · exact low _ 12
  · extract_lets lo
    refine ⟨?_, fun hk _ => ?_⟩
    · have h12 : 1 ≤ lo := by
        simp only [lo]; split
        · cases nativeSize m k <;> decide
        · decide
      simp only [slice, Nat.shiftLeft_eq]
      rcases Nat.lt_or_ge lo width with h | h
      · have e : 2 ^ width = 2 ^ (width - 1 + 1 - lo) * 2 ^ lo := by
          rw [← pow_add]; congr 1; omega
        rw [e]
        exact Nat.mul_lt_mul_of_pos_right (Nat.mod_lt _ (by positivity)) (by positivity)
      · rw [show width - 1 + 1 - lo = 0 by omega, pow_zero, Nat.mod_one, Nat.zero_mul]
        positivity
    · simp only [lo, hk, if_true, Nat.shiftLeft_eq, Nat.mul_mod_left]

/-- The entry used comes from bits of a paging-structure entry of its level (R66, R67). -/
def Hop.FromEntry (c : Params) (l : Processor) (h : Hop) : Prop :=
  ∃ raw, h.view = viewOf c.maxPhyAddr l.pagingMode h.level l.nxe l.pse raw

theorem Hop.FromEntry.addr_lt {c : Params} {l : Processor} {h : Hop} (f : h.FromEntry c l) :
    h.view.addr < 2 ^ c.maxPhyAddr := by
  obtain ⟨raw, e⟩ := f
  rw [e]
  exact (entryAddr_spec _ _ _ _ _).1

theorem mapsPage_of {m : PagingMode} {k : Level} {ps pse : Bool} (h : mapsPage m k ps pse = true) :
    mapsPage m k true true = true := by
  cases k <;> simp_all [mapsPage]

/-- A page's physical address has as many bits as a physical address, or as the page's offset if that has more
(R65, R191). -/
theorem Hop.FromEntry.pa_lt {c : Params} {l : Processor} {h : Hop} (f : h.FromEntry c l)
    (hm : h.view.maps = true) (cap : Option PageSize) (la : Word)
    (hw : pageBits (h.pageSize l.pagingMode cap) ≤ c.maxPhyAddr) :
    h.pa l.pagingMode cap la < 2 ^ c.maxPhyAddr := by
  have lt := f.addr_lt
  obtain ⟨raw, e⟩ := f
  have al : h.view.addr % 2 ^ pageBits (nativeSize l.pagingMode h.level) = 0 := by
    rw [e] at hm ⊢
    exact (entryAddr_spec _ _ _ _ _).2 hm (mapsPage_of hm)
  have le : pageBits (h.pageSize l.pagingMode cap) ≤ pageBits (nativeSize l.pagingMode h.level) := by
    unfold Hop.pageSize
    split
    · exact le_rfl
    · unfold smallerPage; split
      · assumption
      · exact le_rfl
  unfold Hop.pa
  generalize pageBits (h.pageSize l.pagingMode cap) = n at hw le
  obtain ⟨q, hq⟩ := (pow_dvd_pow 2 le).trans (Nat.dvd_of_mod_eq_zero al)
  have e2 : 2 ^ c.maxPhyAddr = 2 ^ n * 2 ^ (c.maxPhyAddr - n) := by rw [← pow_add]; congr 1; omega
  have r : la.toNat % 2 ^ n < 2 ^ n := Nat.mod_lt _ (by positivity)
  rw [hq] at lt ⊢
  rw [e2] at lt ⊢
  have hlt := Nat.lt_of_mul_lt_mul_left lt
  calc 2 ^ n * q + la.toNat % 2 ^ n < 2 ^ n * (q + 1) := by rw [Nat.mul_add, Nat.mul_one]; omega
    _ ≤ 2 ^ n * 2 ^ (c.maxPhyAddr - n) := Nat.mul_le_mul_left _ hlt

/-- A TLB entry made is no larger than the translation it is cut from (R149). -/
theorem Processor.tlbEntryOf_size (l : Processor) (ch : WalkChoice) (cap : Option PageSize) (la : Word)
    (h : Hop) : pageBits (l.tlbEntryOf ch cap la h).shift ≤ pageBits (l.tlbEntryOf ch cap la h).xshift := by
  simp only [Processor.tlbEntryOf]
  rcases pick_mem ch.fracture (h.pageSize l.pagingMode cap)
    (l.pagingMode.pageSizes.filter
      fun s => pageBits s ≤ pageBits (h.pageSize l.pagingMode cap)) with e | e
  · rw [e]
  · simpa using (List.mem_filter.1 e).2

/-- A TLB entry made by a fill (R126, R141, R149, R151, R29). -/
theorem Processor.goodTlb_made (c : Params) (l : Processor) (ch : WalkChoice) (cap : Option PageSize)
    (la : Word) (h : Hop) (on : l.pg = true) (f : h.FromEntry c l) (hm : h.view.maps = true) :
    l.GoodTlb c (l.tlbEntryOf ch cap la h) := by
  refine ⟨fun hp => ?_, fun hg => ?_, l.tlbEntryOf_size ch cap la h, fun hw => ?_, on⟩
  · simp [Processor.tlbEntryOf, Processor.curPcid, hp]
  · simp only [Processor.tlbEntryOf, Bool.and_eq_true] at hg
    exact hg.1
  · have lt := f.pa_lt hm cap la hw
    show h.pa l.pagingMode cap la >>> pageBits (l.tlbEntryOf ch cap la h).shift < _
    rw [Nat.shiftRight_eq_div_pow]
    refine Nat.div_lt_of_lt_mul ?_
    rw [← pow_add]
    convert lt using 2
    have := (l.tlbEntryOf_size ch cap la h).trans hw
    omega

/-- A paging-structure-cache entry made by a fill (R126, R172, R30). -/
theorem Processor.goodPsc_made (c : Params) (l : Processor) (k : CacheKind) (la : Word) (h : Hop)
    (on : l.pg = true) (f : h.FromEntry c l) (hh : c.hlatSupported = false → h.hlat = false) :
    l.GoodPsc c (l.pscEntryOf k la h) := by
  refine ⟨fun hp => ?_, fun hs => ?_, f.addr_lt, on⟩
  · simp [Processor.pscEntryOf, Processor.curPcid, hp]
  · simpa [Processor.pscEntryOf] using hh hs

theorem Processor.Inv.addTlb {c : Params} {l : Processor} (h : l.Inv c) (e : TlbEntry)
    (he : l.GoodTlb c e) : (l.addTlb e).Inv c := by
  unfold Processor.addTlb
  split
  · exact h
  · refine h.ofEntries ⟨rfl, rfl, rfl⟩ (fun x hx => ?_) h.goodPsc
    rcases List.mem_cons.1 hx with rfl | hx
    · exact he
    · exact h.goodTlb x hx

theorem Processor.mem_addPsc (l : Processor) (k j : CacheKind) (e x : PscEntry)
    (hx : x ∈ (l.addPsc k e).psc.get j) : (j = k ∧ x = e) ∨ x ∈ l.psc.get j := by
  by_cases hj : j = k
  · subst hj
    simp only [Processor.addPsc, Psc.get_update_same] at hx
    split at hx
    · exact .inr hx
    · rcases List.mem_cons.1 hx with rfl | hx
      · exact .inl ⟨rfl, rfl⟩
      · exact .inr hx
  · rw [Processor.addPsc, Psc.get_update_ne _ _ _ _ hj] at hx
    exact .inr hx

theorem Processor.Inv.addPsc {c : Params} {l : Processor} (h : l.Inv c) (k : CacheKind) (e : PscEntry)
    (he : l.GoodPsc c e) : (l.addPsc k e).Inv c := by
  refine h.ofEntries ⟨rfl, rfl, rfl⟩ h.goodTlb (fun j x hx => ?_)
  rcases l.mem_addPsc k j e x hx with ⟨-, rfl⟩ | hx
  · exact he
  · exact h.goodPsc j x hx

/-! ### Walks and fills -/

/-- What holds of an entry however it was read holds of every entry that a walk used. -/
theorem Processor.walk_all (l : Processor) (c : Params) (moment : Nat → Past) (hlat : Bool) (la : Word)
    (P : Hop → Prop) (hP : ∀ h : Hop, h.hlat = hlat → h.FromEntry c l → P h) (ks : List Level)
    (table : Nat) (acc : Rights) (i : Nat) : ∀ h ∈ (l.walk c moment hlat la ks table acc i).1, P h := by
  induction ks generalizing table acc i with
  | nil => simp [Processor.walk]
  | cons k ks ih =>
    have read : ∃ raw, (l.readPse c (moment i).mem k table la).2 =
        viewOf c.maxPhyAddr l.pagingMode k l.nxe l.pse raw := by
      simp only [Processor.readPse]
      split <;> exact ⟨_, rfl⟩
    unfold Processor.walk
    extract_lets r v hop rest
    have hop' : P hop := hP hop rfl read
    split
    · simp
    · split
      · simpa using hop'
      · split
        · simpa using hop'
        · simp only [List.mem_cons, forall_eq_or_imp]
          exact ⟨hop', ih _ _ _⟩

theorem Processor.ordinaryWalk_all (l : Processor) (c : Params) (moment : Nat → Past) (la : Word)
    (r : Route) (i : Nat) : ∀ h ∈ (l.ordinaryWalk c moment la r i).1, h.hlat = false ∧ h.FromEntry c l := by
  unfold Processor.ordinaryWalk
  split <;> exact l.walk_all _ _ _ _ _ (fun h q f => ⟨q, f⟩) _ _ _ _

/-- Every entry of a path comes from a paging-structure entry (R67). -/
theorem Processor.path_fromEntry (l : Processor) (c : Params) (moment : Nat → Past) (ch : WalkChoice)
    (la : Word) (r : Route) : ∀ h ∈ (l.path c moment ch la r).hops, h.FromEntry c l := by
  have ord : ∀ r i, ∀ h ∈ (l.ordinaryWalk c moment la r i).1, h.FromEntry c l :=
    fun r i h hh => (l.ordinaryWalk_all _ _ _ _ _ h hh).2
  have re : ∀ hops k, (∀ h ∈ hops, h.FromEntry c l) →
      ∀ h ∈ (l.restarted c moment ch la hops k).hops, h.FromEntry c l := by
    intro hops k hh h hm
    rcases List.mem_append.1 hm with q | q
    · exact hh h q
    · exact ord _ _ h q
  have hl : ∀ ks table acc, ∀ h ∈ (l.hlatPath c moment ch la ks table acc).hops, h.FromEntry c l := by
    intro ks table acc
    have w := l.walk_all c moment true la (fun h => h.FromEntry c l) (fun h _ f => f) ks table acc 0
    unfold Processor.hlatPath
    generalize l.walk c moment true la ks table acc 0 = x at w
    obtain ⟨hops, ends⟩ := x
    cases ends with
    | restart k => exact re hops k w
    | mapped => exact w
    | notPresent => exact w
  cases r with
  | hlatRoot => exact hl _ _ _
  | psc k e =>
    simp only [Processor.path]
    split
    · split
      · exact re _ _ (by simp)
      · exact hl _ _ _
    · exact ord _ _
  | tlb e => exact ord _ _
  | root => exact ord _ _

/-- A route that no HLAT paging takes part in. -/
def Route.ordinary : Route → Prop
  | .tlb _ => True
  | .psc _ e => e.hlat = false
  | .root => True
  | .hlatRoot => False

theorem Processor.path_hlat (l : Processor) (c : Params) (moment : Nat → Past) (ch : WalkChoice)
    (la : Word) (r : Route) (hr : r.ordinary) :
    ∀ h ∈ (l.path c moment ch la r).hops, h.hlat = false := by
  cases r with
  | hlatRoot => exact hr.elim
  | psc k e =>
    simp only [Route.ordinary] at hr
    simp only [Processor.path, hr, Bool.false_eq_true, if_false]
    exact fun h hh => (l.ordinaryWalk_all _ _ _ _ _ h hh).1
  | tlb e => exact fun h hh => (l.ordinaryWalk_all _ _ _ _ _ h hh).1
  | root => exact fun h hh => (l.ordinaryWalk_all _ _ _ _ _ h hh).1

/-- Without HLAT support every route is of ordinary paging (R185). -/
theorem Processor.routes_ordinary (l : Processor) (c : Params) (la : Word)
    (hs : c.hlatSupported = false) : ∀ r ∈ l.routes c la, r.ordinary := by
  intro r hr
  simp only [Processor.routes, Processor.walkRoutes, Processor.pscRoutes, hs, Bool.false_and,
    Bool.false_eq_true, if_false, List.append_nil, List.mem_append, List.mem_map,
    List.mem_flatMap, List.mem_filter, List.mem_singleton] at hr
  rcases hr with ⟨e, -, rfl⟩ | ⟨k, -, e, ⟨-, he⟩, rfl⟩ | rfl
  · trivial
  · simp only [Bool.and_eq_true, beq_iff_eq] at he
    exact he.2
  · trivial

theorem State.picked_ordinary (s : State) (ch : WalkChoice) (la : Word)
    (hs : s.cfg.hlatSupported = false) :
    (pick ch.route .root (s.self.routes s.cfg la)).ordinary := by
  rcases pick_mem ch.route .root (s.self.routes s.cfg la) with e | e
  · rw [e]; trivial
  · exact s.self.routes_ordinary _ _ hs _ e

theorem State.Inv.cacheHop {s : State} (hi : s.Inv) (on : s.self.pg = true) (ch : WalkChoice)
    (cap : Option PageSize) (la : Word) (h : Hop) (hf : h.FromEntry s.cfg s.self)
    (hh : s.cfg.hlatSupported = false → h.hlat = false) : (s.cacheHop ch cap la h).Inv := by
  rcases s.cacheHop_cases ch cap la h with e | ⟨hm, -, -, e⟩ | ⟨k, -, -, -, -, e⟩ <;> rw [e]
  · exact hi
  · exact hi.onSelf (hi.self.addTlb _ (s.self.goodTlb_made _ _ _ _ _ on hf hm))
  · exact hi.onSelf (hi.self.addPsc _ _ (s.self.goodPsc_made _ _ _ _ on hf hh))

theorem OnlyCaches.pg {l l' : Processor} (h : OnlyCaches l l') : l'.pg = l.pg := by
  rw [h]; rfl

theorem Hop.FromEntry.onlyCaches {c : Params} {l l' : Processor} {h : Hop} (f : h.FromEntry c l)
    (o : OnlyCaches l l') : h.FromEntry c l' := by
  obtain ⟨raw, e⟩ := f
  exact ⟨raw, by rw [e, o]; rfl⟩

theorem State.Inv.fillHops {s : State} (hi : s.Inv) (on : s.self.pg = true) (ch : WalkChoice)
    (cap : Option PageSize) (la : Word) (hs : List Hop) (i : Nat)
    (hf : ∀ h ∈ hs, h.FromEntry s.cfg s.self)
    (hh : s.cfg.hlatSupported = false → ∀ h ∈ hs, h.hlat = false) :
    (s.fillHops ch cap la hs i).Inv := by
  induction hs generalizing s i with
  | nil => exact hi
  | cons h hs ih =>
    unfold State.fillHops
    extract_lets s1 s2
    have f1 : FlagsOnly 0xDF s s1 := FlagsOnly.setAccessed s h
    have i1 : s1.Inv := hi.setAccessed h
    have on1 : s1.self.pg = true := by rw [f1.registers.pg]; exact on
    have f2 : FlagsOnly 0xDF s1 s2 := by
      simp only [s2]; split
      · exact .cacheHop _ _ _ _ _ _
      · exact .refl _ _
    have i2 : s2.Inv := by
      simp only [s2]; split
      · refine i1.cacheHop on1 _ _ _ _ ?_ (fun x => hh (by rw [← f1.cfg]; exact x) h (by simp))
        rw [f1.cfg]; exact (hf h (by simp)).onlyCaches f1.registers
      · exact i1
    refine ih i2 (by rw [f2.registers.pg]; exact on1) _ (fun q hq => ?_) fun x q hq => ?_
    · rw [f2.cfg, f1.cfg]
      exact (hf q (by simp [hq])).onlyCaches (f1.registers.trans f2.registers)
    · exact hh (by rw [← f1.cfg, ← f2.cfg]; exact x) q (by simp [hq])

theorem State.Inv.fillWith {s : State} (hi : s.Inv) (ch : WalkChoice) (la : Word) :
    (s.fillWith ch la).Inv := by
  unfold State.fillWith
  split
  · exact hi
  · rename_i hm
    have hr := s.picked_ordinary ch la
    generalize pick ch.route Route.root (s.self.routes s.cfg la) = r at hr
    split
    · exact hi
    · exact hi.fillHops (Processor.pg_of_mode hm) _ _ _ _ _
        (fun h hh => s.self.path_fromEntry _ _ _ _ _ h (List.mem_of_mem_take hh))
        fun x h hh => s.self.path_hlat _ _ _ _ _ (hr x) h (List.mem_of_mem_take hh)

theorem State.Inv.fill {s : State} (hi : s.Inv) (la : Word) : (s.fill la).Inv :=
  hi.tick.fillWith _ _

/-! ### Translations and accesses -/

theorem State.Inv.dirtyByWalk {s : State} (hi : s.Inv) (ch : WalkChoice) (p : Path) :
    (s.dirtyByWalk ch p).Inv := by
  unfold State.dirtyByWalk
  split
  · split
    · exact hi.setFlag _ _
    · exact hi
  · exact hi

theorem State.Inv.dirtyByHit {s : State} (hi : s.Inv) (ch : WalkChoice) (la : Word) (e : TlbEntry) :
    (s.dirtyByHit ch la e).Inv := by
  unfold State.dirtyByHit
  split
  · exact hi
  · extract_lets p s1
    have i1 : s1.Inv := by
      simp only [s1]; split
      · exact hi.dirtyByWalk _ _
      · exact hi
    split
    · refine i1.onSelf (i1.self.ofEntries ⟨rfl, rfl, rfl⟩ (fun x hx => ?_) i1.self.goodPsc)
      obtain ⟨y, hy, rfl⟩ := List.mem_map.1 hx
      have g := i1.self.goodTlb y hy
      split
      · exact ⟨g.pcid, g.glob, g.size, g.frame, g.on⟩
      · exact g
    · exact i1

theorem State.located_fromEntry (s : State) (ch : WalkChoice) (la : Word) (p : Path)
    (h : s.locate ch la = .walked p) : ∀ q ∈ p.hops, q.FromEntry s.cfg s.self := by
  unfold State.locate at h
  split at h
  · cases h
  · cases h
    exact s.self.path_fromEntry _ _ _ _ _

theorem State.located_hops (s : State) (ch : WalkChoice) (la : Word) (p : Path)
    (h : s.locate ch la = .walked p) (hs : s.cfg.hlatSupported = false) :
    ∀ q ∈ p.hops, q.hlat = false := by
  have hr := s.picked_ordinary ch la hs
  unfold State.locate at h
  generalize pick ch.route Route.root (s.self.routes s.cfg la) = r at hr h
  split at h
  · cases h
  · cases h
    exact s.self.path_hlat _ _ _ _ _ hr

theorem State.Inv.translateWith {s : State} (hi : s.Inv) (ch : WalkChoice) (la : Word) (k : Kind)
    (priv : Priv) : (s.translateWith ch la k priv).2.Inv := by
  unfold State.translateWith
  split
  · exact hi
  · rename_i hm
    have on := Processor.pg_of_mode hm
    split
    · extract_lets t
      split
      · show State.Inv (if _ then _ else _)
        split
        · exact hi.dirtyByHit _ _ _
        · exact hi
      · exact hi
    · rename_i p hp
      have hh := s.located_hops ch la p hp
      have hf := s.located_fromEntry ch la p hp
      have part : (s.fillHops ch p.cap la (p.hops.take ch.depth) 0).Inv :=
        hi.fillHops on _ _ _ _ _ (fun q hq => hf q (List.mem_of_mem_take hq))
          fun x q hq => hh x q (List.mem_of_mem_take hq)
      have whole : (s.fillHops ch p.cap la p.hops 0).Inv := hi.fillHops on _ _ _ _ _ hf hh
      split
      · extract_lets t
        split
        · show State.Inv (if _ then _ else _)
          split
          · exact whole.dirtyByWalk _ _
          · exact whole
        · exact part
      · exact part

theorem State.Inv.translate {s : State} (hi : s.Inv) (la : Word) (k : Kind) (priv : Priv) :
    (s.translate la k priv).2.Inv := hi.tick.translateWith _ _ _ _

theorem State.Inv.placeInOrder {s : State} (hi : s.Inv) (k : Kind) (priv : Priv)
    (parts : List (Word × Nat)) : (s.placeInOrder k priv parts).state.Inv := by
  induction parts generalizing s with
  | nil => exact hi
  | cons part rest ih =>
    have ht := hi.translate part.1 k priv
    rcases s.placeInOrder_cons k priv part.1 part.2 rest with e | e <;> rw [e]
    · exact ht
    · exact ih ht

theorem State.Inv.place {s : State} (hi : s.Inv) (k : Kind) (priv : Priv) (parts : List (Word × Nat)) :
    (s.place k priv parts).state.Inv := by
  obtain ⟨u, order, hu, -, e⟩ := s.place_state k priv parts
  rw [e]
  rcases hu with rfl | rfl
  · exact hi.placeInOrder _ _ _
  · exact hi.tick.placeInOrder _ _ _

theorem State.Inv.showRead {s : State} (hi : s.Inv) (pa n : Nat) (k : Kind) (mt : BitVec 3) :
    (s.showRead pa n k mt).Inv := by
  unfold State.showRead
  extract_lets s1
  have : s1.Inv := hi.show _
  split
  · exact this.show _
  · exact this

theorem State.Inv.readParts {s : State} (hi : s.Inv) (k : Kind)
    (parts : List (Nat × Nat × BitVec 3)) : (s.readParts k parts).2.Inv := by
  induction parts generalizing s with
  | nil => exact hi
  | cons p rest ih => exact ih (hi.showRead _ _ _ _)

theorem State.Inv.writeParts {s : State} (hi : s.Inv) (parts : List (Nat × Nat × BitVec 3))
    (bs : List Byte) : (s.writeParts parts bs).Inv := by
  induction parts generalizing s bs with
  | nil => exact hi
  | cons p rest ih => exact ih ((hi.store _ _).show _) _

/-- The state an access leaves, whether or not it faults. -/
def Accessed.state : Accessed → State
  | .done _ s => s
  | .pageFault _ s => s

@[simp] theorem Accessed.state_done (bs : List Byte) (s : State) : (Accessed.done bs s).state = s := rfl
@[simp] theorem Accessed.state_pageFault (la : Word) (s : State) :
    (Accessed.pageFault la s).state = s := rfl

theorem State.Inv.accessOnce {s : State} (hi : s.Inv) (la : Word) (req : Request) (priv : Priv) :
    (s.accessOnce la req priv).state.Inv := by
  unfold State.accessOnce
  have hp := hi.place (requestKind req) priv (splitPages (requestSize req) la (requestSize req))
  generalize s.place _ _ _ = q at hp
  cases q with
  | pageFault a s1 => exact hp
  | ok parts s1 =>
    have i1 : s1.Inv := hp
    cases req
    · exact i1.readParts _ _
    · exact i1.writeParts _ _
    · exact i1.readParts _ _

theorem State.Inv.accessPieces {s : State} (hi : s.Inv) (la : Word) (req : Request) (priv : Priv)
    (pieces : List (Nat × Nat)) : (s.accessPieces la req priv pieces).state.Inv := by
  induction pieces generalizing s with
  | nil => exact hi
  | cons p rest ih =>
    obtain ⟨off, n⟩ := p
    unfold State.accessPieces
    have ha := hi.accessOnce (la + BitVec.ofNat 64 off) (requestPiece req off n) priv
    generalize s.accessOnce _ _ _ = q at ha
    cases q with
    | pageFault a s1 => exact ha
    | done bytes s1 =>
      have := ih (s := s1) ha
      simp only
      generalize s1.accessPieces la req priv rest = r at this
      cases r <;> exact this

theorem State.Inv.accessLinear {s : State} (hi : s.Inv) (la : Word) (req : Request) (priv : Priv) :
    (s.accessLinear la req priv).state.Inv :=
  hi.tick.accessPieces _ _ _ _

theorem State.Inv.speculativeRead {s : State} (hi : s.Inv) (la : Word) : (s.speculativeRead la).Inv := by
  unfold State.speculativeRead State.speculativeReadWith
  have shown : ∀ (t : State) (pa : Nat), t.Inv → (t.showSpeculative pa).Inv := by
    intro t pa ht
    unfold State.showSpeculative
    extract_lets s1
    split
    · exact (ht.show _).show _
    · exact ht.show _
  have ht := hi.tick
  split
  · exact ht
  · rename_i hm
    split
    · exact shown _ _ ht
    · rename_i p hp
      extract_lets s1
      have i1 : s1.Inv := ht.fillHops (Processor.pg_of_mode hm) _ _ _ _ _
        (fun q hq => s.tick.located_fromEntry _ la p hp q (List.mem_of_mem_take hq))
        fun x q hq => s.tick.located_hops _ la p hp x q (List.mem_of_mem_take hq)
      split
      · exact shown _ _ i1
      · exact i1

/-! ### Exceptions and control registers -/

theorem State.Inv.deliver {s : State} (hi : s.Inv) (x : Exception) (h : Option Handler)
    (again : List Item) : (s.deliver x h again).Inv :=
  (hi.onSelf (hi.self.same ⟨rfl, rfl, rfl⟩ rfl rfl)).show _

theorem State.Inv.raiseGp {s : State} (hi : s.Inv) (i : Instr) : (s.raiseGp i).Inv := hi.deliver _ _ _

theorem State.Inv.raisePf {s : State} (hi : s.Inv) (la : Word) (k : Kind) (priv : Priv)
    (again : List Item) : (s.raisePf la k priv again).Inv := by
  have h0 := hi.invalidate (s.self.faultTlb la) (s.self.pscFor s.self.curPcid la)
  have h1 : (s.faultInvalidate la).Inv := h0.onSelf (h0.self.same ⟨rfl, rfl, rfl⟩ rfl rfl)
  exact (h1.onSelf (h1.self.same ⟨rfl, rfl, rfl⟩ rfl rfl)).deliver _ _ _

theorem Processor.Inv.setCr3 {c : Params} {l : Processor} (h : l.Inv c) (p : Params) (m : Memory)
    (v : Word) : (l.setCr3 p m v).Inv c := by
  unfold Processor.setCr3 Processor.loadPdptrs
  split
  · exact h.same ⟨rfl, rfl, rfl⟩ rfl rfl
  · exact h.same ⟨rfl, rfl, rfl⟩ rfl rfl

theorem eferWithLma_lme (v : Word) (pg : Bool) : eferLme (eferWithLma v pg) = eferLme v := by
  unfold eferWithLma eferLme
  split <;> simp

theorem eferWithLma_lma (v : Word) (pg : Bool) :
    eferLma (eferWithLma v pg) = (eferLme v && pg) := by
  unfold eferWithLma eferLma
  split <;> simp_all

/-- A write of CR0 that leaves `CR0.PG` set or the caches empty keeps the invariants (R34, R123). -/
theorem Processor.Inv.setCr0 {c : Params} {l : Processor} (h : l.Inv c) (v : Word)
    (hp : l.pcide = true → cr0Pg v = true)
    (he : cr0Pg v = false → l.tlb = [] ∧ l.psc = Psc.empty) : (l.setCr0 v).Inv c where
  tlbPcid := h.tlbPcid
  pscPcid := h.pscPcid
  pcideMode := by
    intro x
    have x' : l.pcide = true := x
    have hm := h.pcideMode x'
    refine ⟨?_, hp x'⟩
    show eferLma (eferWithLma l.efer (cr0Pg v)) = true
    rw [eferWithLma_lma, hp x', Bool.and_true]
    have := h.lmaIs
    rw [hm.1, hm.2, Bool.and_true] at this
    exact this.symm
  pcideAllowed := h.pcideAllowed
  lmaIs := by
    show eferLma (eferWithLma l.efer (cr0Pg v)) = (eferLme (eferWithLma l.efer (cr0Pg v)) && cr0Pg v)
    rw [eferWithLma_lma, eferWithLma_lme]
  pagingOff := he
  globals := h.globals
  sizes := h.sizes
  frames := h.frames
  tables := h.tables
  noHlat := h.noHlat

/-- A write of CR4 that the checks of R124 and R109 let pass, after its invalidation (R235). -/
theorem Processor.Inv.setCr4 {c : Params} {l : Processor} (h : l.Inv c) (v : Word)
    (hp : cr4Pcide v = true → (l.lma = true ∧ l.pg = true) ∧ c.pcidSupported = true)
    (he : (cr4Pge v ≠ l.pge ∨ (l.pcide = true ∧ cr4Pcide v = false)) →
      l.tlb = [] ∧ l.psc = Psc.empty) : Processor.Inv c { l with cr4 := v } where
  tlbPcid := by
    intro x e hx
    by_cases hl : l.pcide = true
    · rw [show l.tlb = [] from (he (.inr ⟨hl, x⟩)).1] at hx; cases hx
    · exact h.tlbPcid (by simpa using hl) e hx
  pscPcid := by
    intro x k e hx
    by_cases hl : l.pcide = true
    · rw [show l.psc = Psc.empty from (he (.inr ⟨hl, x⟩)).2, Psc.get_empty] at hx; cases hx
    · exact h.pscPcid (by simpa using hl) k e hx
  pcideMode := fun x => (hp x).1
  pcideAllowed := fun x => (hp x).2
  lmaIs := h.lmaIs
  pagingOff := h.pagingOff
  globals := by
    intro e hx hg
    have := h.globals e hx hg
    by_contra hne
    have : cr4Pge v ≠ l.pge := by
      intro q
      exact hne (show cr4Pge v = true by rw [q]; exact this)
    rw [show l.tlb = [] from (he (.inl this)).1] at hx; cases hx
  sizes := h.sizes
  frames := h.frames
  tables := h.tables
  noHlat := h.noHlat

/-- An invalidation of everything leaves nothing (R228, R230, R235). -/
theorem Processor.invalidate_all (l : Processor) (xt : TlbEntry → Bool)
    (xp : CacheKind → PscEntry → Bool) :
    (l.invalidate allTlb allPsc xt xp).tlb = [] ∧ (l.invalidate allTlb allPsc xt xp).psc = Psc.empty := by
  refine ⟨?_, Psc.eq_empty _ fun k => ?_⟩
  · simp [Processor.invalidate, allTlb]
  · simp [allPsc]

/-- An invalidation of an empty cache leaves it empty. -/
theorem Processor.invalidate_empty (l : Processor) (rt : TlbEntry → Bool)
    (rp : CacheKind → PscEntry → Bool) (xt : TlbEntry → Bool) (xp : CacheKind → PscEntry → Bool)
    (h : l.tlb = [] ∧ l.psc = Psc.empty) :
    (l.invalidate rt rp xt xp).tlb = [] ∧ (l.invalidate rt rp xt xp).psc = Psc.empty := by
  refine ⟨?_, Psc.eq_empty _ fun k => ?_⟩
  · simp [Processor.invalidate, h.1]
  · simp [h.2]

/-! ### Between operations -/

theorem State.Inv.backgroundStep {s : State} (hi : s.Inv) (a : BackgroundAction) :
    (s.backgroundStep a).Inv := by
  cases a with
  | fill la => exact hi.fill la
  | evict => exact hi.invalidate _ _
  | read la => exact hi.speculativeRead la

theorem State.Inv.backgroundSteps {s : State} (hi : s.Inv) (as : List BackgroundAction) :
    (s.backgroundSteps as).Inv := by
  induction as generalizing s with
  | nil => exact hi
  | cons a as ih => exact ih (hi.backgroundStep a)

theorem State.Inv.background {s : State} (hi : s.Inv) : s.background.Inv := by
  unfold State.background
  split
  · exact hi
  · exact hi.tick.backgroundSteps _

theorem State.Inv.rotate {s : State} (hi : s.Inv) : s.rotate.Inv := by
  unfold State.rotate
  split
  · exact hi
  · rename_i l ls hl
    refine ⟨hi.mem, hi.others l (by simp [hl]), fun q hq => ?_⟩
    rcases List.mem_append.1 hq with hq | hq
    · exact hi.others q (by simp [hl, hq])
    · rw [List.mem_singleton.1 hq]; exact hi.self

theorem State.Inv.rotateBy {s : State} (hi : s.Inv) (n : Nat) : (s.rotateBy n).Inv := by
  induction n generalizing s with
  | zero => exact hi
  | succ n ih => exact ih hi.rotate

theorem State.Inv.backgroundAll {s : State} (hi : s.Inv) (n : Nat) : (s.backgroundAll n).Inv := by
  induction n generalizing s with
  | zero => exact hi
  | succ n ih => exact ih hi.background.rotate

theorem State.Inv.between {s : State} (hi : s.Inv) : s.between.Inv := by
  unfold State.between State.handOver
  have h := hi.backgroundAll (s.others.length + 1)
  split
  · exact h
  · exact h.tick.rotateBy _

end Sys2Proof.Machine
end

