-- ==== Sys2Proof/Laws/PerInstr.lean ====
section
/-! SUPPORT. What holds of every instruction as syntax: its encoding, where it has one, is at least one
byte and at most `longestInstr` bytes long. -/

namespace Sys2Proof

theorem Disp.bytes_length_le (d : Disp) : d.bytes.length ≤ 4 := by
  cases d <;> simp [Disp.bytes, disp32Bytes]

theorem memBytes_length_le (reg : BitVec 3) (m : MemOperand) : (memBytes reg m).length ≤ 6 := by
  cases m with
  | base r d => have := d.bytes_length_le; simp [memBytes]; omega
  | direct d => simp [memBytes, disp32Bytes]
  | sib s i b d => have := d.bytes_length_le; simp [memBytes]; omega
  | sibDirect s i d => simp [memBytes, disp32Bytes]

end Sys2Proof

namespace Sys2Proof.Laws.EncodingFits

/-- The encoding of an instruction is 1 to `longestInstr` bytes long. -/
def Statement (i : Instr) : Prop :=
  ∀ bs, encode i = some bs → 1 ≤ bs.length ∧ bs.length ≤ longestInstr

theorem invlpg (m : MemOperand) : Statement (.invlpg m) := by
  intro bs h
  cases h
  exact ⟨by simp, Nat.le_trans (Nat.add_le_add_right (memBytes_length_le _ m) 2) (by decide)⟩

theorem invpcid (r : Reg) (m : MemOperand) : Statement (.invpcid r m) := by
  intro bs h
  have := memBytes_length_le r.toBits m
  cases h
  simp [longestInstr]; omega

theorem invpcidAddress (p : Pcid) (la : Word) : Statement (.invpcidAddress p la) := nofun

theorem invpcidContext (p : Pcid) : Statement (.invpcidContext p) := nofun

theorem invpcidAllGlobals : Statement .invpcidAllGlobals := nofun

theorem invpcidAll : Statement .invpcidAll := nofun

theorem movToCr0 (r : Reg) : Statement (.movToCr0 r) := by
  intro bs h; cases h; simp [longestInstr]

theorem movToCr3 (r : Reg) : Statement (.movToCr3 r) := by
  intro bs h; cases h; simp [longestInstr]

theorem movToCr4 (r : Reg) : Statement (.movToCr4 r) := by
  intro bs h; cases h; simp [longestInstr]

theorem movFromCr (n : BitVec 3) (r : Reg) : Statement (.movFromCr n r) := by
  intro bs h; cases h; simp [longestInstr]

theorem hlt : Statement .hlt := by
  intro bs h; cases h; simp [longestInstr]

theorem taskSwitch (v : Word) : Statement (.taskSwitch v) := nofun

theorem vmxTransition : Statement .vmxTransition := nofun

theorem pageFault (la : Word) (k : Kind) (p : Priv) : Statement (.pageFault la k p) := nofun

theorem access (la : Word) (req : Request) (p : Priv) : Statement (.access la req p) := nofun

theorem fill (la : Word) : Statement (.fill la) := nofun

theorem evict (e : Eviction) : Statement (.evict e) := nofun

end Sys2Proof.Laws.EncodingFits
end

