-- ==== Sys2Proof/Tests/Slice0.lean ====
section
/-! SUPPORT. Tests. Expected values are those of spec/95_test_vectors.md (the vector is named in each
comment) or worked by hand from the rule named. A `witness_<Name>` theorem shows states and operands that
meet the hypotheses of `Obligations.<Name>`, one for each clause. -/

namespace Sys2Proof.Tests

-- One theorem after another: elaborated side by side, each waits for the kernel on a thread of its own, and
-- the threads' stacks together exceed the memory limit of the check.
set_option Elab.async false

open Sys2Proof.Machine

/-! ### States -/

/-- S1's processor (95_test_vectors.md B): 4-level paging, `CR4.PGE = 1`, PCIDs off, CR3 = 10_0000H. -/
def l4 : Processor :=
  { Processor.reset with cr0 := 0xE0000011, cr3 := 0x100000, cr4 := 0xA0, efer := 0x500 }

/-- S1's paging structures. -/
def s1Mem : Memory :=
  [(0x100000, 0x27), (0x100001, 0x10), (0x100002, 0x10), (0x101000, 0x27), (0x101001, 0x20),
    (0x101002, 0x10), (0x102000, 0x27), (0x102001, 0x30), (0x102002, 0x10), (0x103028, 0x25),
    (0x103029, 0x50), (0x10302A, 0x20), (0x103818, 0x63), (0x103819, 0x30), (0x10381A, 0x10)]

def s1 : State := { State.reset with self := l4, mem := s1Mem }

/-- S1 with a processor and memory changed. -/
def s1With (l : Processor) (m : Memory := s1Mem) : State := { s1 with self := l, mem := m }

/-- Every "may" taken, from the first start in line. -/
def every : WalkChoice :=
  { route := 0, restartRoute := 0, hlatRoot := 0, moments := [], creates := [true, true, true, true]
    depth := 4, fracture := 0, other := 0, dirty := 0 }

/-- A TLB entry of a 4-KByte page, made in 4-level paging. -/
def tlb (pcid : Pcid) (pn : Nat) (glob : Bool) : TlbEntry :=
  { mode := .l4, pcid, shift := .k4, pn, xshift := .k4, glob, frame := 0x205, rw := false, us := true
    xd := false, pkey := 0, dirty := false, memType := 0, other := 0 }

/-- An entry of a paging-structure cache, made in 4-level paging. -/
def psc (pcid : Pcid) (tag addr : Nat) : PscEntry :=
  { mode := .l4, pcid, tag, addr, rw := true, us := true, xd := false, pcd := false, pwt := false, hlat := false
    restart := false }

/-- Content K's processor (95_test_vectors.md B.4), with the current PCID and the source register. -/
def kOf (pcid : Word) (rax : Word := 0) : Processor :=
  { l4 with
    cr3 := 0x100000 ||| pcid, cr4 := 0x200A0, regs := { Gprs.reset with rax }
    tlb := [tlb 1 7 false, tlb 1 8 false, tlb 1 7 true, tlb 2 7 false, tlb 2 9 true]
    psc := { Psc.empty with pde := [psc 1 0 0, psc 1 3 0, psc 2 0 0] } }

/-- 32-bit paging with one 4-MByte page at linear and physical 0: present, every right, accessed, dirty.
The descriptor of `INVPCID` at 20H has PCID 000H and linear address 5000H. -/
def p32 (rax : Word := 0) : State :=
  { State.reset with
    self :=
      { Processor.reset with
        cr0 := 0xE0000011, cr3 := 0x1000, cr4 := 0x10
        regs := { Gprs.reset with rax, rsi := 0x20 } }
    mem := [(0x29, 0x50), (0x1000, 0xE7)] }

/-- The entry that maps `p32`'s page. -/
def p32Hop : Hop :=
  { level := .pde, hlat := false, place := some 0x1000, view := viewOf 52 .p32 .pde false true 0xE7
    rights := { rw := true, us := true, xd := false, pkey := 0 }, notFor := [] }

/-- A state with its general register `rax` set. -/
def rax (s : State) (v : Word) : State :=
  { s with self := { s.self with regs := { s.self.regs with rax := v } } }

/-- A state whose next operation is `i`. -/
def next (s : State) (i : Instr) : State :=
  { s with self := { s.self with program := [{ priv := .supervisor, work := .op i }] } }

/-- A state in user mode. -/
def user (s : State) : State := { s with self := { s.self with mode := .user } }

/-! ### Well-formedness: ill-formed terms are refused -/

theorem test_wf_base_rsp : MemOperand.wf (.base .rsp .none) = false := by decide
theorem test_wf_base_rbp : MemOperand.wf (.base .rbp .none) = false := by decide
theorem test_wf_sib_rbp : MemOperand.wf (.sib 0 .rax .rbp .none) = false := by decide
theorem test_wf_invlpg : Instr.wf (.invlpg (.base .rsp (.d8 1))) = false := by decide
theorem test_wf_invpcid : Instr.wf (.invpcid .rax (.base .rbp .none)) = false := by decide
theorem test_wf_read : Instr.wf (.access 0 (.read 0) .user) = false := by decide
theorem test_wf_write : Instr.wf (.access 0 (.write []) .user) = false := by decide
theorem test_wf_fetch : Instr.wf (.access 0 (.fetch 0) .user) = false := by decide
theorem test_wf_ok : Instr.wf (.invlpg (.base .rbp (.d8 0))) = true := by decide

/-! ### Decoding: words written out from R110 and from the programs P1 to P6 -/

/-- P1: `invlpg [rsi]`. -/
theorem test_decode_invlpg : decode [0x0F, 0x01, 0x3E] = .ok (.invlpg (.base .rsi .none), []) := by rfl
/-- P4: `invpcid rax, [rbx]`. -/
theorem test_decode_invpcid :
    decode [0x66, 0x0F, 0x38, 0x82, 0x03] = .ok (.invpcid .rax (.base .rbx .none), []) := by rfl
/-- `0F 22 /0`, rm = rcx. -/
theorem test_decode_cr0 : decode [0x0F, 0x22, 0xC1] = .ok (.movToCr0 .rcx, []) := by rfl
/-- P2: `mov cr3, rax`. -/
theorem test_decode_cr3 : decode [0x0F, 0x22, 0xD8] = .ok (.movToCr3 .rax, []) := by rfl
/-- P3: `mov cr4, rcx`. -/
theorem test_decode_cr4 : decode [0x0F, 0x22, 0xE1] = .ok (.movToCr4 .rcx, []) := by rfl
/-- "mod ignored" (R110). -/
theorem test_decode_cr4_mod : decode [0x0F, 0x22, 0x21] = .ok (.movToCr4 .rcx, []) := by rfl
/-- P5: `mov rax, cr3`. -/
theorem test_decode_from_cr3 : decode [0x0F, 0x20, 0xD8] = .ok (.movFromCr 3 .rax, []) := by rfl
theorem test_decode_hlt : decode [0xF4] = .ok (.hlt, []) := by rfl
/-- A SIB byte and a displacement: `invlpg [rbx + 2*rcx + 10H]`. -/
theorem test_decode_sib :
    decode [0x0F, 0x01, 0x7C, 0x4B, 0x10] = .ok (.invlpg (.sib 1 .rcx .rbx (.d8 0x10)), []) := by rfl
/-- A register form is no `INVLPG` (R110: "mod != 11"). -/
theorem test_decode_register_form : decode [0x0F, 0x01, 0xF8] = .error .registerForm := by rfl
/-- CR2 is no destination of the table. -/
theorem test_decode_cr2 : decode [0x0F, 0x22, 0xD0] = .error (.unknownExtension 2) := by rfl
/-- The table's own numbering, first byte highest: `0F 01 38`. -/
theorem test_table_word : decodeTableWord 24 0x0F0138 = some (.invlpg (.base .rax .none)) := by rfl

/-! ### Page numbers, tags and PCIDs -/

/-- T1, T2, T3. -/
theorem test_page_numbers_l4 :
    pageNumber .l4 0x00007FFF12345678 .k4 = 0x7FFF12345 ∧
    pageNumber .l4 0x00007FFF12345678 .m2 = 0x3FFF891 ∧
    pageNumber .l4 0x00007FFF12345678 .g1 = 0x1FFFC := by decide
/-- T2, T3, T4. -/
theorem test_tags_l4 :
    tagOf .l4 .pde 0x00007FFF12345678 = 0x3FFF891 ∧ tagOf .l4 .pdpte 0x00007FFF12345678 = 0x1FFFC ∧
    tagOf .l4 .pml4e 0x00007FFF12345678 = 0x0FF := by decide
/-- T6 to T10. -/
theorem test_tags_l5 :
    tagOf .l5 .pml5e 0x01ABCDEF12345678 = 0x1AB ∧ tagOf .l5 .pml4e 0x01ABCDEF12345678 = 0x3579B ∧
    tagOf .l5 .pdpte 0x01ABCDEF12345678 = 0x6AF37BC ∧
    tagOf .l5 .pde 0x01ABCDEF12345678 = 0xD5E6F7891 ∧
    pageNumber .l5 0x01ABCDEF12345678 .k4 = 0x1ABCDEF12345 := by decide
/-- T11, T12, T13. -/
theorem test_page_numbers_32 :
    tagOf .p32 .pde 0xC0801234 = 0x302 ∧ pageNumber .p32 0xC0801234 .m4 = 0x302 ∧
    tagOf .pae .pde 0xC0801234 = 0x604 ∧ pageNumber .pae 0xC0801234 .m2 = 0x604 ∧
    pageNumber .p32 0xC0801234 .k4 = 0xC0801 ∧ pageNumber .pae 0xC0801234 .k4 = 0xC0801 := by decide
/-- T14. -/
theorem test_pcid_off : Processor.curPcid { l4 with cr3 := 0x1005A5 } = 0 := by decide
/-- T15. -/
theorem test_pcid_on : Processor.curPcid { l4 with cr3 := 0x1005A5, cr4 := 0x200A0 } = 0x5A5 := by
  decide
/-- With 32-bit paging and 30 physical-address bits, the frame of a PTE is its bits 29:12 (R29, R141), and the bits
above are no reason to fault. -/
theorem test_frame_width :
    (viewOf 30 .p32 .pte false true 0xFFFFF067).addr = 0x3FFFF000 ∧
    (viewOf 30 .p32 .pte false true 0xFFFFF067).rsvdOk = true ∧
    (viewOf 30 .p32 .pde false true 0xFFC000E7).addr = 0x3FC00000 ∧
    (viewOf 30 .p32 .pde false true 0xFFC020E7).rsvdOk = false := by decide

/-- With 20 physical-address bits an access to 20_0000H completes with paging off. -/
theorem test_no_stop :
    ∃ t, exec (.access 0x200000 (.write [1]) .user)
      { State.reset with cfg := { Params.reset with maxPhyAddr := 20 } } = .next t := ⟨_, rfl⟩

/-- V1: the smaller of 2 MBytes and 1 GByte; the address of 1234_5678H through a 1-GByte page at 4000_0000H,
by R65 with the shift of 2 MBytes. -/
theorem test_restart_size :
    smallerPage .m2 .g1 = .m2 ∧
    Hop.pa { level := .pdpte, hlat := false, place := none
             view := viewOf 36 .l4 .pdpte true false 0x400000E7
             rights := neutralRights, notFor := [] } .l4 (some .m2) 0x12345678 = 0x40145678 := by decide

/-! ### Fills and translations on S1 -/

/-- T24: the four entries. -/
theorem test_fill :
    (s1.fillWith every 0x5678).self.tlb = [tlb 0 5 false] ∧
    (s1.fillWith every 0x5678).self.psc =
      { Psc.empty with
        pml4e := [psc 0 0 0x101000], pdpte := [psc 0 0 0x102000], pde := [psc 0 0 0x103000] } ∧
    (s1.fillWith every 0x5678).mem = s1Mem := by decide +kernel
/-- T25: a clear accessed flag is set in memory. -/
theorem test_fill_sets_accessed :
    Memory.read (State.fillWith { s1 with mem := Memory.write s1Mem 0x103028 0x05 } every 0x5678).mem
      0x103028 = 0x25 := by decide +kernel
/-- T26: nothing is cached from an entry that is not present, and it is not written. -/
theorem test_fill_not_present :
    let t := State.fillWith { s1 with mem := Memory.write s1Mem 0x103028 0x24 } every 0x5678
    t.self.tlb = [] ∧ t.self.psc.pde = [psc 0 0 0x103000] ∧ Memory.read t.mem 0x103028 = 0x24 := by
  decide +kernel
/-- T27: a user write through an entry with `rw = 0` faults; a user read is not stopped by R/W. -/
theorem test_translate_write :
    (match (State.translateWith (s1With { l4 with tlb := [tlb 0 5 false] }) every 0x5678 .write .user).1
      with
      | .pageFault => true
      | _ => false) = true := by decide +kernel
/-- T29: the G flag counts only with `CR4.PGE = 1`. -/
theorem test_fill_global :
    let m := Memory.write s1Mem 0x103029 0x51
    (State.fillWith (s1With l4 m) every 0x5678).self.tlb = [tlb 0 5 true] ∧
    (State.fillWith (s1With { l4 with cr4 := 0x20 } m) every 0x5678).self.tlb = [tlb 0 5 false] := by
  decide +kernel

/-! ### Required sets over content K (T30 to T39, T39b, T39c) -/

/-- What an invalidation with no extra entries leaves. -/
def leaves (l : Processor) (rt : TlbEntry → Bool) (rp : CacheKind → PscEntry → Bool) :
    List TlbEntry × List PscEntry :=
  ((l.invalidate rt rp noTlb noPsc).tlb, (l.invalidate rt rp noTlb noPsc).psc.pde)

/-- T30. -/
theorem test_invlpg : leaves (kOf 1) ((kOf 1).invlpgTlb 0x7000) (pscOf (kOf 1).curPcid) =
    ([tlb 1 8 false, tlb 2 7 false, tlb 2 9 true], [psc 2 0 0]) := by decide +kernel
/-- T31. -/
theorem test_invlpg_other : leaves (kOf 2) ((kOf 2).invlpgTlb 0x7000) (pscOf (kOf 2).curPcid) =
    ([tlb 1 7 false, tlb 1 8 false, tlb 2 9 true], [psc 1 0 0, psc 1 3 0]) := by decide +kernel
/-- T32. -/
theorem test_type0 : leaves (kOf 1) ((kOf 1).addressTlb 1 0x7000) ((kOf 1).pscFor 1 0x7000) =
    ([tlb 1 8 false, tlb 1 7 true, tlb 2 7 false, tlb 2 9 true], [psc 1 3 0, psc 2 0 0]) := by
  decide +kernel
/-- T33. -/
theorem test_type1 : leaves (kOf 1) (nonGlobalOf 1) (pscOf 1) =
    ([tlb 1 7 true, tlb 2 7 false, tlb 2 9 true], [psc 2 0 0]) := by decide +kernel
/-- T34, T38. -/
theorem test_type2 : leaves (kOf 1) allTlb allPsc = ([], []) := by decide +kernel
/-- T35. -/
theorem test_type3 : leaves (kOf 1) nonGlobal allPsc = ([tlb 1 7 true, tlb 2 9 true], []) := by
  decide +kernel
/-- T36: bit 63 of the source clear, the PCID established is 2. -/
theorem test_cr3_flush : (kOf 1).cr3Invalidates 0x200002 = true ∧ (kOf 1).cr3Pcid 0x200002 = 2 ∧
    leaves (kOf 1) (nonGlobalOf 2) (pscOf 2) =
      ([tlb 1 7 false, tlb 1 8 false, tlb 1 7 true, tlb 2 9 true], [psc 1 0 0, psc 1 3 0]) := by
  decide +kernel
/-- T37, P2: bit 63 of the source set; CR3 takes bits 51:0. -/
theorem test_cr3_keep : (kOf 1).cr3Invalidates 0x8000000000200002 = false ∧
    cr3Loaded 0x100001 0x8000000000200002 = 0x200002 := by decide +kernel
/-- T39: `SMEP` 0 to 1. -/
theorem test_cr4_smep : (kOf 1).cr4FlushesAll 0x1200A0 = false ∧
    (kOf 1).cr4FlushesPcid 0x1200A0 = true ∧ leaves (kOf 1) (tlbOf 1) (pscOf 1) =
      ([tlb 2 7 false, tlb 2 9 true], [psc 2 0 0]) := by decide +kernel
/-- T38, T39d: `PGE` changed, and `PCIDE` 1 to 0. -/
theorem test_cr4_all : (kOf 1).cr4FlushesAll 0x20020 = true ∧ (kOf 1).cr4FlushesAll 0xA0 = true := by
  decide
/-- T39a: `SMEP` 1 to 0, or `PSE` only. -/
theorem test_cr4_none : Processor.cr4FlushesPcid { kOf 1 with cr4 := 0x1200A0 } 0x200A0 = false ∧
    (kOf 1).cr4FlushesPcid 0x200B0 = false ∧ (kOf 1).cr4FlushesAll 0x200B0 = false := by decide
/-- T39b. -/
theorem test_fault : leaves (kOf 1) ((kOf 1).faultTlb 0x7000) ((kOf 1).pscFor 1 0x7000) =
    ([tlb 1 8 false, tlb 2 7 false, tlb 2 9 true], [psc 1 3 0, psc 2 0 0]) := by decide +kernel
/-- T39c: the global entry of PCID 1 stays (D21). -/
theorem test_fault_other : leaves (kOf 2) ((kOf 2).faultTlb 0x7000) ((kOf 2).pscFor 2 0x7000) =
    ([tlb 1 7 false, tlb 1 8 false, tlb 1 7 true, tlb 2 9 true], [psc 1 0 0, psc 1 3 0]) := by
  decide +kernel
/-- V2: a piece of a 2-MByte page is on the page of any address of that page. -/
theorem test_on_page :
    l4.onPage 0x40200000 { tlb 0 0x40203 false with xshift := .m2 } = true ∧
    l4.onPage 0x40200000 { tlb 0 0x40217 false with xshift := .m2 } = true ∧
    l4.onPage 0x40200000 (tlb 0 0x40400 false) = false := by decide

/-! ### Checks of the control-register moves (T16 to T22) -/

/-- T16, T17, T18, T20. -/
theorem test_cr4_checks :
    l4.cr4Refused Params.reset 0x200A0 = false ∧
    Processor.cr4Refused { l4 with efer := 0 } Params.reset 0x200A0 = true ∧
    Processor.cr4Refused { l4 with cr3 := 0x100001 } Params.reset 0x200A0 = true ∧
    l4.cr4Refused { Params.reset with pcidSupported := false } 0x200A0 = true := by decide
/-- T19: PCIDs are on already. -/
theorem test_cr4_no_change : (kOf 1).cr4Refused Params.reset 0x200A0 = false := by decide
/-- T21, T22. -/
theorem test_cr0_checks : (kOf 1).cr0Refused 0x11 = true ∧ l4.cr0Refused 0x11 = false := by decide
/-- T22: paging is off afterwards, and `IA32_EFER.LMA` with it. -/
theorem test_cr0_off : (l4.setCr0 0x11).pagingMode = .none ∧ (l4.setCr0 0x11).efer = 0x100 := by decide

/-! ### Memory and reset -/

theorem test_reset_mem : Memory.wf State.reset.mem = true := by decide
theorem test_s1_mem : Memory.wf s1Mem = true := by decide
/-- Writing what an unlisted address reads as removes the entry. -/
theorem test_write_removes : Memory.write [(4, 7), (9, 1)] 4 0 = [(9, 1)] := by decide
/-- D5: the lowest address is least significant. -/
theorem test_read_value : Memory.readValue s1Mem 0x100000 8 = 0x101027 := by decide +kernel
/-- Two pages, two parts (R69). -/
theorem test_split : splitPages 8 0x1FFE 8 = [(0x1FFE, 2), (0x2000, 6)] := by decide +kernel

/-! ### Witnesses: encoding and steps -/

theorem witness_DecodeEncodeAgree :
    Instr.wf (.invpcid .rdx (.sib 1 .rcx .rbp (.d8 0x80))) = true ∧
    encode (.invpcid .rdx (.sib 1 .rcx .rbp (.d8 0x80))) =
      some [0x66, 0x0F, 0x38, 0x82, 0x54, 0x4D, 0x80] := by decide

/-- An operation given as such, and one given as bytes. -/
theorem witness_StepRunsDecoded :
    let a : Item := { priv := .supervisor, work := .op (.fill 0x5678) }
    let b : Item := { priv := .user, work := .code [0x0F, 0x22, 0xD8] }
    let s := s1With { l4 with program := [a, b] }
    let t := s1With { l4 with program := [b] }
    (s.self.halted = false ∧ s.self.program = a :: [b] ∧ a.work = .op (.fill 0x5678)) ∧
    (t.self.halted = false ∧ t.self.program = b :: [] ∧
      ∃ bytes tail, b.work = .code bytes ∧ decode bytes = .ok (.movToCr3 .rax, tail)) :=
  ⟨⟨rfl, rfl, rfl⟩, rfl, rfl, _, _, rfl, rfl⟩

theorem witness_StepRefusesOtherBytes :
    let s := s1With { l4 with program := [{ priv := .user, work := .code [0x90] }] }
    s.self.halted = false ∧ s.self.program = { priv := .user, work := .code [0x90] } :: [] ∧
      decode [0x90] = .error (.unknownOpcode 0x90) := ⟨rfl, rfl, rfl⟩

theorem witness_UnaskedStepsKeepState : Memory.wf s1.mem = true := by decide

/-- The invariants of a processor with paging on, from checks of its entries. -/
theorem inv_of (c : Params) (l : Processor)
    (h : (l.pcide = false → ∀ e ∈ l.tlb, e.pcid = 0) ∧
      (l.pcide = true → l.lma = true ∧ l.pg = true ∧ c.pcidSupported = true) ∧
      l.lma = (l.lme && l.pg) ∧ l.pg = true ∧ (∀ e ∈ l.tlb, e.glob = true → l.pge = true) ∧
      (∀ e ∈ l.tlb, pageBits e.shift ≤ pageBits e.xshift) ∧
      ∀ e ∈ l.tlb, e.frame < 2 ^ (c.maxPhyAddr - pageBits e.shift))
    (hp : ∀ k, ∀ e ∈ l.psc.get k, (l.pcide = false → e.pcid = 0) ∧ e.hlat = false ∧
      e.addr < 2 ^ c.maxPhyAddr) : l.Inv c :=
  ⟨h.1, fun x k e he => (hp k e he).1 x, fun x => ⟨(h.2.1 x).1, (h.2.1 x).2.1⟩,
    fun x => (h.2.1 x).2.2, h.2.2.1, fun x => absurd h.2.2.2.1 (by rw [x]; decide), h.2.2.2.2.1,
    h.2.2.2.2.2.1, fun e he _ => h.2.2.2.2.2.2 e he, fun k e he => (hp k e he).2.2,
    fun _ k e he => (hp k e he).2.1⟩

theorem kOf_inv : (s1With (kOf 1)).Inv :=
  ⟨by decide, inv_of _ _ (by decide +kernel) (by intro k; cases k <;> decide +kernel), List.forall_mem_nil _⟩

theorem l4_inv : s1.Inv :=
  ⟨by decide, inv_of _ _ (by decide +kernel) (by intro k; cases k <;> decide +kernel), List.forall_mem_nil _⟩

/-- Content K, about to run `HLT`. -/
theorem witness_StepKeepsInv :
    (next (s1With (kOf 1)) .hlt).Inv ∧ ∃ t, step (next (s1With (kOf 1)) .hlt) = .next t :=
  ⟨⟨kOf_inv.mem, kOf_inv.self.same ⟨rfl, rfl, rfl⟩ rfl rfl, List.forall_mem_nil _⟩, _, rfl⟩

/-- T14 and T15. -/
theorem witness_CurrentPcid :
    l4.cr4.getLsbD 17 = false ∧ (kOf 1).cr4.getLsbD 17 = true := by decide

/-! ### Witnesses: translation -/

theorem witness_TlbHitDecides :
    let s := s1With { l4 with tlb := [tlb 0 5 false] }
    s.self.pagingMode ≠ .none ∧ s.locate every 0x5678 = .hit (tlb 0 5 false) := by
  decide +kernel

/-- An entry of another address is cached, and an older value of memory is no longer seen by a walk of this
one. -/
theorem witness_NothingCachedWalksMemory :
    let s := s1With { l4 with
      tlb := [tlb 0 6 false], psc := { Psc.empty with pde := [psc 0 1 0] }
      window := [{ mem := [], notFor := [0x5000] }] }
    s.cfg.hlatSupported = false ∧ s.self.hits 0x5678 = [] ∧
    (∀ k ∈ s.self.pagingMode.caches, ∀ e ∈ s.self.psc.get k, s.self.matchesPsc 0x5678 k e = false) ∧
    ∀ p ∈ s.self.window, s.self.sees 0x5678 p = false := by decide +kernel

/-- Of content K: a TLB entry of the current PCID, a global one of another, and a PDE-cache entry. -/
theorem witness_OnlyUsableEntries :
    .tlb (tlb 1 7 false) ∈ (kOf 1).routes Params.reset 0x7000 ∧
    .tlb (tlb 1 7 true) ∈ (kOf 2).routes Params.reset 0x7000 ∧
    .psc .pde (psc 1 0 0) ∈ (kOf 1).routes Params.reset 0x7000 := by decide +kernel

/-- V2: the 2-MByte page at 80_0000_0000H, and the 4-KByte piece of it that holds 4020_3010H. -/
theorem witness_SmallerEntrySameAddress :
    let h : Hop :=
      { level := .pde, hlat := false, place := some 0x102000
        view := viewOf 52 .l4 .pde false false 0x80000000E7, rights := p32Hop.rights, notFor := [] }
    h.view.addr % 2 ^ pageBits (nativeSize l4.pagingMode h.level) = 0 ∧
    (l4.tlbEntryOf { every with fracture := 1 } none 0x40203010 h).shift = .k4 ∧
    l4.matchesTlb 0x40203FF0 (l4.tlbEntryOf { every with fracture := 1 } none 0x40203010 h) = true := by
  decide +kernel

/-- Page 5 of S1: R/W is set down to the PDE, U/S down to the PTE; with `IA32_EFER.NXE = 1` and XD set in
the PML4E, XD from the top; and from a PDE-cache entry with XD set and R/W clear. -/
theorem witness_RightsFlowDown :
    let walk := (s1.walkOf every 0x5678).hops.map Hop.rights
    let x := s1With { l4 with efer := 0xD00 } (Memory.write s1Mem 0x100007 0x80)
    let e := { psc 0 0 0x103000 with rw := false, xd := true }
    let c := s1With { l4 with psc := { Psc.empty with pde := [e] } }
    walk.map Rights.rw = [true, true, true, false] ∧ walk.map Rights.us = [true, true, true, true] ∧
    ((x.walkOf every 0x5678).hops.map fun h => (h.view.xd, h.rights.xd)) =
      [(true, true), (false, true), (false, true), (false, true)] ∧
    pick every.route .root (c.self.routes c.cfg 0x5678) = .psc .pde e ∧
    ((c.walkOf every 0x5678).hops.map fun h => (h.hlat, h.rights.us, h.rights.xd)) =
      [(false, true, true)] := by decide +kernel

/-- V6 with X = 10_0000H. -/
theorem witness_SelfReference :
    let s := s1With l4 [(0x100000, 0x27), (0x100002, 0x10)]
    let raw : Word := 0x100027
    s.self.pagingMode = .l4 ∧ (8 : Word).toNat % 2 ^ 48 < 4096 ∧ s.self.root s.cfg = 0x100000 ∧
    Memory.readValue s.mem 0x100000 8 = raw ∧
    raw.getLsbD 0 = true ∧ raw.getLsbD 7 = false ∧ slice raw 51 s.cfg.maxPhyAddr = 0 ∧
    raw.getLsbD 63 = false ∧ (slice raw (s.cfg.maxPhyAddr - 1) 12) <<< 12 = 0x100000 := by
  decide +kernel

/-! ### Witnesses: fills and accesses -/

theorem witness_FillFrame : Memory.wf s1.mem = true := by decide

theorem witness_FillNewTlb :
    tlb 0 5 false ∈ (s1.fillWith every 0x5678).self.tlb ∧ tlb 0 5 false ∉ s1.self.tlb := by
  decide +kernel

theorem witness_FillNewPsc :
    psc 0 0 0x101000 ∈ (s1.fillWith every 0x5678).self.psc.get .pml4e ∧
    psc 0 0 0x101000 ∉ s1.self.psc.get .pml4e := by decide +kernel

/-- T25: the PTE's accessed flag is clear at first. -/
theorem witness_AccessedBeforeCached :
    let s := s1With l4 (Memory.write s1Mem 0x103028 0x05)
    Memory.wf s.mem = true ∧ (∀ p ∈ s.self.window, s.self.sees 0x5678 p = false) ∧
    tlb 0 5 false ∈ (s.fillWith every 0x5678).self.tlb ∧ tlb 0 5 false ∉ s.self.tlb ∧
    psc 0 0 0x103000 ∈ (s.fillWith every 0x5678).self.psc.get .pde ∧
    psc 0 0 0x103000 ∉ s.self.psc.get .pde ∧
    ((s.walkOf every 0x5678).hops.map Hop.place).getLast? = some (some 0x103028) := by
  decide +kernel

/-- The last bytes of a page, for a write and for a read. -/
theorem witness_AccessPagingOff :
    State.reset.self.pagingMode = .none ∧ Memory.wf State.reset.mem = true ∧
    0 < requestSize (.write [1, 2]) ∧ requestSize (.write [1, 2]) ≤ 8 ∧ (0x1FFE : Word).toNat % 4096 + 2 ≤ 4096 ∧
    requestSize (.read 8) ≤ 8 ∧ (0x1FF8 : Word).toNat % 4096 + 8 ≤ 4096 ∧
    requestKind (.read 8) ≠ .write := by decide

theorem p32_mode (v : Word) : (p32 v).self.pagingMode = .p32 :=
  show (p32 0).self.pagingMode = .p32 by decide

theorem p32_onlyMemory (v la : Word) (h : (p32 v).self.routes (p32 v).cfg la = [.root]) :
    (p32 v).OnlyMemory la := ⟨by rw [p32_mode]; decide, h, nofun⟩

/-- Accesses of every kind, by user code, to `p32`'s page. -/
theorem p32_settled (v la : Word) (k : Kind) (priv : Priv) (n : Nat) (h : 0 < n)
    (page : la.toNat % 4096 + n ≤ 4096) (routes : (p32 v).self.routes (p32 v).cfg la = [.root])
    (walk : (p32 v).memoryWalk la = ([p32Hop], .mapped))
    (permitted : (p32 v).self.permits p32Hop.rights k priv = true) :
    (p32 v).Settled la k priv n p32Hop :=
  ⟨p32_onlyMemory v la routes, by rw [p32_mode]; simp [PagingMode.canonical, PagingMode.ia32e], by rw [walk], by rw [walk]; rfl, permitted,
    by rw [walk]; decide, fun _ => by decide, h, page⟩

theorem witness_AccessReads :
    requestKind (.read 4) ≠ .write ∧ requestSize (.read 4) ≤ 8 ∧
    (p32 0).Settled 0x2FFC (requestKind (.read 4)) .user (requestSize (.read 4)) p32Hop ∧
    requestKind (.fetch 8) ≠ .write ∧ requestSize (.fetch 8) ≤ 8 ∧
    (p32 0).Settled 0 (requestKind (.fetch 8)) .user (requestSize (.fetch 8)) p32Hop :=
  ⟨by decide, by decide, p32_settled _ _ _ _ _ (by decide) (by decide) (by decide +kernel)
    (by decide +kernel) (by decide +kernel), by decide, by decide,
    p32_settled _ _ _ _ _ (by decide) (by decide) (by decide +kernel) (by decide +kernel)
    (by decide +kernel)⟩

theorem witness_AccessWrites :
    ([1, 2, 3, 4, 5, 6, 7, 8] : List Byte).length ≤ 8 ∧ Memory.wf (p32 0).mem = true ∧
    (p32 0).Settled 0x2FF8 .write .user 8 p32Hop :=
  ⟨by decide, by decide, p32_settled _ _ _ _ _ (by decide) (by decide) (by decide +kernel) (by decide +kernel)
    (by decide +kernel)⟩

/-- `p32` with the page read-only. -/
def readOnly : State := { p32 0 with mem := [(0x1000, 0xE5)] }

/-- `p32` with no page. -/
def noPage : State := { p32 0 with mem := [] }

/-- An address of no page, and a user write to a read-only page. -/
theorem witness_AccessFaults :
    (Memory.wf noPage.mem = true ∧ noPage.OnlyMemory 0x5000 ∧
      noPage.self.pagingMode.canonical 0x5000 = true ∧ 0 < requestSize (.read 1) ∧
      (0x5000 : Word).toNat % 4096 + 1 ≤ 4096 ∧ (noPage.memoryWalk 0x5000).2 = .notPresent) ∧
    (Memory.wf readOnly.mem = true ∧ readOnly.OnlyMemory 0x5000 ∧
      readOnly.self.pagingMode.canonical 0x5000 = true ∧ requestSize (.write [1]) ≤ 8 ∧
      ∃ h, (readOnly.memoryWalk 0x5000).2 = .mapped ∧ (readOnly.memoryWalk 0x5000).1.getLast? = some h ∧
        readOnly.self.permits h.rights (requestKind (.write [1])) .user = false) :=
  ⟨⟨by decide, ⟨by decide, by decide +kernel, nofun⟩, by decide, by decide, by decide,
      by decide +kernel⟩,
    ⟨by decide, ⟨by decide, by decide +kernel, nofun⟩, by decide, by decide,
      { p32Hop with
        view := viewOf 52 .p32 .pde false true 0xE5
        rights := { rw := false, us := true, xd := false, pkey := 0 } },
      by decide +kernel, by decide +kernel, by decide +kernel⟩⟩

/-- How one access ends. -/
def ends : Accessed → Nat
  | .done _ _ => 0
  | .pageFault _ _ => 1

theorem done_of_ends {x : Accessed} (h : ends x = 0) : ∃ bytes t, x = .done bytes t := by
  cases x <;> simp [ends] at h ⊢

theorem fault_of_ends {x : Accessed} (h : ends x = 1) : ∃ a t, x = .pageFault a t := by
  cases x <;> simp [ends] at h ⊢

/-- An access of two pages that are not there. -/
theorem witness_FaultingAccessDoesNothing :
    Memory.wf (p32 0).mem = true ∧
    ∃ a t, (p32 0).accessOnce 0x7FFFFE (.write [1, 2, 3, 4]) .user = .pageFault a t :=
  ⟨by decide, fault_of_ends (by
    unfold State.accessOnce State.place
    generalize Config.lastPageFirst _ = last
    revert last
    decide +kernel)⟩

/-- A write that is done, with entries of other addresses in the caches. -/
theorem witness_StoresInvalidateNothing :
    let s := { p32 0 with
      self := { (p32 0).self with
        tlb := [{ tlb 0 0x401 false with mode := .p32 }]
        psc := { Psc.empty with pde := [{ psc 0 1 0 with mode := .p32 }] } } }
    ∃ bytes t, s.accessOnce 0x2000 (.write [1, 2]) .user = .done bytes t :=
  done_of_ends (by decide +kernel)

/-! ### Witnesses: faults -/

/-- V9 with 32-bit paging: an entry of a former read-only page is cached and a walk may still see it in
memory, which now permits writes. -/
def stale : State :=
  { p32 0 with
    self := { (p32 0).self with
      tlb := [{ tlb 0 0 false with mode := .p32, shift := .m4, xshift := .m4, frame := 0 }]
      window := [{ mem := [(0x1000, 0xE5)], notFor := [] }] } }

theorem stale_inv : stale.Inv :=
  ⟨by decide, inv_of _ _ (by decide +kernel) (by intro k; cases k <;> decide +kernel), List.forall_mem_nil _⟩

theorem witness_NoSecondSpuriousFault :
    stale.Inv ∧ stale.cfg.hlatSupported = false ∧ stale.self.pagingMode ≠ .none ∧
    stale.self.noForeignGlobal 0x5000 ∧
    ∃ t, exec (.pageFault 0x5000 .write .user) stale = .next t ∧ t.memoryPermits 0x5000 .write .user :=
  ⟨stale_inv, rfl, by decide, by unfold Processor.noForeignGlobal; decide, _, rfl, p32Hop,
    by decide +kernel, by decide +kernel, by decide +kernel⟩

/-- After the fault a walk of the page that faulted sees memory as it is (R243); a walk of another page may
still see the older value (R74), and what it makes does not serve the page that faulted. -/
theorem test_fault_window :
    let t := State.onSelf (stale.onSelf fun l => { l with tlb := [] }) fun l => l.faulted 0x5000
    let old := { every with route := 1, moments := [1] }
    (t.momentAt old 0x5000 0).mem = t.mem ∧ (t.momentAt old 0x6000 0).mem = [(0x1000, 0xE5)] ∧
    (t.fillWith old 0x6000).self.tlb = [] ∧
    (t.fillWith { old with fracture := 1 } 0x6000).self.tlb.map TlbEntry.pn = [6] := by
  decide +kernel

theorem witness_UserModeRaisesGp :
    (user s1).self.mode = .user ∧ (∃ m, Instr.invlpg (.base .rsi .none) = .invlpg m) ∧
    (∃ n r, Instr.movFromCr 7 .rdi = .movFromCr n r) := ⟨rfl, ⟨_, rfl⟩, _, _, rfl⟩

/-- An operation that leaves the stream alone, and two that take an exception. -/
theorem witness_ExceptionGoesToHandler :
    (∃ t, exec .hlt s1 = .next t) ∧ (∃ t, exec .hlt (user s1) = .next t ∧
      t.self.exception = some .generalProtection) ∧
    ∃ t, exec (.pageFault 0x5000 .read .user) s1 = .next t ∧
      t.self.exception = some (.pageFault 0x5000 .read .user) :=
  ⟨⟨_, rfl⟩, ⟨_, rfl, rfl⟩, _, rfl, rfl⟩

/-! ### Witnesses: `INVLPG` and `INVPCID` -/

/-- Content K with `rsi` = 7000H, and `rsi` = 0. -/
theorem witness_InvlpgResult :
    let l := { kOf 1 with regs := { Gprs.reset with rsi := 0x7000 } }
    l.mode = .supervisor ∧ l.pagingMode ≠ .none ∧
    (∀ ip, l.linearAddress ip (.base .rsi .none) = 0x7000) ∧ l.pagingMode.canonical 0x7000 = true ∧
    (kOf 1).pagingMode.canonical 0 = true ∧
    l.pagingMode.canonical 0x7FFFFFFFFFFF = true ∧ l.pagingMode.canonical 0x800000000000 = false :=
  ⟨rfl, by decide, fun _ => rfl, by decide, by decide, by decide, by decide⟩

theorem witness_InvlpgThenMemory :
    let s := s1With (kOf 1)
    s.Inv ∧ s.cfg.hlatSupported = false ∧ s.self.mode = .supervisor ∧ s.self.pagingMode ≠ .none ∧
    s.self.pagingMode.canonical
      (s.self.linearAddress (Config.instructionPointer s.draws) (.base .rsi .none)) = true ∧
    ∃ t, exec (.invlpg (.base .rsi .none)) s = .next t :=
  ⟨kOf_inv, rfl, rfl, by decide, by decide, _, rfl⟩

theorem witness_UnusualOperands :
    State.reset.self.mode = .supervisor ∧ (∃ m, Instr.invlpg (.direct 0) = .invlpg m) ∧
    (∃ p la, Instr.invpcidAddress 0 0 = .invpcidAddress p la) ∧
    (∃ p, Instr.invpcidContext 5 = .invpcidContext p) ∧ (State.reset.self.source .rax).toNat ≤ 3 ∧
    (rax s1 3).self.mode = .supervisor ∧ ((rax s1 3).self.source .rax).toNat = 3 :=
  ⟨rfl, ⟨_, rfl⟩, ⟨_, _, rfl⟩, ⟨_, rfl⟩, by decide, by decide, by decide⟩

/-- With PCIDs on, any PCID; with PCIDs off, 000H. -/
theorem witness_InvpcidAddressResult :
    (kOf 1).mode = .supervisor ∧ (kOf 1).pagingMode ≠ .none ∧
    (kOf 1).pagingMode.canonical 0xFFFF800000000000 = true ∧ (kOf 1).pcide = true ∧
    l4.mode = .supervisor ∧ l4.pagingMode ≠ .none ∧ l4.pagingMode.canonical 0 = true := by decide

theorem witness_InvpcidContextResult :
    (kOf 1).mode = .supervisor ∧ (kOf 1).pagingMode ≠ .none ∧ (kOf 1).pcide = true ∧
    l4.mode = .supervisor ∧ l4.pagingMode ≠ .none := by decide

theorem witness_InvpcidAllGlobalsResult :
    (kOf 1).mode = .supervisor ∧ (kOf 1).pagingMode ≠ .none := by decide

theorem witness_InvpcidAllResult :
    (kOf 1).mode = .supervisor ∧ (kOf 1).pagingMode ≠ .none := by decide

/-- Each type, `rax` = 0 to 3, with the descriptor at 20H: PCID 000H, linear address 5000H. -/
theorem witness_InvpcidResult (v : Word) (hv : v.toNat ≤ 3) :
    let s := p32 v
    let desc := Memory.readBytes s.mem (p32Hop.pa s.self.pagingMode none 0x20) 16
    s.self.mode = .supervisor ∧ (s.self.source .rax).toNat ≤ 3 ∧
    (∀ ip, s.self.linearAddress ip (.base .rsi .none) = 0x20) ∧
    s.Settled 0x20 .read .supervisor 16 p32Hop ∧ descReserved desc = false ∧
    s.self.pagingMode.canonical (descLa desc) = true ∧ descLa desc = 0x5000 ∧ descPcid desc = 0 := by
  have cases4 : v = 0 ∨ v = 1 ∨ v = 2 ∨ v = 3 := by bv_omega
  rcases cases4 with rfl | rfl | rfl | rfl <;>
    exact ⟨rfl, by decide, fun _ => rfl,
      p32_settled _ _ _ _ _ (by decide) (by decide) (by decide +kernel) (by decide +kernel)
        (by decide +kernel),
      by decide +kernel, by decide +kernel, by decide +kernel, by decide +kernel⟩

theorem witness_InvpcidTypeRefused :
    (rax s1 4).self.mode = .supervisor ∧ 3 < ((rax s1 4).self.source .rax).toNat := by decide

/-- A descriptor on a page that is not there, for the types 0 and 3. -/
theorem witness_InvpcidDescriptorFaults :
    let s := noPage
    let t := rax noPage 3
    (Memory.wf s.mem = true ∧ s.self.mode = .supervisor ∧ (s.self.source .rax).toNat ≤ 3 ∧
      s.OnlyMemory 0x20 ∧ s.self.pagingMode.canonical 0x20 = true ∧
      (∀ ip, s.self.linearAddress ip (.base .rsi .none) = 0x20) ∧
      (s.memoryWalk 0x20).2 = .notPresent) ∧
    ((t.self.source .rax).toNat ≤ 3 ∧ t.OnlyMemory 0x20 ∧ (t.memoryWalk 0x20).2 = .notPresent) :=
  ⟨⟨by decide, by decide, by decide, ⟨by decide, by decide +kernel, nofun⟩, by decide, fun _ => rfl,
      by decide +kernel⟩,
    by decide, ⟨by decide, by decide +kernel, nofun⟩, by decide +kernel⟩

/-! ### Witnesses: control registers -/

/-- Paging turned off with PCIDs off. -/
theorem witness_MovToCr0Result :
    (rax s1 0x11).self.mode = .supervisor ∧
    (rax s1 0x11).self.cr0Refused ((rax s1 0x11).self.source .rax) = false := by decide

theorem witness_LmaFollowsPaging :
    (rax s1 0x11).self.mode = .supervisor ∧
    (rax s1 0x11).self.cr0Refused ((rax s1 0x11).self.source .rax) = false ∧
    ∃ t, exec (.movToCr0 .rax) (rax s1 0x11) = .next t := ⟨by decide, by decide, _, rfl⟩

/-- T21. -/
theorem witness_MovToCr0Gp :
    (kOf 1 0x11).pg = true ∧ cr0Pg ((kOf 1 0x11).source .rax) = false ∧
    (kOf 1 0x11).cr4.getLsbD 17 = true := by decide

theorem witness_MovToCr3WithoutPcids :
    l4.mode = .supervisor ∧ l4.cr4.getLsbD 17 = false := by decide

/-- T36. -/
theorem witness_MovToCr3Establishes :
    (kOf 1 0x200002).mode = .supervisor ∧ (kOf 1 0x200002).cr4.getLsbD 17 = true ∧
    ((kOf 1 0x200002).source .rax).getLsbD 63 = false := by decide

/-- T37. -/
theorem witness_MovToCr3WithoutFlush :
    (kOf 1 0x8000000000200002).mode = .supervisor ∧
    (kOf 1 0x8000000000200002).cr4.getLsbD 17 = true ∧
    ((kOf 1 0x8000000000200002).source .rax).getLsbD 63 = true := by decide

/-- PAE paging. -/
def pae : State :=
  { State.reset with
    self := { Processor.reset with
      cr0 := 0xE0000011, cr4 := 0x20, regs := { Gprs.reset with rax := 0x1000 } }
    mem := [(0x1000, 0x01), (0x1001, 0x20)] }

/-- `MOV to CR3` with PAE paging and without; a task switch that changes CR3 and one that does not. -/
theorem witness_Cr3LoadsPdptes :
    (pae.self.mode = .supervisor ∧ pae.self.pagingMode = .pae ∧
      ∃ t, exec (.movToCr3 .rax) pae = .next t ∧ t.self.pdptrs.p0 = 0x2001) ∧
    (s1.self.mode = .supervisor ∧ s1.self.pagingMode ≠ .pae ∧
      ∃ t, exec (.movToCr3 .rax) s1 = .next t) ∧
    (∃ t, exec (.taskSwitch 0x1000) pae = .next t ∧ t.self.pdptrs.p0 = 0x2001) ∧
    ∃ t, exec (.taskSwitch 0) pae = .next t ∧ t.self.pdptrs = pae.self.pdptrs :=
  ⟨⟨rfl, by decide, _, rfl, by decide +kernel⟩, ⟨rfl, by decide, _, rfl⟩,
    ⟨_, rfl, by decide +kernel⟩, _, rfl, by decide +kernel⟩

/-- T38 and T39d. -/
theorem witness_MovToCr4FlushesAll :
    (kOf 1 0x20020).mode = .supervisor ∧
    (kOf 1 0x20020).cr4Refused Params.reset ((kOf 1 0x20020).source .rax) = false ∧
    ((kOf 1 0x20020).source .rax).getLsbD 7 ≠ (kOf 1 0x20020).cr4.getLsbD 7 ∧
    (kOf 1 0xA0).cr4Refused Params.reset ((kOf 1 0xA0).source .rax) = false ∧
    (kOf 1 0xA0).cr4.getLsbD 17 = true ∧ ((kOf 1 0xA0).source .rax).getLsbD 17 = false := by decide

/-- A change of CR4.SMEP, and one of CR4.LA57 alone, with an address of both modes and one of 5-level paging
alone. -/
theorem witness_MovToCr4Otherwise :
    ((kOf 1 0x210A0).mode = .supervisor ∧
      (kOf 1 0x210A0).cr4Refused Params.reset ((kOf 1 0x210A0).source .rax) = false ∧
      ((kOf 1 0x210A0).source .rax).getLsbD 7 = (kOf 1 0x210A0).cr4.getLsbD 7 ∧
      (kOf 1 0x210A0).pagingMode = .l4 ∧
      Processor.pagingMode { kOf 1 0x210A0 with cr4 := (kOf 1 0x210A0).source .rax } = .l5 ∧
      PagingMode.l4.canonical 0x7000 = true ∧ PagingMode.l5.canonical 0x1000000007000 = true ∧
      PagingMode.l4.canonical 0x1000000007000 = false) ∧
    (kOf 1 0x1200A0).mode = .supervisor ∧
    (kOf 1 0x1200A0).cr4Refused Params.reset ((kOf 1 0x1200A0).source .rax) = false ∧
    ((kOf 1 0x1200A0).source .rax).getLsbD 7 = (kOf 1 0x1200A0).cr4.getLsbD 7 ∧
    ¬((kOf 1 0x1200A0).cr4.getLsbD 17 = true ∧
      ((kOf 1 0x1200A0).source .rax).getLsbD 17 = false) := by decide

/-- An entry made in 4-level paging for the page of FFFF_8000_0000_7000H, after CR4.LA57 is set: it is for that
address still, and not for 0000_8000_0000_7000H, whose lower 48 bits are the same (R247). -/
theorem test_la57 :
    let l := { l4 with cr4 := 0x10A0 }
    let e := tlb 0 0x800000007 false
    l4.matchesTlb 0xFFFF800000007000 e = true ∧ l.matchesTlb 0xFFFF800000007000 e = true ∧
    l.matchesTlb 0x0000800000007000 e = false ∧
    l4.matchesTlb 0xFFFF800000007000 { e with mode := .l5, pn := 0x1FF800000007 } = true := by decide

/-- T17 and T18. -/
theorem witness_MovToCr4Gp :
    let l := { l4 with efer := 0, regs := { Gprs.reset with rax := 0x200A0 } }
    let l' := { l4 with cr3 := 0x100001, regs := { Gprs.reset with rax := 0x200A0 } }
    (l.cr4.getLsbD 17 = false ∧ (l.source .rax).getLsbD 17 = true ∧ l.lma = false) ∧
    (l'.cr4.getLsbD 17 = false ∧ (l'.source .rax).getLsbD 17 = true ∧
      l'.cr3.extractLsb' 0 12 ≠ 0) := by decide

/-- T20. -/
theorem witness_MovToCr4Unsupported :
    let s := { rax s1 0x200A0 with cfg := { Params.reset with pcidSupported := false } }
    s.cfg.pcidSupported = false ∧ (s.self.source .rax).getLsbD 17 = true := by decide

theorem witness_MovFromCrResult : s1.self.mode = .supervisor := by decide

/-! ### Witnesses: `HLT`, task switch and the whole machine -/

/-- A processor that is to halt, and one that has. -/
theorem witness_HltStops :
    s1.self.mode = .supervisor ∧ (s1With { l4 with halted := true }).self.halted = true := by decide

/-- In IA-32e mode, and with 32-bit paging. -/
theorem witness_TaskSwitchResult : s1.self.lma = true ∧ (p32 0).self.lma = false := by decide

theorem witness_LocalEffectOnly : ∃ t, exec (.invpcidContext 1) (s1With (kOf 1)) = .next t := ⟨_, rfl⟩

/-- Each register is changed by an operation. -/
theorem witness_OnlyMovesWriteRegisters :
    (∃ t, exec (.movToCr0 .rax) (rax s1 0x11) = .next t ∧ t.self.cr0 ≠ s1.self.cr0 ∧
      t.self.efer ≠ s1.self.efer) ∧
    (∃ t, exec (.movToCr3 .rax) pae = .next t ∧ t.self.cr3 ≠ pae.self.cr3 ∧
      t.self.pdptrs ≠ pae.self.pdptrs) ∧
    (∃ t, exec (.taskSwitch 0x2000) (p32 0) = .next t ∧ t.self.cr3 ≠ (p32 0).self.cr3) ∧
    (∃ t, exec (.movToCr4 .rax) (rax s1 0x20) = .next t ∧ t.self.cr4 ≠ s1.self.cr4) ∧
    ∃ t, exec (.movFromCr 3 .rbx) s1 = .next t ∧ t.self.regs ≠ s1.self.regs :=
  ⟨⟨_, rfl, by decide +kernel, by decide +kernel⟩, ⟨_, rfl, by decide +kernel, by decide +kernel⟩,
    ⟨_, rfl, by decide +kernel⟩, ⟨_, rfl, by decide +kernel⟩, _, rfl, by decide +kernel⟩

/-- Whether an outcome is a next state. -/
def isNext : Host.Outcome State Fault Refusal → Bool
  | .next _ => true
  | _ => false

theorem next_of {x : Host.Outcome State Fault Refusal} (h : isNext x = true) : ∃ t, x = .next t := by
  cases x <;> simp [isNext] at h ⊢

/-- Whether every part of an access has a translation. -/
def isPlaced : Placed → Bool
  | .ok _ _ => true
  | _ => false

theorem placed_of {x : Placed} (h : isPlaced x = true) : ∃ parts u, x = .ok parts u := by
  cases x <;> simp [isPlaced] at h ⊢

/-- An operation that leaves memory alone, one that may set accessed flags, and a write. -/
theorem witness_OnlyAccessesWriteMemory :
    Memory.wf s1.mem = true ∧ (∃ t, exec .invpcidAll s1 = .next t) ∧
    (∃ t, exec (.fill 0x5678) s1 = .next t) ∧
    (∃ t, exec (.access 0x2FF8 (.write [1, 2]) .user) (p32 0) = .next t) ∧
    ∃ parts u, (p32 0).tick.tick.place .write .user (splitPages 2 0x2FF8 2) = .ok parts u :=
  ⟨by decide, ⟨_, rfl⟩, ⟨_, rfl⟩, next_of (by decide +kernel), placed_of (by decide +kernel)⟩

end Sys2Proof.Tests
end

section
/-! PROOF. What an operation can do, said once (`Effect`, `exec_effect`), with the rules that it rests on: which
shared operations leave the registers and memory alone (`Leaves`), and what the loads of the control registers
are made of. -/

namespace Sys2Proof.Machine

/-! ### Registers left alone -/

/-- No control register, IA32_EFER, PDPTE register or general register changed (CR2 is not among them: a page
fault writes it, R321). -/
structure SameRegisters (l l' : Processor) : Prop where
  cr0    : l'.cr0 = l.cr0
  efer   : l'.efer = l.efer
  cr3    : l'.cr3 = l.cr3
  pdptrs : l'.pdptrs = l.pdptrs
  cr4    : l'.cr4 = l.cr4
  regs   : l'.regs = l.regs

theorem SameRegisters.refl (l : Processor) : SameRegisters l l := ⟨rfl, rfl, rfl, rfl, rfl, rfl⟩

theorem SameRegisters.trans {l m n : Processor} (h : SameRegisters l m) (g : SameRegisters m n) :
    SameRegisters l n :=
  ⟨g.cr0.trans h.cr0, g.efer.trans h.efer, g.cr3.trans h.cr3, g.pdptrs.trans h.pdptrs,
    g.cr4.trans h.cr4, g.regs.trans h.regs⟩

theorem OnlyCaches.sameRegisters {l l' : Processor} (h : OnlyCaches l l') : SameRegisters l l' := by
  rw [h]; exact ⟨rfl, rfl, rfl, rfl, rfl, rfl⟩

theorem SameRegisters.sameControl {l l' : Processor} (h : SameRegisters l l') : SameControl l l' :=
  ⟨h.cr0, h.cr4, h.efer⟩

/-! ### Write events -/

/-- The event shows a write of the byte at an address. -/
def Event.writes : Event → Nat → Prop
  | .access _ pa .write bytes _, a => pa ≤ a ∧ a < pa + bytes.length
  | _, _ => False

/-- None of the events shows a write of the byte at the address. -/
def Spares (events : List Event) (a : Nat) : Prop := ∀ e ∈ events, ¬ e.writes a

/-- None of the events shows a write. -/
def Quiet (events : List Event) : Prop := ∀ a, Spares events a

theorem Spares.nil (a : Nat) : Spares [] a := by simp [Spares]

theorem Spares.append_iff {newer older : List Event} {a : Nat} :
    Spares (newer ++ older) a ↔ Spares newer a ∧ Spares older a := by
  simp [Spares, or_imp, forall_and]

theorem Quiet.nil : Quiet [] := Spares.nil

theorem Quiet.append {newer older : List Event} (h : Quiet newer) (g : Quiet older) :
    Quiet (newer ++ older) := fun a => Spares.append_iff.2 ⟨h a, g a⟩

/-- An address outside the bytes of every write event is spared. -/
theorem Spares.of_outside {events : List Event} {a : Nat}
    (h : ∀ cpu pa bytes mt, Event.access cpu pa .write bytes mt ∈ events →
      a < pa ∨ pa + bytes.length ≤ a) : Spares events a := by
  intro e he hw
  match e, hw with
  | .access cpu pa .write bytes mt, ⟨hlow, hhigh⟩ =>
    have := h cpu pa bytes mt he
    omega

/-! ### Memory left alone -/

/-- Memory is the same, and no write has been shown. -/
structure MemoryLeft (s t : State) : Prop where
  mem   : t.mem = s.mem
  trace : ∃ more, t.trace = more ++ s.trace ∧ Quiet more

theorem MemoryLeft.of_eq {s t : State} (hm : t.mem = s.mem) (ht : t.trace = s.trace) : MemoryLeft s t :=
  ⟨hm, [], ht, .nil⟩

theorem MemoryLeft.trans {s t u : State} (h : MemoryLeft s t) (g : MemoryLeft t u) : MemoryLeft s u := by
  obtain ⟨m, hm, hq⟩ := h.trace
  obtain ⟨n, hn, gq⟩ := g.trace
  exact ⟨g.mem.trans h.mem, n ++ m, by rw [hn, hm, List.append_assoc], gq.append hq⟩

/-- `t` is `s` after work that writes no register and no byte of memory, and keeps the invariants. -/
structure Leaves (s t : State) : Prop where
  registers : SameRegisters s.self t.self
  memory    : MemoryLeft s t
  inv       : s.Inv → t.Inv

theorem Leaves.refl (s : State) : Leaves s s := ⟨.refl _, .of_eq rfl rfl, id⟩

theorem Leaves.trans {s t u : State} (h : Leaves s t) (g : Leaves t u) : Leaves s u :=
  ⟨h.registers.trans g.registers, h.memory.trans g.memory, fun i => g.inv (h.inv i)⟩

theorem Leaves.tick (s : State) : Leaves s s.tick := ⟨.refl _, .of_eq rfl rfl, State.Inv.tick⟩

theorem Leaves.onSelf (s : State) (f : Processor → Processor) (hr : SameRegisters s.self (f s.self))
    (hi : s.self.Inv s.cfg → (f s.self).Inv s.cfg) : Leaves s (s.onSelf f) :=
  ⟨hr, .of_eq rfl rfl, fun i => i.onSelf (hi i.self)⟩

/-- Work on a processor outside the registers and the caches. -/
theorem Leaves.onSelf_same (s : State) (f : Processor → Processor)
    (hr : SameRegisters s.self (f s.self)) (ht : (f s.self).tlb = s.self.tlb)
    (hp : (f s.self).psc = s.self.psc) : Leaves s (s.onSelf f) :=
  .onSelf s f hr fun i => i.same hr.sameControl ht hp

theorem Leaves.show (s : State) (e : Event) (hq : Quiet [e]) : Leaves s (s.show e) :=
  ⟨.refl _, ⟨rfl, [e], rfl, hq⟩, fun i => i.show e⟩

theorem Leaves.serialize (s : State) : Leaves s (s.onSelf Processor.serialize) :=
  .onSelf_same s _ ⟨rfl, rfl, rfl, rfl, rfl, rfl⟩ rfl rfl

theorem Leaves.invalidate (s : State) (rt : TlbEntry → Bool) (rp : CacheKind → PscEntry → Bool) :
    Leaves s (s.invalidate rt rp) :=
  ⟨⟨rfl, rfl, rfl, rfl, rfl, rfl⟩, .of_eq rfl rfl, fun i => i.invalidate rt rp⟩

theorem Leaves.serialized (s : State) (rt : TlbEntry → Bool) (rp : CacheKind → PscEntry → Bool) :
    Leaves s ((s.invalidate rt rp).onSelf Processor.serialize) :=
  (Leaves.invalidate s rt rp).trans (.serialize _)

theorem Quiet.exception (cpu : Nat) (x : Exception) : Quiet [.exception cpu x] := by
  simp [Quiet, Spares, Event.writes]

theorem Leaves.deliver (s : State) (x : Exception) (h : Option Handler) (again : List Item) :
    Leaves s (s.deliver x h again) :=
  (Leaves.onSelf_same s _ ⟨rfl, rfl, rfl, rfl, rfl, rfl⟩ rfl rfl).trans (.show _ _ (.exception _ _))

theorem Leaves.raiseGp (s : State) (i : Instr) : Leaves s (s.raiseGp i) := .deliver _ _ _ _

theorem Leaves.raisePf (s : State) (la : Word) (k : Kind) (priv : Priv) (again : List Item) :
    Leaves s (s.raisePf la k priv again) := by
  have gone := Leaves.invalidate s (s.self.faultTlb la) (s.self.pscFor s.self.curPcid la)
  have barred : Leaves s (s.faultInvalidate la) :=
    gone.trans (.onSelf_same _ _ ⟨rfl, rfl, rfl, rfl, rfl, rfl⟩ rfl rfl)
  exact (barred.trans (.onSelf_same _ _ ⟨rfl, rfl, rfl, rfl, rfl, rfl⟩ rfl rfl)).trans (.deliver _ _ _ _)

/-- A privileged operation raises #GP or runs. -/
theorem State.privileged_cases (s : State) (i : Instr) (run : State → State) :
    s.privileged i run = s.raiseGp i ∨ s.privileged i run = run s := by
  unfold State.privileged
  split
  · exact .inl rfl
  · exact .inr rfl

theorem Leaves.privileged (s : State) (i : Instr) (run : State → State) (h : Leaves s (run s)) :
    Leaves s (s.privileged i run) := by
  rcases s.privileged_cases i run with e | e <;> rw [e]
  · exact .raiseGp s i
  · exact h

/-! ### `INVLPG` and the types of `INVPCID` -/

theorem Leaves.invlpgAt (s : State) (i : Instr) (la : Word) : Leaves s (s.invlpgAt i la) := by
  unfold State.invlpgAt State.invlpgUnusual
  split
  · refine (Leaves.tick s).trans ?_
    split
    · exact .raiseGp _ _
    · split
      · exact .serialized _ _ _
      · exact .serialized _ _ _
  · exact .serialized _ _ _

theorem Leaves.invpcidUnless (s : State) (i : Instr) (unusual : Bool) (run : State → State)
    (h : ∀ u, Leaves u (run u)) : Leaves s (s.invpcidUnless i unusual run) := by
  unfold State.invpcidUnless
  split
  · refine (Leaves.tick s).trans ?_
    split
    · exact .raiseGp _ _
    · exact h _
  · exact h _

theorem Leaves.invpcidType0 (s : State) (i : Instr) (reserved : Bool) (p : Pcid) (la : Word) :
    Leaves s (s.invpcidType0 i reserved p la) := .invpcidUnless _ _ _ _ fun _ => .serialized _ _ _

theorem Leaves.invpcidType1 (s : State) (i : Instr) (reserved : Bool) (p : Pcid) :
    Leaves s (s.invpcidType1 i reserved p) := .invpcidUnless _ _ _ _ fun _ => .serialized _ _ _

theorem Leaves.invpcidType2 (s : State) (i : Instr) (reserved : Bool) :
    Leaves s (s.invpcidType2 i reserved) := .invpcidUnless _ _ _ _ fun _ => .serialized _ _ _

theorem Leaves.invpcidType3 (s : State) (i : Instr) (reserved : Bool) :
    Leaves s (s.invpcidType3 i reserved) := .invpcidUnless _ _ _ _ fun _ => .serialized _ _ _

theorem Leaves.invpcidTyped (s : State) (i : Instr) (type : Nat) (reserved : Bool) (p : Pcid)
    (la : Word) : Leaves s (s.invpcidTyped i type reserved p la) := by
  unfold State.invpcidTyped
  split
  · exact .invpcidType0 _ _ _ _ _
  · exact .invpcidType1 _ _ _ _
  · exact .invpcidType2 _ _ _
  · exact .invpcidType3 _ _ _

/-! ### What follows an access -/

theorem Leaves.accessEnds (k : Kind) (priv : Priv) (again : List Item) (a : Accessed) :
    Leaves a.state (accessEnds k priv again a) := by
  cases a with
  | done bytes s => exact .refl s
  | pageFault la s => exact .raisePf s la k priv again

theorem Leaves.invpcidRead (i : Instr) (type : Nat) (again : List Item) (a : Accessed) :
    Leaves a.state (invpcidRead i type again a) := by
  cases a with
  | done bytes s => exact .invpcidTyped s _ _ _ _ _
  | pageFault la s => exact .raisePf s la _ _ again

/-! ### The loads of the control registers -/

/-- `MOV to CR0` invalidates and writes CR0, one step (R230, D12). -/
theorem State.loadCr0_eq (s : State) (v : Word) :
    ∃ rt rp, s.loadCr0 v = (s.invalidate rt rp).onSelf fun l => (l.setCr0 v).serialize := by
  unfold State.loadCr0
  split
  · exact ⟨_, _, rfl⟩
  · exact ⟨_, _, rfl⟩

/-- `MOV to CR3` invalidates and loads CR3, one step (R234, D12). -/
theorem State.movToCr3_eq (s : State) (v : Word) :
    ∃ rt rp, s.movToCr3 v = (s.invalidate rt rp).onSelf fun l =>
      (l.setCr3 s.cfg s.mem (cr3Loaded l.cr3 v)).serialize := by
  unfold State.movToCr3
  split
  · exact ⟨_, _, rfl⟩
  · exact ⟨_, _, rfl⟩

/-- `MOV to CR4` invalidates and writes CR4, one step (R237, D12). -/
theorem State.loadCr4_eq (s : State) (v : Word) :
    ∃ rt rp, s.loadCr4 v = (s.invalidate rt rp).onSelf fun l => { l with cr4 := v }.serialize := by
  unfold State.loadCr4
  split
  · exact ⟨_, _, rfl⟩
  · split
    · exact ⟨_, _, rfl⟩
    · exact ⟨_, _, rfl⟩

theorem State.taskSwitch_same (s : State) (v : Word) (h : v = s.self.cr3) :
    s.taskSwitch v = s.invalidate noTlb noPsc := if_pos h

/-- A task switch that changes CR3 invalidates and loads it (R238). -/
theorem State.taskSwitch_other (s : State) (v : Word) (h : v ≠ s.self.cr3) :
    s.taskSwitch v =
      (s.invalidate (nonGlobalOf 0) (pscOf 0)).onSelf fun l => l.setCr3 s.cfg s.mem v := if_neg h

/-! ### The effect of an operation -/

/-- All that an operation that answers a next state can do: one case for each operation that may write a
register or memory, and one for everything else and for #GP. -/
inductive Effect : Instr → State → State → Prop
  | leaves {i : Instr} {s t : State} (h : Leaves s t) : Effect i s t
  | access {la : Word} {req : Request} {priv : Priv} {s t : State}
      (h : Leaves (s.tick.accessLinear la req priv).state t) : Effect (.access la req priv) s t
  | invpcid {r : Reg} {m : MemOperand} {s u t : State} {la : Word} (before : Leaves s u)
      (after : Leaves (u.accessOnce la (.read 16) .supervisor).state t) : Effect (.invpcid r m) s t
  | fill {la : Word} {s : State} : Effect (.fill la) s (s.fill la)
  | movToCr0 {r : Reg} {s : State} {v : Word} (h : s.self.cr0Refused v = false) :
      Effect (.movToCr0 r) s (s.loadCr0 v)
  | movToCr3 {r : Reg} {s : State} {v : Word} : Effect (.movToCr3 r) s (s.movToCr3 v)
  | movToCr4 {r : Reg} {s : State} {v : Word} (h : s.self.cr4Refused s.cfg v = false) :
      Effect (.movToCr4 r) s (s.loadCr4 v)
  | movFromCr {n : BitVec 3} {r : Reg} {s : State} {v : Word} :
      Effect (.movFromCr n r) s (s.movFromCr r v)
  | taskSwitch {v : Word} {s : State} : Effect (.taskSwitch v) s (s.taskSwitch v)

theorem Effect.execInvpcid {r : Reg} {m : MemOperand} {s t : State}
    (h : execInvpcid r m s = .next t) : Effect (.invpcid r m) s t := by
  unfold Machine.execInvpcid at h
  extract_lets i at h
  split at h
  · cases h; exact .leaves (.raiseGp s _)
  · split at h
    · cases h
    · cases h
      unfold State.invpcidAt
      split
      · exact .leaves (((Leaves.tick s).trans (.tick _)).trans (.raiseGp _ _))
      · exact .invpcid ((Leaves.tick s).trans (.tick _)) (.invpcidRead _ _ _ _)

theorem Effect.execAccess {la : Word} {req : Request} {priv : Priv} {s t : State}
    (h : execAccess la req priv s = .next t) : Effect (.access la req priv) s t := by
  unfold Machine.execAccess at h
  cases h
  split
  · exact .leaves ((Leaves.tick s).trans (.raiseGp _ _))
  · exact .access (.accessEnds _ _ _ _)

theorem Effect.execMovToCr0 {r : Reg} {s t : State} (h : execMovToCr0 r s = .next t) :
    Effect (.movToCr0 r) s t := by
  cases h
  rcases s.privileged_cases (.movToCr0 r) fun s => s.movToCr0 (.movToCr0 r) (s.self.source r)
    with e | e <;> rw [e]
  · exact .leaves (.raiseGp s _)
  · unfold State.movToCr0
    split
    · exact .leaves (.raiseGp s _)
    · rename_i hr; exact .movToCr0 (by simpa using hr)

theorem Effect.execMovToCr3 {r : Reg} {s t : State} (h : execMovToCr3 r s = .next t) :
    Effect (.movToCr3 r) s t := by
  cases h
  rcases s.privileged_cases (.movToCr3 r) fun s => s.movToCr3 (s.self.source r) with e | e <;> rw [e]
  · exact .leaves (.raiseGp s _)
  · exact .movToCr3

theorem Effect.execMovToCr4 {r : Reg} {s t : State} (h : execMovToCr4 r s = .next t) :
    Effect (.movToCr4 r) s t := by
  cases h
  rcases s.privileged_cases (.movToCr4 r) fun s => s.movToCr4 (.movToCr4 r) (s.self.source r)
    with e | e <;> rw [e]
  · exact .leaves (.raiseGp s _)
  · unfold State.movToCr4
    split
    · exact .leaves (.raiseGp s _)
    · rename_i hr; exact .movToCr4 (by simpa using hr)

theorem Effect.execMovFromCr {n : BitVec 3} {r : Reg} {s t : State}
    (h : execMovFromCr n r s = .next t) : Effect (.movFromCr n r) s t := by
  unfold Machine.execMovFromCr at h
  split at h
  · cases h; exact .leaves (.raiseGp s _)
  · split at h
    · cases h
    · cases h; exact .movFromCr

/-- A task switch that is not refused switches outside IA-32e mode (R238). -/
theorem execTaskSwitch_next {v : Word} {s t : State} (h : execTaskSwitch v s = .next t) :
    s.self.lma = false ∧ t = s.taskSwitch v := by
  unfold execTaskSwitch at h
  split at h
  · cases h
  · rename_i hl; cases h; exact ⟨by simpa using hl, rfl⟩

/-- What an operation can do. -/
theorem exec_effect {i : Instr} {s t : State} (h : exec i s = .next t) : Effect i s t := by
  cases i with
  | invlpg m =>
    cases h
    exact .leaves (.privileged _ _ _ ((Leaves.tick s).trans (.invlpgAt _ _ _)))
  | invpcid r m => exact .execInvpcid h
  | invpcidAddress p la => cases h; exact .leaves (.privileged _ _ _ (.invpcidType0 _ _ _ _ _))
  | invpcidContext p => cases h; exact .leaves (.privileged _ _ _ (.invpcidType1 _ _ _ _))
  | invpcidAllGlobals => cases h; exact .leaves (.privileged _ _ _ (.invpcidType2 _ _ _))
  | invpcidAll => cases h; exact .leaves (.privileged _ _ _ (.invpcidType3 _ _ _))
  | movToCr0 r => exact .execMovToCr0 h
  | movToCr3 r => exact .execMovToCr3 h
  | movToCr4 r => exact .execMovToCr4 h
  | movFromCr n r => exact .execMovFromCr h
  | hlt =>
    cases h
    exact .leaves (.privileged _ _ _ (.onSelf_same _ _ ⟨rfl, rfl, rfl, rfl, rfl, rfl⟩ rfl rfl))
  | taskSwitch v => rw [(execTaskSwitch_next h).2]; exact .taskSwitch
  | vmxTransition => cases h; exact .leaves (.invalidate _ _ _)
  | pageFault la k priv => cases h; exact .leaves (.raisePf _ _ _ _ _)
  | access la req priv => exact .execAccess h
  | fill la => cases h; exact .fill
  | evict e =>
    cases h
    exact .leaves (.onSelf _ _ ⟨rfl, rfl, rfl, rfl, rfl, rfl⟩ fun i => i.invalidate _ _ _ _)

end Sys2Proof.Machine
end

section
/-! PROOF. Every step keeps the invariants (R33 to R35, R123, R128). -/

namespace Sys2Proof.Machine

/-! ### Control registers -/

/-- The invalidation of `MOV to CR0` leaves nothing cached where it turns paging off (R34, R230). -/
theorem State.Inv.loadCr0 {s : State} (hi : s.Inv) (v : Word) (hr : s.self.cr0Refused v = false) :
    (s.loadCr0 v).Inv := by
  have pcide : s.self.pcide = true → cr0Pg v = true := fun on => by
    simpa [Processor.cr0Refused, on, (hi.self.pcideMode on).2] using hr
  unfold State.loadCr0
  extract_lets s1
  have written : s1.Inv ∧ s1.self.pcide = s.self.pcide ∧
      (cr0Pg v = false → s1.self.tlb = [] ∧ s1.self.psc = Psc.empty) := by
    simp only [s1]
    split
    · exact ⟨hi.invalidate _ _, rfl, fun _ => s.self.invalidate_all _ _⟩
    · rename_i hp
      refine ⟨hi.invalidate _ _, rfl, fun off => s.self.invalidate_empty _ _ _ _ (hi.self.pagingOff ?_)⟩
      simpa [off] using hp
  obtain ⟨i1, same, empty⟩ := written
  exact i1.onSelf (i1.self.setCr0 v (by rw [same]; exact pcide) empty).serialize

theorem State.Inv.movToCr3 {s : State} (hi : s.Inv) (v : Word) : (s.movToCr3 v).Inv := by
  obtain ⟨rt, rp, e⟩ := s.movToCr3_eq v
  have gone := hi.invalidate rt rp
  rw [e]
  exact gone.onSelf (gone.self.setCr3 _ _ _).serialize

/-- What R124 and R109 let pass: PCIDs are on only in IA-32e mode, with paging, where they are supported. -/
theorem Processor.Inv.cr4_allowed {c : Params} {l : Processor} (h : l.Inv c) {v : Word}
    (hr : l.cr4Refused c v = false) (on : cr4Pcide v = true) :
    (l.lma = true ∧ l.pg = true) ∧ c.pcidSupported = true := by
  simp only [Processor.cr4Refused, on, Bool.or_eq_false_iff, Bool.and_true, Bool.true_and,
    Bool.not_eq_false'] at hr
  obtain ⟨mode, supported⟩ := hr
  refine ⟨?_, supported⟩
  by_cases was : l.pcide = true
  · exact h.pcideMode was
  · have lma : l.lma = true := by
      by_contra hl
      simp [was, hl] at mode
    have := h.lmaIs
    rw [lma, eq_comm, Bool.and_eq_true] at this
    exact ⟨lma, this.2⟩

/-- The invalidation of `MOV to CR4` leaves nothing cached where it changes `CR4.PGE` or clears `CR4.PCIDE`
(R33, R35, R235). -/
theorem State.Inv.loadCr4 {s : State} (hi : s.Inv) (v : Word)
    (hr : s.self.cr4Refused s.cfg v = false) : (s.loadCr4 v).Inv := by
  unfold State.loadCr4
  extract_lets s1
  have written : s1.Inv ∧ s1.cfg = s.cfg ∧ SameControl s.self s1.self ∧
      (s.self.cr4FlushesAll v = true → s1.self.tlb = [] ∧ s1.self.psc = Psc.empty) := by
    simp only [s1]
    split
    · exact ⟨hi.invalidate _ _, rfl, ⟨rfl, rfl, rfl⟩, fun _ => s.self.invalidate_all _ _⟩
    · rename_i hf
      split
      · exact ⟨hi.invalidate _ _, rfl, ⟨rfl, rfl, rfl⟩, fun x => absurd x hf⟩
      · exact ⟨hi.invalidate _ _, rfl, ⟨rfl, rfl, rfl⟩, fun x => absurd x hf⟩
  obtain ⟨i1, cfg, control, empty⟩ := written
  have allowed := hi.self.cr4_allowed hr
  refine i1.onSelf (i1.self.setCr4 v (fun on => ?_) fun change => empty ?_).serialize
  · simpa only [Processor.lma, Processor.pg, control.efer, control.cr0, cfg] using allowed on
  · simpa [Processor.cr4FlushesAll, Processor.pge, Processor.pcide, control.cr4] using change

theorem State.Inv.taskSwitch {s : State} (hi : s.Inv) (v : Word) : (s.taskSwitch v).Inv := by
  by_cases same : v = s.self.cr3
  · rw [s.taskSwitch_same v same]
    exact hi.invalidate _ _
  · rw [s.taskSwitch_other v same]
    have gone := hi.invalidate (nonGlobalOf 0) (pscOf 0)
    exact gone.onSelf (gone.self.setCr3 _ _ _)

/-! ### Operations and steps -/

/-- Every operation keeps the invariants. -/
theorem State.Inv.exec {i : Instr} {s t : State} (hi : s.Inv) (h : exec i s = .next t) : t.Inv := by
  cases exec_effect h with
  | leaves h => exact h.inv hi
  | access h => exact h.inv (hi.tick.accessLinear _ _ _)
  | invpcid before after => exact after.inv ((before.inv hi).accessOnce _ _ _)
  | fill => exact hi.fill _
  | movToCr0 hr => exact hi.loadCr0 _ hr
  | movToCr3 => exact hi.movToCr3 _
  | movToCr4 hr => exact hi.loadCr4 _ hr
  | movFromCr => exact hi.onSelf (hi.self.same ⟨rfl, rfl, rfl⟩ rfl rfl)
  | taskSwitch => exact hi.taskSwitch _

/-- A fetch that finds an operation moves the stream past its first item. -/
theorem State.fetch_ready {s u : State} {i : Instr} (h : s.fetch = .ready i u) :
    ∃ it rest, u = s.taken it rest := by
  unfold State.fetch at h
  split at h
  · cases h
  · split at h
    · cases h
    · split at h
      · cases h; exact ⟨_, _, rfl⟩
      · split at h
        · cases h; exact ⟨_, _, rfl⟩
        · cases h

theorem State.Inv.taken {s : State} (hi : s.Inv) (it : Item) (rest : List Item) :
    (s.taken it rest).Inv := hi.onSelf (hi.self.same ⟨rfl, rfl, rfl⟩ rfl rfl)

theorem State.Inv.wake {s : State} (hi : s.Inv) : s.wake.Inv :=
  (hi.onSelf (hi.self.same ⟨rfl, rfl, rfl⟩ rfl rfl)).tick

theorem thenBetween_next {o : Host.Outcome State Fault Refusal} {t : State}
    (h : thenBetween o = .next t) : ∃ u, o = .next u ∧ t = u.between := by
  cases o with
  | next u => cases h; exact ⟨u, rfl, rfl⟩
  | fault r => cases h
  | refused r => cases h

/-- All that a step can do: what happens between operations, after the resumption of a halted processor, after
nothing, or after the operation fetched (R335, R336). -/
theorem step_next {s t : State} (h : step s = .next t) :
    t = s.wake.between ∨ t = s.between ∨
      ∃ it rest i u, exec i (s.taken it rest) = .next u ∧ t = u.between := by
  unfold step at h
  split at h
  · cases h; exact .inl rfl
  · cases h; exact .inr (.inl rfl)
  · cases h
  · rename_i i s1 hf
    obtain ⟨it, rest, rfl⟩ := State.fetch_ready hf
    obtain ⟨u, hu, rfl⟩ := thenBetween_next h
    exact .inr (.inr ⟨it, rest, i, u, hu, rfl⟩)

/-- Settles O8: the invariants survive the fetch, the operation fetched (`State.Inv.exec`) and what happens
between operations. -/
theorem stepKeepsInv : Obligations.StepKeepsInv := by
  intro s t hi h
  rcases step_next h with rfl | rfl | ⟨it, rest, i, u, hu, rfl⟩
  · exact hi.wake.between
  · exact hi.between
  · exact ((hi.taken it rest).exec hu).between

end Sys2Proof.Machine
end

section
/-! PROOF. What an access does to registers and memory: it writes no register, and memory where it shows write
events; elsewhere it changes accessed and dirty flags at most (`Touches`; R71, R307). -/

namespace Sys2Proof.Machine

/-! ### Reads -/

theorem FlagsOnly.sameRegisters {mask : Byte} {s t : State} (h : FlagsOnly mask s t) :
    SameRegisters s.self t.self := h.registers.sameRegisters

theorem Leaves.showRead (s : State) (pa n : Nat) (k : Kind) (mt : BitVec 3) (hk : k ≠ .write) :
    Leaves s (s.showRead pa n k mt) := by
  have read : Quiet [.access s.self.id pa k (Memory.readBytes s.mem pa n) mt] := by
    cases k <;> simp [Quiet, Spares, Event.writes] at hk ⊢
  have sideEffect : Quiet [.sideEffect s.self.id pa] := by simp [Quiet, Spares, Event.writes]
  unfold State.showRead
  extract_lets s1
  split
  · exact (Leaves.show _ _ read).trans (.show _ _ sideEffect)
  · exact .show _ _ read

/-- Reading the parts of an access writes nothing. -/
theorem Leaves.readParts (s : State) (k : Kind) (parts : List (Nat × Nat × BitVec 3)) (hk : k ≠ .write) :
    Leaves s (s.readParts k parts).2 := by
  induction parts generalizing s with
  | nil => exact .refl s
  | cons part rest ih => exact (Leaves.showRead s _ _ _ _ hk).trans (ih _)

/-! ### What an access does to memory -/

/-- `t` is `s` after work that shows the events `more` and writes memory where they say so; elsewhere it
changes accessed and dirty flags at most. -/
structure Writes (more : List Event) (s t : State) : Prop where
  trace : t.trace = more ++ s.trace
  wf    : Memory.wf s.mem = true → Memory.wf t.mem = true
  mem   : Memory.wf s.mem = true → ∀ a, Spares more a →
    sameButFlags (Memory.read t.mem a) (Memory.read s.mem a)

theorem Writes.trans {older newer : List Event} {s t u : State} (h : Writes older s t)
    (g : Writes newer t u) : Writes (newer ++ older) s u where
  trace := by rw [g.trace, h.trace, List.append_assoc]
  wf w := g.wf (h.wf w)
  mem w a spared :=
    have ⟨inNewer, inOlder⟩ := Spares.append_iff.1 spared
    (g.mem (h.wf w) a inNewer).trans (h.mem w a inOlder)

theorem FlagsOnly.writes {s t : State} (h : FlagsOnly 0x9F s t) : Writes [] s t :=
  ⟨h.trace, h.wf, fun w a _ => h.mem w a⟩

theorem MemoryLeft.writes {s t : State} (h : MemoryLeft s t) : ∃ more, Writes more s t ∧ Quiet more := by
  obtain ⟨more, trace, quiet⟩ := h.trace
  exact ⟨more, ⟨trace, fun w => h.mem ▸ w, fun _ _ _ => by rw [h.mem]; exact rfl⟩, quiet⟩

/-- `t` is `s` after work that writes no register, and memory as the events shown say. -/
structure Touches (more : List Event) (s t : State) : Prop where
  registers : SameRegisters s.self t.self
  memory    : Writes more s t

theorem Touches.refl (s : State) : Touches [] s s := ⟨.refl _, (FlagsOnly.refl _ s).writes⟩

theorem Touches.trans {older newer : List Event} {s t u : State} (h : Touches older s t)
    (g : Touches newer t u) : Touches (newer ++ older) s u :=
  ⟨h.registers.trans g.registers, h.memory.trans g.memory⟩

theorem FlagsOnly.touches {s t : State} (h : FlagsOnly 0x9F s t) : Touches [] s t :=
  ⟨h.sameRegisters, h.writes⟩

/-- Work on flags and caches shows nothing, so it may go ahead of any other. -/
theorem Touches.after_flags {more : List Event} {s t u : State} (h : FlagsOnly 0x9F s t)
    (g : Touches more t u) : Touches more s u := by
  simpa using h.touches.trans g

theorem Leaves.touches {s t : State} (h : Leaves s t) : ∃ more, Touches more s t ∧ Quiet more := by
  obtain ⟨more, memory, quiet⟩ := h.memory.writes
  exact ⟨more, ⟨h.registers, memory⟩, quiet⟩

/-- Bytes stored, and shown as a write. -/
theorem Touches.stored (s : State) (cpu pa : Nat) (bs : List Byte) (mt : BitVec 3) :
    Touches [.access cpu pa .write bs mt] s ((s.store pa bs).show (.access cpu pa .write bs mt)) where
  registers := ⟨rfl, rfl, rfl, rfl, rfl, rfl⟩
  memory := by
    refine ⟨rfl, Memory.writeBytes_keeps_wf _ _ _, fun w a spared => ?_⟩
    have outside : a < pa ∨ pa + bs.length ≤ a := by
      have : ¬ (pa ≤ a ∧ a < pa + bs.length) := spared _ (List.mem_singleton.2 rfl)
      omega
    rw [State.show_mem, State.store_mem, Memory.read_writeBytes_outside _ _ _ _ w outside]
    exact rfl

/-- The address lies in none of the parts. -/
def OutsideParts (parts : List (Nat × Nat × BitVec 3)) (a : Nat) : Prop :=
  ∀ p ∈ parts, a < p.1 ∨ p.1 + p.2.1 ≤ a

/-- The parts of a write are shown as written, and no byte outside them. -/
theorem Touches.writeParts (s : State) (parts : List (Nat × Nat × BitVec 3)) (bs : List Byte) :
    ∃ more, Touches more s (s.writeParts parts bs) ∧ ∀ a, OutsideParts parts a → Spares more a := by
  induction parts generalizing s bs with
  | nil => exact ⟨[], .refl s, fun a _ => .nil a⟩
  | cons part rest ih =>
    obtain ⟨pa, n, mt⟩ := part
    have first := Touches.stored s s.self.id pa (bs.take n) mt
    obtain ⟨more, others, spares⟩ := ih _ (bs.drop n)
    refine ⟨_, first.trans others, fun a out => Spares.append_iff.2 ⟨spares a ?_, .of_outside ?_⟩⟩
    · exact fun p hp => out p (List.mem_cons_of_mem _ hp)
    · intro cpu' pa' bytes mt' he
      cases List.mem_singleton.1 he
      have here : a < pa ∨ pa + n ≤ a := out _ List.mem_cons_self
      have := List.length_take_le n bs
      omega

theorem Touches.accessOnce (s : State) (la : Word) (req : Request) (priv : Priv) :
    ∃ more, Touches more s (s.accessOnce la req priv).state ∧
      (requestKind req ≠ .write → Quiet more) := by
  unfold State.accessOnce
  have placed := FlagsOnly.place s (requestKind req) priv (splitPages (requestSize req) la (requestSize req))
  generalize s.place _ _ _ = q at placed
  cases q with
  | pageFault a u => exact ⟨[], placed.touches, fun _ => .nil⟩
  | ok parts u =>
    have reads : ∀ k, k ≠ .write → ∃ more, Touches more s (u.readParts k parts).2 ∧ Quiet more := by
      intro k hk
      obtain ⟨more, shown, quiet⟩ := (Leaves.readParts u k parts hk).touches
      exact ⟨more, .after_flags placed shown, quiet⟩
    cases req with
    | read n =>
      obtain ⟨more, shown, quiet⟩ := reads .read nofun
      exact ⟨more, shown, fun _ => quiet⟩
    | fetch n =>
      obtain ⟨more, shown, quiet⟩ := reads .fetch nofun
      exact ⟨more, shown, fun _ => quiet⟩
    | write bs =>
      obtain ⟨more, shown, -⟩ := Touches.writeParts u parts bs
      exact ⟨more, .after_flags placed shown, fun h => absurd rfl h⟩

@[simp] theorem requestKind_piece (req : Request) (off n : Nat) :
    requestKind (requestPiece req off n) = requestKind req := by cases req <;> rfl

/-- The piece of a request that is made whole is the request (R70). -/
theorem requestPiece_whole (req : Request) : requestPiece req 0 (requestSize req) = req := by
  cases req <;> simp [requestPiece, requestSize]

/-- What the first of several accesses leaves goes on to the others, unless it faults (R294). -/
theorem State.accessPieces_cons (s : State) (la : Word) (req : Request) (priv : Priv) (off n : Nat)
    (rest : List (Nat × Nat)) :
    let first := (s.accessOnce (la + BitVec.ofNat 64 off) (requestPiece req off n) priv).state
    (s.accessPieces la req priv ((off, n) :: rest)).state = first ∨
      (s.accessPieces la req priv ((off, n) :: rest)).state = (first.accessPieces la req priv rest).state := by
  simp only [State.accessPieces]
  cases s.accessOnce (la + BitVec.ofNat 64 off) (requestPiece req off n) priv with
  | pageFault a u => exact .inl rfl
  | done bytes u =>
    refine .inr ?_
    simp only [Accessed.state_done]
    cases u.accessPieces la req priv rest <;> rfl

theorem Touches.accessPieces (s : State) (la : Word) (req : Request) (priv : Priv)
    (pieces : List (Nat × Nat)) :
    ∃ more, Touches more s (s.accessPieces la req priv pieces).state ∧
      (requestKind req ≠ .write → Quiet more) := by
  induction pieces generalizing s with
  | nil => exact ⟨[], .refl s, fun _ => .nil⟩
  | cons piece rest ih =>
    obtain ⟨off, n⟩ := piece
    obtain ⟨older, first, quiet⟩ :=
      Touches.accessOnce s (la + BitVec.ofNat 64 off) (requestPiece req off n) priv
    rw [requestKind_piece] at quiet
    rcases s.accessPieces_cons la req priv off n rest with e | e <;> rw [e]
    · exact ⟨older, first, quiet⟩
    · obtain ⟨newer, others, quiet'⟩ := ih _
      exact ⟨newer ++ older, first.trans others, fun h => (quiet' h).append (quiet h)⟩

theorem Touches.accessLinear (s : State) (la : Word) (req : Request) (priv : Priv) :
    ∃ more, Touches more s (s.accessLinear la req priv).state ∧
      (requestKind req ≠ .write → Quiet more) := by
  obtain ⟨more, shown, quiet⟩ := Touches.accessPieces s.tick la req priv _
  exact ⟨more, .after_flags (.tick _ s) shown, quiet⟩

/-- A request of up to a quadword is one access (R70, log entry 25). -/
theorem State.accessLinear_small (s : State) (la : Word) (req : Request) (priv : Priv)
    (h : requestSize req ≤ 8) :
    (s.accessLinear la req priv).state = (s.tick.accessOnce la req priv).state := by
  have whole : s.accessLinear la req priv = s.tick.accessPieces la req priv [(0, requestSize req)] := by
    rw [State.accessLinear, piecesOf, if_pos h]
  have cons := s.tick.accessPieces_cons la req priv 0 (requestSize req) []
  rw [requestPiece_whole, BitVec.add_zero] at cons
  rw [whole]
  exact cons.elim id id

/-- A write of which every part has a translation stores what those parts hold (R307). -/
theorem State.accessOnce_write (s u : State) (la : Word) (bs : List Byte) (priv : Priv)
    (parts : List (Nat × Nat × BitVec 3))
    (h : s.place .write priv (splitPages bs.length la bs.length) = .ok parts u) :
    s.accessOnce la (.write bs) priv = .done [] (u.writeParts parts bs) := by
  simp only [State.accessOnce, requestKind, requestSize, h]

end Sys2Proof.Machine
end

section
/-! PROOF. Which operations write which register and which byte of memory, and what reset and a load of CR3
leave (R21 to R25, R32, R44, R45, R71, R220). -/

namespace Sys2Proof.Machine

/-! ### Registers -/

/-- Each register stays, or the operation is one that writes it (R21 to R25). -/
structure WritesOwn (i : Instr) (l l' : Processor) : Prop where
  cr0    : l'.cr0 = l.cr0 ∨ ∃ r, i = .movToCr0 r
  efer   : l'.efer = l.efer ∨ ∃ r, i = .movToCr0 r
  cr3    : l'.cr3 = l.cr3 ∨ (∃ r, i = .movToCr3 r) ∨ ∃ v, i = .taskSwitch v
  pdptrs : l'.pdptrs = l.pdptrs ∨ (∃ r, i = .movToCr3 r) ∨ ∃ v, i = .taskSwitch v
  cr4    : l'.cr4 = l.cr4 ∨ ∃ r, i = .movToCr4 r
  regs   : l'.regs = l.regs ∨ ∃ n r, i = .movFromCr n r

theorem SameRegisters.writesOwn {l l' : Processor} (h : SameRegisters l l') (i : Instr) :
    WritesOwn i l l' :=
  ⟨.inl h.cr0, .inl h.efer, .inl h.cr3, .inl h.pdptrs, .inl h.cr4, .inl h.regs⟩

/-- An operation that may load CR3 writes CR3 and the PDPTE registers alone (R23, R25). -/
theorem WritesOwn.setCr3 {i : Instr} (h : (∃ r, i = .movToCr3 r) ∨ ∃ v, i = .taskSwitch v)
    (l : Processor) (c : Params) (m : Memory) (v : Word) : WritesOwn i l (l.setCr3 c m v) := by
  rw [l.setCr3_eq]
  exact ⟨.inl rfl, .inl rfl, .inr h, .inr h, .inl rfl, .inl rfl⟩

/-- No operation writes a register of which it is not said to be the writer. -/
theorem Effect.writesOwn {i : Instr} {s t : State} (h : Effect i s t) : WritesOwn i s.self t.self := by
  cases h with
  | leaves h => exact h.registers.writesOwn _
  | access h =>
    obtain ⟨_, accessed, -⟩ := Touches.accessLinear s.tick _ _ _
    exact (accessed.registers.trans h.registers).writesOwn _
  | @invpcid _ _ _ u _ _ before after =>
    obtain ⟨_, accessed, -⟩ := Touches.accessOnce u _ (.read 16) .supervisor
    exact (before.registers.trans (accessed.registers.trans after.registers)).writesOwn _
  | @fill la => exact (FlagsOnly.fill s la).sameRegisters.writesOwn _
  | @movToCr0 r _ v =>
    obtain ⟨rt, rp, e⟩ := s.loadCr0_eq v
    rw [e]
    exact ⟨.inr ⟨r, rfl⟩, .inr ⟨r, rfl⟩, .inl rfl, .inl rfl, .inl rfl, .inl rfl⟩
  | @movToCr3 r _ v =>
    obtain ⟨rt, rp, e⟩ := s.movToCr3_eq v
    have own := WritesOwn.setCr3 (.inl ⟨r, rfl⟩) (s.invalidate rt rp).self s.cfg s.mem
      (cr3Loaded s.self.cr3 v)
    rw [e]
    exact ⟨own.cr0, own.efer, own.cr3, own.pdptrs, own.cr4, own.regs⟩
  | @movToCr4 r _ v =>
    obtain ⟨rt, rp, e⟩ := s.loadCr4_eq v
    rw [e]
    exact ⟨.inl rfl, .inl rfl, .inl rfl, .inl rfl, .inr ⟨r, rfl⟩, .inl rfl⟩
  | @movFromCr n r => exact ⟨.inl rfl, .inl rfl, .inl rfl, .inl rfl, .inl rfl, .inr ⟨n, r, rfl⟩⟩
  | @taskSwitch v =>
    by_cases same : v = s.self.cr3
    · rw [s.taskSwitch_same v same]
      exact (Leaves.invalidate s _ _).registers.writesOwn _
    · rw [s.taskSwitch_other v same]
      have own := WritesOwn.setCr3 (.inr ⟨v, rfl⟩) (s.invalidate (nonGlobalOf 0) (pscOf 0)).self
        s.cfg s.mem v
      exact ⟨own.cr0, own.efer, own.cr3, own.pdptrs, own.cr4, own.regs⟩

/-- Settles O59, from what each operation can do (`exec_effect`). -/
theorem onlyMovesWriteRegisters : Obligations.OnlyMovesWriteRegisters := by
  intro i s t h
  have own := (exec_effect h).writesOwn
  exact ⟨own.cr0.resolve_left, own.efer.resolve_left, own.cr3.resolve_left, own.pdptrs.resolve_left,
    own.cr4.resolve_left, own.regs.resolve_left⟩

/-! ### Memory -/

theorem MemoryLeft.loadCr0 (s : State) (v : Word) : MemoryLeft s (s.loadCr0 v) := by
  obtain ⟨rt, rp, e⟩ := s.loadCr0_eq v
  rw [e]; exact .of_eq rfl rfl

theorem MemoryLeft.movToCr3 (s : State) (v : Word) : MemoryLeft s (s.movToCr3 v) := by
  obtain ⟨rt, rp, e⟩ := s.movToCr3_eq v
  rw [e]; exact .of_eq rfl rfl

theorem MemoryLeft.loadCr4 (s : State) (v : Word) : MemoryLeft s (s.loadCr4 v) := by
  obtain ⟨rt, rp, e⟩ := s.loadCr4_eq v
  rw [e]; exact .of_eq rfl rfl

theorem MemoryLeft.taskSwitch (s : State) (v : Word) : MemoryLeft s (s.taskSwitch v) := by
  by_cases same : v = s.self.cr3
  · rw [s.taskSwitch_same v same]; exact .of_eq rfl rfl
  · rw [s.taskSwitch_other v same]; exact .of_eq rfl rfl

/-- Every operation but an access, a fill and `INVPCID` leaves memory alone (R220). -/
theorem Effect.memoryLeft {i : Instr} {s t : State} (h : Effect i s t)
    (noAccess : ∀ la req priv, i ≠ .access la req priv) (noFill : ∀ la, i ≠ .fill la)
    (noInvpcid : ∀ r m, i ≠ .invpcid r m) : MemoryLeft s t := by
  cases h with
  | leaves h => exact h.memory
  | access => exact absurd rfl (noAccess _ _ _)
  | invpcid => exact absurd rfl (noInvpcid _ _)
  | fill => exact absurd rfl (noFill _)
  | movToCr0 => exact .loadCr0 _ _
  | movToCr3 => exact .movToCr3 _ _
  | movToCr4 => exact .loadCr4 _ _
  | movFromCr => exact .of_eq rfl rfl
  | taskSwitch => exact .taskSwitch _ _

/-- The operation is not a write. -/
def NoWrite (i : Instr) : Prop := ∀ la bs priv, i ≠ .access la (.write bs) priv

/-- Every operation writes memory where it shows write events, and a write alone shows any; elsewhere it changes
flags at most (R32, R71). -/
theorem Effect.writes {i : Instr} {s t : State} (h : Effect i s t) :
    ∃ more, Writes more s t ∧ (NoWrite i → Quiet more) := by
  have left : MemoryLeft s t → ∃ more, Writes more s t ∧ (NoWrite i → Quiet more) := fun h =>
    have ⟨more, writes, quiet⟩ := h.writes
    ⟨more, writes, fun _ => quiet⟩
  cases h with
  | @access la req priv _ _ h =>
    obtain ⟨older, accessed, quiet⟩ := Touches.accessLinear s.tick la req priv
    obtain ⟨newer, ended, quiet'⟩ := h.memory.writes
    refine ⟨newer ++ older, (Touches.after_flags (.tick _ s) accessed).memory.trans ended,
      fun no => quiet'.append (quiet fun hk => ?_)⟩
    cases req with
    | write bs => exact no la bs priv rfl
    | read n => cases hk
    | fetch n => cases hk
  | @invpcid _ _ _ u _ la before after =>
    obtain ⟨first, began, quiet⟩ := before.memory.writes
    obtain ⟨second, accessed, quiet'⟩ := Touches.accessOnce u la (.read 16) .supervisor
    obtain ⟨third, ended, quiet''⟩ := after.memory.writes
    exact ⟨third ++ (second ++ first), (began.trans accessed.memory).trans ended,
      fun _ => quiet''.append ((quiet' nofun).append quiet)⟩
  | fill => exact ⟨[], (FlagsOnly.fill s _).weaken.writes, fun _ => .nil⟩
  | leaves h => exact left h.memory
  | movToCr0 => exact left (.loadCr0 _ _)
  | movToCr3 => exact left (.movToCr3 _ _)
  | movToCr4 => exact left (.loadCr4 _ _)
  | movFromCr => exact left (.of_eq rfl rfl)
  | taskSwitch => exact left (.taskSwitch _ _)

/-- A write of up to a quadword whose parts have translations changes no byte outside them but for flags (R307,
log entry 25). -/
theorem Effect.write_places {la : Word} {bs : List Byte} {priv : Priv} {s t u : State}
    {parts : List (Nat × Nat × BitVec 3)} (h : Effect (.access la (.write bs) priv) s t)
    (small : bs.length ≤ 8)
    (placed : s.tick.tick.place .write priv (splitPages bs.length la bs.length) = .ok parts u)
    (w : Memory.wf s.mem = true) {a : Nat} (out : OutsideParts parts a) :
    sameButFlags (Memory.read t.mem a) (Memory.read s.mem a) := by
  cases h with
  | leaves h => rw [h.memory.mem]; exact rfl
  | access h =>
    have translated : FlagsOnly 0x9F s.tick.tick u := by
      simpa only [placed, Placed.state_ok] using
        FlagsOnly.place s.tick.tick .write priv (splitPages bs.length la bs.length)
    obtain ⟨more, stored, spares⟩ := Touches.writeParts u parts bs
    have written := (Touches.after_flags translated stored).memory.mem w a (spares a out)
    rw [h.memory.mem, s.tick.accessLinear_small la (.write bs) priv small,
      s.tick.tick.accessOnce_write u la bs priv parts placed]
    exact written

/-- Settles O60, from what each operation can do (`exec_effect`). -/
theorem onlyAccessesWriteMemory : Obligations.OnlyAccessesWriteMemory := by
  intro i s t h w
  have effect := exec_effect h
  obtain ⟨more, writes, quiet⟩ := effect.writes
  refine ⟨fun noAccess noFill noInvpcid => (effect.memoryLeft noAccess noFill noInvpcid).mem,
    fun noWrite a => writes.mem w a (quiet noWrite a),
    ⟨more, writes.trace, fun a outside => writes.mem w a (.of_outside outside)⟩, ?_, writes.wf w⟩
  rintro la bs priv parts u rfl small placed a out
  exact effect.write_places small placed w out

/-! ### Reset and CR3 -/

/-- Settles O6: reset leaves one processor, every flag of which is 0. -/
theorem resetLeaves : Obligations.ResetLeaves := by
  intro l hl
  cases List.mem_singleton.1 hl
  exact ⟨rfl, Psc.get_empty, rfl, rfl, rfl, rfl, rfl, rfl, rfl, rfl, rfl, rfl, rfl⟩

/-- The PDPTE registers as they are loaded from the table that a value of CR3 addresses (R25). -/
def pdptesAt (c : Params) (m : Memory) (cr3 : Word) : Pdptrs :=
  { p0 := pdpteAt c m cr3 0, p1 := pdpteAt c m cr3 1, p2 := pdpteAt c m cr3 2, p3 := pdpteAt c m cr3 3 }

@[simp] theorem Processor.setCr3_cr3 (l : Processor) (c : Params) (m : Memory) (v : Word) :
    (l.setCr3 c m v).cr3 = v := by
  rw [l.setCr3_eq]

/-- A load of CR3 loads the PDPTE registers with PAE paging alone (R25). -/
theorem Processor.setCr3_pdptrs (l : Processor) (c : Params) (m : Memory) (v : Word) :
    (l.setCr3 c m v).pdptrs = if l.pagingMode = .pae then pdptesAt c m v else l.pdptrs := by
  have mode : Processor.pagingMode { l with cr3 := v } = l.pagingMode := rfl
  unfold Processor.setCr3 Processor.loadPdptrs
  rw [mode]
  split <;> rfl

theorem State.movToCr3_pdptrs (s : State) (v : Word) :
    (s.movToCr3 v).self.pdptrs =
      if s.self.pagingMode = .pae then pdptesAt s.cfg s.mem (s.movToCr3 v).self.cr3
      else s.self.pdptrs := by
  obtain ⟨rt, rp, e⟩ := s.movToCr3_eq v
  rw [e, State.onSelf_self, Processor.serialize_pdptrs, Processor.serialize_cr3, Processor.setCr3_cr3]
  exact Processor.setCr3_pdptrs _ _ _ _

theorem State.taskSwitch_pdptrs (s : State) (v : Word) :
    (s.taskSwitch v).self.pdptrs =
      if s.self.pagingMode = .pae ∧ v ≠ s.self.cr3 then
        pdptesAt s.cfg s.mem (s.taskSwitch v).self.cr3
      else s.self.pdptrs := by
  by_cases same : v = s.self.cr3
  · rw [if_neg fun both => both.2 same, s.taskSwitch_same v same]
    rfl
  · rw [s.taskSwitch_other v same, State.onSelf_self, Processor.setCr3_cr3]
    simp only [ne_eq, same, not_false_eq_true, and_true]
    exact Processor.setCr3_pdptrs _ _ _ _

/-- Settles O49, for the move and for the task switch. -/
theorem cr3LoadsPdptes : Obligations.Cr3LoadsPdptes := by
  intro s t loaded
  refine ⟨fun r supervisor h => ?_, fun v h => ?_⟩
  · have moved : t = s.movToCr3 (s.self.source r) := by
      cases h; exact s.privileged_supervisor _ _ supervisor
    subst moved
    exact s.movToCr3_pdptrs _
  · obtain ⟨-, rfl⟩ := execTaskSwitch_next h
    exact s.taskSwitch_pdptrs v

end Sys2Proof.Machine
end

section
/-! PROOF. Paging modes, page sizes after a restart of HLAT paging, and the address that a TLB entry gives (R62 to
R65, R149, R191). -/

namespace Sys2Proof.Machine

/-! ### Paging modes -/

/-- The paging mode with paging on: that of IA-32e mode, or that of legacy mode (R62, G2). -/
theorem Processor.pagingMode_on {l : Processor} (on : l.pg = true) :
    l.pagingMode = if l.lma then (if l.la57 then .l5 else .l4) else if l.pae then .pae else .p32 := by
  simp [Processor.pagingMode, on]

theorem Processor.pagingMode_off {l : Processor} (off : l.pg = false) : l.pagingMode = .none := by
  simp [Processor.pagingMode, off]

/-- Settles O10, by whether paging is on and whether the processor is in IA-32e mode. -/
theorem pagingModeConstraints : Obligations.PagingModeConstraints := by
  intro l
  cases on : l.pg with
  | false => simp [l.pagingMode_off on, PagingMode.ia32e]
  | true =>
    rw [l.pagingMode_on on]
    cases l.lma with
    | false => cases l.pae <;> simp [PagingMode.ia32e]
    | true => cases l.la57 <;> simp [PagingMode.ia32e]

/-! ### Page sizes -/

theorem pageBits_smallerPage (a b : PageSize) :
    pageBits (smallerPage a b) = min (pageBits a) (pageBits b) := by
  unfold smallerPage
  split
  · rename_i le; exact (Nat.min_eq_left le).symm
  · rename_i gt; exact (Nat.min_eq_right (by omega)).symm

/-- Settles O16: the page size after a restart is `smallerPage`'s, and the offset is cut by it (`Hop.pa`). -/
theorem restartPageSize : Obligations.RestartPageSize := by
  refine ⟨rfl, rfl, rfl, fun h m z => ?_⟩
  have size : pageBits (h.pageSize m (some z)) = min (pageBits z) (pageBits (nativeSize m h.level)) :=
    pageBits_smallerPage z _
  exact ⟨size, fun la => by rw [Hop.pa, size]⟩

/-- Every page offset is narrower than a linear address (R62, R63). -/
theorem pageBits_le_width (z : PageSize) (m : PagingMode) : pageBits z ≤ m.width := by
  cases z <;> cases m <;> decide

/-- The page number at a size decides the bits of a larger page's offset above that size (R61, R65). -/
theorem pageNumber_offset (m : PagingMode) (la : Word) {z x : PageSize} (le : pageBits z ≤ pageBits x) :
    la.toNat % 2 ^ pageBits x / 2 ^ pageBits z =
      pageNumber m la z % 2 ^ (pageBits x - pageBits z) := by
  have wide := pageBits_le_width x m
  have positive : 0 < m.width := by cases m <;> decide
  have powers : 2 ^ pageBits x = 2 ^ pageBits z * 2 ^ (pageBits x - pageBits z) := by
    rw [← pow_add, Nat.add_sub_cancel' le]
  rw [powers, Nat.mod_mul_right_div_self, pageNumber, slice, Nat.shiftRight_eq_div_pow,
    Nat.mod_mod_of_dvd _ (pow_dvd_pow 2 (by omega))]

/-- A frame of `z` bits of offset, cut from a page of `x` bits, and the offset in it, are the page's address and the
offset in the page, for two addresses that agree above the smaller offset. -/
theorem frame_offset {z x : Nat} (le : z ≤ x) {base : Nat} (aligned : base % 2 ^ x = 0) {n n' : Nat}
    (same : n % 2 ^ x / 2 ^ z = n' % 2 ^ x / 2 ^ z) :
    (base + n % 2 ^ x) >>> z <<< z + n' % 2 ^ z = base + n' % 2 ^ x := by
  obtain ⟨q, rfl⟩ : 2 ^ z ∣ base := (pow_dvd_pow 2 le).trans (Nat.dvd_of_mod_eq_zero aligned)
  have low : n' % 2 ^ z = n' % 2 ^ x % 2 ^ z := (Nat.mod_mod_of_dvd _ (pow_dvd_pow 2 le)).symm
  rw [Nat.shiftRight_eq_div_pow, Nat.shiftLeft_eq, Nat.mul_add_div (by positivity), same, low, add_mul,
    add_assoc, Nat.div_add_mod', Nat.mul_comm]

/-- Settles O14: the entry's page number fixes the bits of the page offset above its own size
(`pageNumber_offset`), and its frame holds them. -/
theorem smallerEntrySameAddress : Obligations.SmallerEntrySameAddress := by
  intro l ch cap la la' h aligned hit
  have le := l.tlbEntryOf_size ch cap la h
  have number : pageNumber l.pagingMode la' (l.tlbEntryOf ch cap la h).shift =
      pageNumber l.pagingMode la (l.tlbEntryOf ch cap la h).shift := by
    rw [l.matchesTlb_same la' rfl] at hit
    exact beq_iff_eq.1 hit
  refine frame_offset le aligned ?_
  rw [pageNumber_offset l.pagingMode la le, pageNumber_offset l.pagingMode la' le, number]

end Sys2Proof.Machine
end

section
/-! PROOF. What a processor does on its own between two operations (R75, R143, R190, R194), and that a translation or
a store takes no entry out of a cache (R72, R148). -/

namespace Sys2Proof.Machine

/-! ### Steps that are not asked for -/

/-- `t` is `s` after work on caches and on accessed flags, which may also have shown reads. -/
structure Unasked (s t : State) : Prop where
  cfg       : t.cfg = s.cfg
  registers : OnlyCaches s.self t.self
  others    : OnlyWindows s.others t.others
  wf        : Memory.wf s.mem = true → Memory.wf t.mem = true
  mem       : Memory.wf s.mem = true →
    ∀ a, sameButAccessed (Memory.read t.mem a) (Memory.read s.mem a)

theorem FlagsOnly.unasked {s t : State} (h : FlagsOnly 0xDF s t) : Unasked s t :=
  ⟨h.cfg, h.registers, h.others, h.wf, h.mem⟩

theorem Unasked.refl (s : State) : Unasked s s := (FlagsOnly.refl _ s).unasked

theorem Unasked.trans {s t u : State} (h : Unasked s t) (g : Unasked t u) : Unasked s u :=
  ⟨g.cfg.trans h.cfg, h.registers.trans g.registers, h.others.trans g.others,
    fun w => g.wf (h.wf w), fun w a => (g.mem (h.wf w) a).trans (h.mem w a)⟩

theorem Unasked.show (s : State) (e : Event) : Unasked s (s.show e) :=
  ⟨rfl, .refl _, .refl _, id, fun _ _ => rfl⟩

theorem Unasked.evict (s : State) : Unasked s s.evict :=
  ⟨rfl, rfl, .refl _, id, fun _ _ => rfl⟩

theorem Unasked.showSpeculative (s : State) (pa : Nat) : Unasked s (s.showSpeculative pa) := by
  unfold State.showSpeculative
  extract_lets s1
  have shown : Unasked s s1 := .show _ _
  split
  · exact shown.trans (.show _ _)
  · exact shown

/-- A speculative read fills on its way at most (R75). -/
theorem Unasked.speculativeReadWith (s : State) (ch : WalkChoice) (la : Word) :
    Unasked s (s.speculativeReadWith ch la) := by
  unfold State.speculativeReadWith
  split
  · exact .refl _
  · split
    · exact .showSpeculative _ _
    · rename_i p _
      have filled := (FlagsOnly.fillHops s ch p.cap la (p.hops.take ch.depth) 0).unasked
      split
      · exact filled.trans (.showSpeculative _ _)
      · exact filled

theorem Unasked.backgroundStep (s : State) (a : BackgroundAction) : Unasked s (s.backgroundStep a) := by
  cases a with
  | fill la => exact (FlagsOnly.fill s la).unasked
  | evict => exact .evict s
  | read la => exact (FlagsOnly.tick _ s).unasked.trans (.speculativeReadWith _ _ _)

theorem Unasked.backgroundSteps (s : State) (as : List BackgroundAction) :
    Unasked s (s.backgroundSteps as) := by
  induction as generalizing s with
  | nil => exact .refl s
  | cons a as ih => exact (Unasked.backgroundStep s a).trans (ih _)

theorem Unasked.background (s : State) : Unasked s s.background := by
  unfold State.background
  split
  · exact .refl s
  · exact (FlagsOnly.tick _ s).unasked.trans (.backgroundSteps _ _)

/-- Settles O5, from what each of the steps can do (`Unasked.backgroundStep`). -/
theorem unaskedStepsKeepState : Obligations.UnaskedStepsKeepState := by
  intro s w
  have steps := Unasked.background s
  exact ⟨steps.cfg, steps.registers, steps.others, steps.mem w⟩

/-! ### Entries kept -/

/-- Every entry of the caches is still there, a TLB entry but for its dirty flag. -/
structure KeepsEntries (l l' : Processor) : Prop where
  tlb : ∀ e ∈ l.tlb, ∃ e' ∈ l'.tlb, e' = { e with dirty := e'.dirty }
  psc : ∀ k, ∀ e ∈ l.psc.get k, e ∈ l'.psc.get k

/-- Caches that have grown at most keep their entries. -/
theorem KeepsEntries.of_subset {l l' : Processor} (ht : l.tlb ⊆ l'.tlb)
    (hp : ∀ k, l.psc.get k ⊆ l'.psc.get k) : KeepsEntries l l' :=
  ⟨fun e he => ⟨e, ht he, rfl⟩, fun k _ he => hp k he⟩

theorem KeepsEntries.refl (l : Processor) : KeepsEntries l l :=
  .of_subset (List.Subset.refl _) fun _ => List.Subset.refl _

theorem KeepsEntries.trans {l m n : Processor} (h : KeepsEntries l m) (g : KeepsEntries m n) :
    KeepsEntries l n := by
  refine ⟨fun e he => ?_, fun k e he => g.psc k e (h.psc k e he)⟩
  obtain ⟨e', he', same⟩ := h.tlb e he
  obtain ⟨e'', he'', same'⟩ := g.tlb e' he'
  exact ⟨e'', he'', by rw [same', same]⟩

theorem KeepsEntries.pushWindow (l : Processor) (m : Memory) : KeepsEntries l (l.pushWindow m) :=
  .of_subset (List.Subset.refl _) fun _ => List.Subset.refl _

theorem KeepsEntries.addTlb (l : Processor) (e : TlbEntry) : KeepsEntries l (l.addTlb e) := by
  unfold Processor.addTlb
  split
  · exact .refl l
  · exact .of_subset (List.subset_cons_self _ _) fun _ => List.Subset.refl _

theorem KeepsEntries.addPsc (l : Processor) (k : CacheKind) (e : PscEntry) :
    KeepsEntries l (l.addPsc k e) := by
  refine .of_subset (List.Subset.refl _) fun j => ?_
  by_cases other : j = k
  · subst other
    simp only [Processor.addPsc, Psc.get_update_same]
    split
    · exact List.Subset.refl _
    · exact List.subset_cons_self _ _
  · simp only [Processor.addPsc, Psc.get_update_ne _ _ _ _ other]
    exact List.Subset.refl _

theorem KeepsEntries.cacheHop (s : State) (ch : WalkChoice) (cap : Option PageSize) (la : Word)
    (h : Hop) : KeepsEntries s.self (s.cacheHop ch cap la h).self := by
  rcases s.cacheHop_cases ch cap la h with e | ⟨-, -, -, e⟩ | ⟨k, -, -, -, -, e⟩ <;> rw [e]
  · exact .refl _
  · exact .addTlb _ _
  · exact .addPsc _ _ _

theorem KeepsEntries.setAccessed (s : State) (h : Hop) : KeepsEntries s.self (s.setAccessed h).self := by
  unfold State.setAccessed
  split
  · split
    · exact .refl _
    · exact .pushWindow _ _
  · exact .refl _

theorem KeepsEntries.fillHops (s : State) (ch : WalkChoice) (cap : Option PageSize) (la : Word)
    (hs : List Hop) (i : Nat) : KeepsEntries s.self (s.fillHops ch cap la hs i).self := by
  induction hs generalizing s i with
  | nil => exact .refl _
  | cons h hs ih =>
    unfold State.fillHops
    refine (KeepsEntries.setAccessed s h).trans (.trans ?_ (ih _ _))
    split
    · exact .cacheHop _ _ _ _ _
    · exact .refl _

theorem KeepsEntries.dirtyByWalk (s : State) (ch : WalkChoice) (p : Path) :
    KeepsEntries s.self (s.dirtyByWalk ch p).self := by
  unfold State.dirtyByWalk
  split
  · split
    · exact .pushWindow _ _
    · exact .refl _
  · exact .refl _

/-- A dirty flag set in place keeps every entry but for that flag (R148). -/
theorem KeepsEntries.setDirty (l : Processor) (e : TlbEntry) :
    KeepsEntries l
      { l with tlb := l.tlb.map fun x => if x = e then { x with dirty := true } else x } := by
  refine ⟨fun x hx => ⟨_, List.mem_map_of_mem hx, ?_⟩, fun _ _ he => he⟩
  split <;> rfl

theorem KeepsEntries.dirtyByHit (s : State) (ch : WalkChoice) (la : Word) (e : TlbEntry) :
    KeepsEntries s.self (s.dirtyByHit ch la e).self := by
  unfold State.dirtyByHit
  split
  · exact .refl _
  · extract_lets p s1
    have walked : KeepsEntries s.self s1.self := by
      simp only [s1]
      split
      · exact .dirtyByWalk _ _ _
      · exact .refl _
    split
    · exact walked.trans (.setDirty _ _)
    · exact walked

/-- All that a translation leaves: nothing done, the dirty flag of a write that used a TLB entry, or a fill along the
entries of a walk, and the dirty flag of a write after it (R191). -/
theorem State.translateWith_state (s : State) (ch : WalkChoice) (la : Word) (k : Kind) (priv : Priv) :
    (s.translateWith ch la k priv).2 = s ∨
    (∃ e, (s.translateWith ch la k priv).2 = s.dirtyByHit ch la e) ∨
    ∃ p hops, (s.translateWith ch la k priv).2 = s.fillHops ch p.cap la hops 0 ∨
      (s.translateWith ch la k priv).2 = (s.fillHops ch p.cap la hops 0).dirtyByWalk ch p := by
  unfold State.translateWith
  split
  · exact .inl rfl
  · split
    · rename_i e _
      extract_lets t
      split
      · by_cases write : k = .write
        · exact .inr (.inl ⟨e, if_pos write⟩)
        · exact .inl (if_neg write)
      · exact .inl rfl
    · rename_i p _
      refine .inr (.inr ⟨p, ?_⟩)
      split
      · extract_lets t
        split
        · by_cases write : k = .write
          · exact ⟨_, .inr (if_pos write)⟩
          · exact ⟨_, .inl (if_neg write)⟩
        · exact ⟨_, .inl rfl⟩
      · exact ⟨_, .inl rfl⟩

/-- No translation is an invalidating operation. -/
theorem KeepsEntries.translate (s : State) (la : Word) (k : Kind) (priv : Priv) :
    KeepsEntries s.self (s.translate la k priv).2.self := by
  unfold State.translate
  rcases s.tick.translateWith_state (Config.walkChoice s.draws) la k priv with
    e | ⟨hit, e⟩ | ⟨p, hops, e | e⟩ <;> rw [e]
  · exact .refl _
  · exact .dirtyByHit s.tick _ _ _
  · exact .fillHops s.tick _ _ _ _ _
  · exact (KeepsEntries.fillHops s.tick _ _ _ _ _).trans (.dirtyByWalk _ _ _)

theorem KeepsEntries.placeInOrder (s : State) (k : Kind) (priv : Priv) (parts : List (Word × Nat)) :
    KeepsEntries s.self (s.placeInOrder k priv parts).state.self := by
  induction parts generalizing s with
  | nil => exact .refl _
  | cons part rest ih =>
    have first := KeepsEntries.translate s part.1 k priv
    rcases s.placeInOrder_cons k priv part.1 part.2 rest with e | e <;> rw [e]
    · exact first
    · exact first.trans (ih _)

theorem KeepsEntries.place (s : State) (k : Kind) (priv : Priv) (parts : List (Word × Nat)) :
    KeepsEntries s.self (s.place k priv parts).state.self := by
  obtain ⟨u, order, hu, -, e⟩ := s.place_state k priv parts
  rw [e]
  rcases hu with rfl | rfl
  · exact .placeInOrder _ _ _ _
  · exact .placeInOrder s.tick _ _ _

/-- Storing the parts of a write keeps every entry of the executing processor (R72). -/
theorem KeepsEntries.writeParts (s : State) (parts : List (Nat × Nat × BitVec 3)) (bs : List Byte) :
    KeepsEntries s.self (s.writeParts parts bs).self := by
  induction parts generalizing s bs with
  | nil => exact .refl _
  | cons part rest ih =>
    rw [State.writeParts]
    refine .trans ?_ (ih _ _)
    exact .pushWindow _ s.mem

/-- It changes nothing but the windows of the other processors (R72, R74). -/
theorem OnlyWindows.writeParts (s : State) (parts : List (Nat × Nat × BitVec 3)) (bs : List Byte) :
    OnlyWindows s.others (s.writeParts parts bs).others := by
  induction parts generalizing s bs with
  | nil => exact .refl _
  | cons part rest ih =>
    rw [State.writeParts]
    refine .trans ?_ (ih _ _)
    exact .pushed _ s.mem

/-- A write that is done has translated every part and stored it (R307). -/
theorem State.accessOnce_write_done {s t : State} {la : Word} {bs bytes : List Byte} {priv : Priv}
    (h : s.accessOnce la (.write bs) priv = .done bytes t) :
    ∃ parts u, s.place .write priv (splitPages bs.length la bs.length) = .ok parts u ∧
      t = u.writeParts parts bs := by
  cases placed : s.place .write priv (splitPages bs.length la bs.length) with
  | ok parts u =>
    rw [s.accessOnce_write u la bs priv parts placed] at h
    cases h
    exact ⟨parts, u, rfl, rfl⟩
  | pageFault a u =>
    simp only [State.accessOnce, requestKind, requestSize, placed] at h
    cases h

/-- Settles O28, from what the translations of the parts keep and what their stores keep. -/
theorem storesInvalidateNothing : Obligations.StoresInvalidateNothing := by
  intro s t la bs bytes priv done
  obtain ⟨parts, u, placed, rfl⟩ := State.accessOnce_write_done done
  have kept := KeepsEntries.place s .write priv (splitPages bs.length la bs.length)
  have flags := FlagsOnly.place s .write priv (splitPages bs.length la bs.length)
  rw [placed] at kept flags
  have all := kept.trans (.writeParts u parts bs)
  exact ⟨all.tlb, all.psc, flags.others.trans (.writeParts u parts bs)⟩

end Sys2Proof.Machine
end

section
/-! PROOF. An access of at most a quadword on one page: one translation, and one read or store of its bytes (R69, R70,
R307); with paging off (R62). -/

namespace Sys2Proof.Machine

/-! ### One access on one page -/

/-- Bytes that lie on one 4-KByte page are one part (R69). -/
theorem splitPages_onePage {la : Word} {n : Nat} (nonempty : 0 < n) (onePage : la.toNat % 4096 + n ≤ 4096) :
    splitPages n la n = [(la, n)] := by
  obtain ⟨m, rfl⟩ : ∃ m, n = m + 1 := ⟨n - 1, by omega⟩
  have none_left : ∀ fuel a, splitPages fuel a 0 = [] := by
    intro fuel a; cases fuel <;> rfl
  simp [splitPages, Nat.min_eq_left (show m + 1 ≤ 4096 - la.toNat % 4096 by omega), none_left]

theorem State.place_singleton {s u : State} {la : Word} {k : Kind} {priv : Priv} {pa : Nat} {mt : BitVec 3}
    (h : s.translate la k priv = (.ok pa mt, u)) (n : Nat) :
    s.place k priv [(la, n)] = .ok [(pa, n, mt)] u := by
  simp only [State.place, State.placeInOrder, h]

/-- A write of one page stores its bytes and shows them (R307, R355). -/
theorem State.accessOnce_write_onePage {s u : State} {la : Word} {bs : List Byte} {priv : Priv}
    {pa : Nat} {mt : BitVec 3} (nonempty : 0 < bs.length) (onePage : la.toNat % 4096 + bs.length ≤ 4096)
    (h : s.translate la .write priv = (.ok pa mt, u)) :
    s.accessOnce la (.write bs) priv =
      .done [] ((u.store pa bs).show (.access u.self.id pa .write bs mt)) := by
  have placed := State.place_singleton h bs.length
  rw [← splitPages_onePage nonempty onePage] at placed
  rw [s.accessOnce_write u la bs priv _ placed]
  simp [State.writeParts]

/-- A read or a fetch of one page shows its bytes (R307, R355). -/
theorem State.accessOnce_read_onePage {s u : State} {la : Word} {req : Request} {priv : Priv}
    {pa : Nat} {mt : BitVec 3} (read : requestKind req ≠ .write) (nonempty : 0 < requestSize req)
    (onePage : la.toNat % 4096 + requestSize req ≤ 4096)
    (h : s.translate la (requestKind req) priv = (.ok pa mt, u)) :
    s.accessOnce la req priv = .done (Memory.readBytes u.mem pa (requestSize req))
      (u.showRead pa (requestSize req) (requestKind req) mt) := by
  have placed := State.place_singleton h (requestSize req)
  rw [← splitPages_onePage nonempty onePage] at placed
  cases req with
  | write bs => exact absurd rfl read
  | read n => simp [State.accessOnce, placed, State.readParts]
  | fetch n => simp [State.accessOnce, placed, State.readParts]

/-- An access of at most a quadword at a canonical address, if its one access is done, leaves what that
leaves (R70, R191). -/
theorem exec_access_done {s t : State} {la : Word} {req : Request} {priv : Priv} {bytes : List Byte}
    (canonical : s.self.pagingMode.canonical la = true) (small : requestSize req ≤ 8)
    (done : s.tick.tick.accessOnce la req priv = .done bytes t) :
    exec (.access la req priv) s = .next t := by
  have linear : s.tick.accessLinear la req priv = .done bytes t := by
    rw [State.accessLinear, piecesOf, if_pos small]
    simp [State.accessPieces, requestPiece_whole, done]
  simp [exec, execAccess, canonical, linear, accessEnds]

/-! ### What a read shows -/

/-- A read of physical memory changes nothing but what has been shown. -/
theorem State.showRead_eq (s : State) (pa n : Nat) (k : Kind) (mt : BitVec 3) :
    ∃ more, s.showRead pa n k mt =
      { s with trace := more ++ .access s.self.id pa k (Memory.readBytes s.mem pa n) mt :: s.trace } := by
  unfold State.showRead
  extract_lets s1
  split
  · exact ⟨[.sideEffect s.self.id pa], rfl⟩
  · exact ⟨[], rfl⟩

/-! ### Paging off -/

theorem physicalAddress_of_lt {c : Params} {a : Nat} (h : a < 2 ^ c.maxPhyAddr) :
    physicalAddress c a = a := if_pos h

/-- With paging off the linear address is the physical one, or stands for one (log entries 13, 38). -/
theorem State.translate_pagingOff {s : State} (off : s.self.pagingMode = .none) (la : Word) (k : Kind)
    (priv : Priv) :
    s.translate la k priv = (.ok (physicalAddress s.cfg (la.toNat % 2 ^ 32)) 0, s.tick) := if_pos off

theorem PagingMode.canonical_none (la : Word) : PagingMode.none.canonical la = true := rfl

/-- Settles O23, for the write and for the other kinds. -/
theorem accessPagingOff : Obligations.AccessPagingOff := by
  intro la req priv s off w nonempty small onePage pa
  have canonical : s.self.pagingMode.canonical la = true := by rw [off]; exact PagingMode.canonical_none la
  have found : s.tick.tick.translate la (requestKind req) priv = (.ok pa 0, s.tick.tick.tick) :=
    State.translate_pagingOff (s := s.tick.tick) off la _ priv
  refine ⟨physicalAddress_of_lt, ?_⟩
  by_cases write : requestKind req = .write
  · obtain ⟨bs, rfl⟩ : ∃ bs, req = .write bs := by cases req <;> simp [requestKind] at write ⊢
    refine ⟨_, exec_access_done canonical small (State.accessOnce_write_onePage nonempty onePage found), rfl,
      ?_, fun other => absurd write other⟩
    rintro _ ⟨rfl⟩
    exact ⟨fun i hi => Memory.read_writeBytes_inside _ _ _ _ w hi,
      fun a outside => Memory.read_writeBytes_outside _ _ _ _ w outside, rfl, .pushed _ _, rfl⟩
  · obtain ⟨more, shown⟩ := s.tick.tick.tick.showRead_eq pa (requestSize req) (requestKind req) 0
    have done := State.accessOnce_read_onePage write nonempty onePage found
    rw [shown] at done
    exact ⟨_, exec_access_done canonical small done, rfl, fun bs is => absurd (by rw [is]; rfl) write,
      fun _ => ⟨rfl, rfl, rfl, List.mem_append_right _ List.mem_cons_self⟩⟩

end Sys2Proof.Machine
end

section
/-! PROOF. Encoding and decoding (R110): the decoder reads back each field that the encoder writes. -/

namespace Sys2Proof

/-! ### Registers -/

@[simp] theorem Reg.ofBits_toBits (r : Reg) : Reg.ofBits r.toBits = r := by
  cases r <;> rfl

/-- The field 100B, which announces a SIB byte, is that of `rsp`. -/
@[simp] theorem Reg.toBits_eq_four (r : Reg) : r.toBits = 4#3 ↔ r = .rsp := by
  cases r <;> decide

/-- The field 101B, which with `mod` 00B stands for no base, is that of `rbp`. -/
@[simp] theorem Reg.toBits_eq_five (r : Reg) : r.toBits = 5#3 ↔ r = .rbp := by
  cases r <;> decide

/-! ### The three fields of a ModR/M or SIB byte -/

@[simp] theorem highField_append (high : BitVec 2) (middle low : BitVec 3) :
    (high ++ middle ++ low : Byte).extractLsb' 6 2 = high := by
  rw [BitVec.extractLsb'_append_eq_of_le (by decide)]
  exact BitVec.extractLsb'_append_eq_left

@[simp] theorem middleField_append (high : BitVec 2) (middle low : BitVec 3) :
    (high ++ middle ++ low : Byte).extractLsb' 3 3 = middle := by
  rw [BitVec.extractLsb'_append_eq_of_le (by decide)]
  exact BitVec.extractLsb'_append_eq_right

@[simp] theorem lowField_append (high : BitVec 2) (middle low : BitVec 3) :
    (high ++ middle ++ low : Byte).extractLsb' 0 3 = low := BitVec.extractLsb'_append_eq_right

/-! ### Displacements -/

/-- The four bytes of a displacement, put together with the last one highest, are it (D5). -/
theorem disp32_join (d : BitVec 32) :
    (d.extractLsb' 24 8 ++ d.extractLsb' 16 8 ++ d.extractLsb' 8 8 ++ d.extractLsb' 0 8 : BitVec 32) = d := by
  rw [BitVec.extractLsb'_append_extractLsb'_eq_extractLsb' (start₂ := 24) (start₁ := 16) rfl,
    BitVec.extractLsb'_append_extractLsb'_eq_extractLsb' (start₂ := 16) (start₁ := 8) rfl,
    BitVec.extractLsb'_append_extractLsb'_eq_extractLsb' (start₂ := 8) (start₁ := 0) rfl]
  exact BitVec.extractLsb'_eq_self

@[simp] theorem takeDisp32_disp32Bytes (d : BitVec 32) (rest : List Byte) :
    takeDisp32 (disp32Bytes d ++ rest) = .ok (d, rest) :=
  congrArg (fun e => Except.ok (e, rest)) (disp32_join d)

@[simp] theorem takeDisp_bytes (d : Disp) (rest : List Byte) :
    takeDisp d.mod (d.bytes ++ rest) = .ok (d, rest) := by
  cases d with
  | none => rfl
  | d8 b => rfl
  | d32 d => simp [takeDisp, Disp.mod, Disp.bytes]

/-- No displacement calls for `mod` 11B, the register form. -/
@[simp] theorem Disp.mod_ne_three (d : Disp) : d.mod ≠ 3#2 := by
  cases d <;> simp [Disp.mod]

@[simp] theorem Disp.mod_eq_zero (d : Disp) : d.mod = 0#2 ↔ d = .none := by
  cases d <;> simp [Disp.mod]

/-! ### Memory forms -/

theorem takeMem_base (reg : BitVec 3) {r : Reg} {d : Disp} (wf : (MemOperand.base r d).wf = true)
    (rest : List Byte) :
    takeMem (d.mod ++ reg ++ r.toBits : Byte) (d.bytes ++ rest) = .ok (.base r d, rest) := by
  obtain ⟨noSib, notDirect⟩ : r ≠ .rsp ∧ ¬ (r = .rbp ∧ d = .none) := by
    simpa [MemOperand.wf, imp_iff_not_or] using wf
  simp [takeMem, noSib, notDirect]

theorem takeMem_direct (reg : BitVec 3) (d : BitVec 32) (rest : List Byte) :
    takeMem ((0 : BitVec 2) ++ reg ++ (5 : BitVec 3) : Byte) (disp32Bytes d ++ rest) =
      .ok (.direct d, rest) := by
  simp [takeMem]

theorem takeMem_sib (reg : BitVec 3) (scale : BitVec 2) (index : Reg) {base : Reg} {d : Disp}
    (wf : (MemOperand.sib scale index base d).wf = true) (rest : List Byte) :
    takeMem (d.mod ++ reg ++ (4 : BitVec 3) : Byte)
      ((scale ++ index.toBits ++ base.toBits : Byte) :: d.bytes ++ rest) =
      .ok (.sib scale index base d, rest) := by
  have hasBase : ¬ (base = .rbp ∧ d = .none) := by
    simpa [MemOperand.wf, imp_iff_not_or] using wf
  simp [takeMem, hasBase]

theorem takeMem_sibDirect (reg : BitVec 3) (scale : BitVec 2) (index : Reg) (d : BitVec 32)
    (rest : List Byte) :
    takeMem ((0 : BitVec 2) ++ reg ++ (4 : BitVec 3) : Byte)
      ((scale ++ index.toBits ++ (5 : BitVec 3) : Byte) :: disp32Bytes d ++ rest) =
      .ok (.sibDirect scale index d, rest) := by
  simp [takeMem]

/-- A memory form is encoded by a ModR/M byte with the field `reg` and by bytes after it, from which the decoder reads
the form back. -/
theorem memBytes_decodes (reg : BitVec 3) {m : MemOperand} (wf : m.wf = true) :
    ∃ modrm bs, memBytes reg m = modrm :: bs ∧ modrm.extractLsb' 3 3 = reg ∧
      ∀ rest, takeMem modrm (bs ++ rest) = .ok (m, rest) := by
  cases m with
  | base r d => exact ⟨_, _, rfl, middleField_append .., takeMem_base reg wf⟩
  | direct d => exact ⟨_, _, rfl, middleField_append .., takeMem_direct reg d⟩
  | sib scale index base d => exact ⟨_, _, rfl, middleField_append .., takeMem_sib reg scale index wf⟩
  | sibDirect scale index d =>
    exact ⟨_, _, rfl, middleField_append .., takeMem_sibDirect reg scale index d⟩

/-! ### The instructions after their opcode -/

theorem decodeInvlpg_memBytes {m : MemOperand} (wf : m.wf = true) (rest : List Byte) :
    decodeInvlpg (memBytes 7#3 m ++ rest) = .ok (.invlpg m, rest) := by
  obtain ⟨modrm, bs, bytes, field, form⟩ := memBytes_decodes 7#3 wf
  simp [bytes, decodeInvlpg, field, form]

theorem decodeInvpcid_memBytes (r : Reg) {m : MemOperand} (wf : m.wf = true) (rest : List Byte) :
    decodeInvpcid (0x0F :: 0x38 :: 0x82 :: memBytes r.toBits m ++ rest) = .ok (.invpcid r m, rest) := by
  obtain ⟨modrm, bs, bytes, field, form⟩ := memBytes_decodes r.toBits wf
  simp [bytes, decodeInvpcid, field, form]

@[simp] theorem crModrm_reg (n : BitVec 3) (r : Reg) : (crModrm n r).extractLsb' 3 3 = n :=
  middleField_append ..

@[simp] theorem crModrm_rm (n : BitVec 3) (r : Reg) : (crModrm n r).extractLsb' 0 3 = r.toBits :=
  lowField_append ..

theorem decodeMovToCr_cr0 (r : Reg) (rest : List Byte) :
    decodeMovToCr (crModrm 0 r :: rest) = .ok (.movToCr0 r, rest) := by
  simp [decodeMovToCr]

theorem decodeMovToCr_cr3 (r : Reg) (rest : List Byte) :
    decodeMovToCr (crModrm 3 r :: rest) = .ok (.movToCr3 r, rest) := by
  simp [decodeMovToCr]

theorem decodeMovToCr_cr4 (r : Reg) (rest : List Byte) :
    decodeMovToCr (crModrm 4 r :: rest) = .ok (.movToCr4 r, rest) := by
  simp [decodeMovToCr]

theorem decodeMovFromCr_crModrm (n : BitVec 3) (r : Reg) (rest : List Byte) :
    decodeMovFromCr (crModrm n r :: rest) = .ok (.movFromCr n r, rest) := by
  simp [decodeMovFromCr]

/-! ### The opcodes -/

theorem decode_invlpg_opcode (bs : List Byte) : decode (0x0F :: 0x01 :: bs) = decodeInvlpg bs := rfl

theorem decode_movToCr_opcode (bs : List Byte) : decode (0x0F :: 0x22 :: bs) = decodeMovToCr bs := rfl

theorem decode_movFromCr_opcode (bs : List Byte) : decode (0x0F :: 0x20 :: bs) = decodeMovFromCr bs := rfl

theorem decode_invpcid_opcode (bs : List Byte) : decode (0x66 :: bs) = decodeInvpcid bs := rfl

theorem decode_hlt_opcode (bs : List Byte) : decode (0xF4 :: bs) = .ok (.hlt, bs) := rfl

/-- Settles O1: the opcode leads to the decoder of the operands, which reads back the fields; the events, the
internal steps and the types of `INVPCID` have no encoding. -/
theorem decodeEncodeAgree : Obligations.DecodeEncodeAgree := by
  intro i bs rest wf encoded
  cases i with
  | invlpg m => cases encoded; exact (decode_invlpg_opcode _).trans (decodeInvlpg_memBytes wf rest)
  | invpcid r m => cases encoded; exact (decode_invpcid_opcode _).trans (decodeInvpcid_memBytes r wf rest)
  | movToCr0 r => cases encoded; exact (decode_movToCr_opcode _).trans (decodeMovToCr_cr0 r rest)
  | movToCr3 r => cases encoded; exact (decode_movToCr_opcode _).trans (decodeMovToCr_cr3 r rest)
  | movToCr4 r => cases encoded; exact (decode_movToCr_opcode _).trans (decodeMovToCr_cr4 r rest)
  | movFromCr n r =>
    cases encoded; exact (decode_movFromCr_opcode _).trans (decodeMovFromCr_crModrm n r rest)
  | hlt => cases encoded; exact decode_hlt_opcode rest
  | _ => cases encoded

/-- Settles O2: each word is the encoding of its instruction (`decodeEncodeAgree`). -/
theorem specWordsDecode : Obligations.SpecWordsDecode :=
  ⟨decodeEncodeAgree (.invlpg (.base .rsi .none)) _ [] rfl rfl,
    decodeEncodeAgree (.invpcid .rax (.base .rbx .none)) _ [] rfl rfl,
    decodeEncodeAgree (.movToCr3 .rax) _ [] rfl rfl,
    decodeEncodeAgree (.movToCr4 .rcx) _ [] rfl rfl,
    decodeEncodeAgree (.movFromCr 4 .rax) _ [] rfl rfl,
    decodeEncodeAgree .hlt _ [] rfl rfl⟩

end Sys2Proof
end

section
/-! PROOF. What the operands of `INVPCID`, of a move to CR4 and of a move from a control register decide before anything
is done (R108 to R110, R124). -/

namespace Sys2Proof.Machine

/-! ### `INVPCID` of a type that is not defined -/

/-- Settles O41: the check of the type comes before the descriptor's read. -/
theorem invpcidTypeRefused : Obligations.InvpcidTypeRefused := by
  intro r m s supervisor undefined
  have notUser : s.self.mode ≠ .user := by simp [supervisor]
  exact (if_neg notUser).trans (if_pos undefined)

/-! ### Moves to CR4 that raise #GP -/

/-- A source that CR4 does not take raises #GP at either privilege (R124, D4; outside supervisor mode G11). -/
theorem exec_movToCr4_refused {r : Reg} {s : State}
    (refused : s.self.cr4Refused s.cfg (s.self.source r) = true) :
    exec (.movToCr4 r) s = .next (s.raiseGp (.movToCr4 r)) := by
  refine congrArg Host.Outcome.next ?_
  cases mode : s.self.mode with
  | user => exact s.privileged_user _ _ mode
  | supervisor => exact (s.privileged_supervisor _ _ mode).trans (if_pos refused)

/-- Where PCIDs are not supported, no source that sets `CR4.PCIDE` is taken (R109, D4). -/
theorem Processor.cr4Refused_unsupported (l : Processor) {c : Params} {src : Word}
    (unsupported : c.pcidSupported = false) (sets : cr4Pcide src = true) : l.cr4Refused c src = true := by
  simp [Processor.cr4Refused, unsupported, sets]

/-- Settles O53. -/
theorem movToCr4Unsupported : Obligations.MovToCr4Unsupported := by
  intro r s unsupported sets
  exact ⟨_, exec_movToCr4_refused (s.self.cr4Refused_unsupported unsupported sets), .raiseGp s _⟩

/-! ### Moves from control registers -/

theorem exec_movFromCr_some {n : BitVec 3} {r : Reg} {s : State} {v : Word}
    (supervisor : s.self.mode = .supervisor) (value : s.self.crValue n = some v) :
    exec (.movFromCr n r) s = .next (s.movFromCr r v) := by
  simp [exec, execMovFromCr, supervisor, value]

theorem exec_movFromCr_none {n : BitVec 3} {r : Reg} {s : State}
    (supervisor : s.self.mode = .supervisor) (unnamed : s.self.crValue n = none) :
    exec (.movFromCr n r) s = .refused (.noSuchControlRegister n) := by
  simp [exec, execMovFromCr, supervisor, unnamed]

@[simp] theorem Processor.crValue_zero (l : Processor) : l.crValue 0 = some l.cr0 := rfl

@[simp] theorem Processor.crValue_two (l : Processor) : l.crValue 2 = some l.cr2 := rfl

@[simp] theorem Processor.crValue_three (l : Processor) : l.crValue 3 = some l.cr3 := rfl

@[simp] theorem Processor.crValue_four (l : Processor) : l.crValue 4 = some l.cr4 := rfl

theorem Processor.crValue_other (l : Processor) {n : BitVec 3} (not0 : n ≠ 0) (not2 : n ≠ 2) (not3 : n ≠ 3)
    (not4 : n ≠ 4) : l.crValue n = none := by
  rw [Processor.crValue, if_neg not0, if_neg not2, if_neg not3, if_neg not4]

/-- Settles O54, by the number of the register. -/
theorem movFromCrResult : Obligations.MovFromCrResult := by
  intro n r s supervisor
  split_ifs with is0 is2 is3 is4
  · subst is0; exact exec_movFromCr_some supervisor s.self.crValue_zero
  · subst is2; exact exec_movFromCr_some supervisor s.self.crValue_two
  · subst is3; exact exec_movFromCr_some supervisor s.self.crValue_three
  · subst is4; exact exec_movFromCr_some supervisor s.self.crValue_four
  · exact exec_movFromCr_none supervisor (s.self.crValue_other is0 is2 is3 is4)

end Sys2Proof.Machine
end

section
/-! PROOF. The current PCID and the moves that set or need `CR4.PCIDE` (R121, R124, R125), the entries that a
translation may start from (R127, R179), and what the entries that a fill makes hold (R126, R141, R144, R151, R172
to R180). -/

namespace Sys2Proof.Machine

/-! ### The current PCID -/

theorem Processor.curPcid_off {l : Processor} (off : l.pcide = false) : l.curPcid = 0 := by
  simp [Processor.curPcid, off]

theorem Processor.curPcid_on {l : Processor} (on : l.pcide = true) :
    l.curPcid = l.cr3.extractLsb' 0 12 := if_pos on

/-- Settles O9. -/
theorem currentPcid : Obligations.CurrentPcid :=
  fun _ => ⟨Processor.curPcid_off, Processor.curPcid_on⟩

/-! ### Moves that raise #GP for `CR4.PCIDE` -/

/-- A source that CR0 does not take raises #GP at either privilege (R125; outside supervisor mode G11). -/
theorem exec_movToCr0_refused {r : Reg} {s : State} (refused : s.self.cr0Refused (s.self.source r) = true) :
    exec (.movToCr0 r) s = .next (s.raiseGp (.movToCr0 r)) := by
  refine congrArg Host.Outcome.next ?_
  rcases s.privileged_cases (.movToCr0 r) fun s => s.movToCr0 (.movToCr0 r) (s.self.source r) with gp | runs
  · exact gp
  · exact runs.trans (if_pos refused)

/-- Settles O45: a write that clears `CR0.PG` with PCIDs on is refused. -/
theorem movToCr0Gp : Obligations.MovToCr0Gp := by
  intro r s on clears pcide
  have refused : s.self.cr0Refused (s.self.source r) = true := by
    simp [Processor.cr0Refused, on, clears, Processor.pcide, cr4Pcide, pcide]
  exact ⟨_, exec_movToCr0_refused refused, .raiseGp s _⟩

/-- PCIDs are not turned on outside IA-32e mode, nor with a PCID other than 000H in CR3 (R124). -/
theorem Processor.cr4Refused_turnsOn {l : Processor} {c : Params} {src : Word} (off : l.pcide = false)
    (sets : cr4Pcide src = true) (why : l.lma = false ∨ l.cr3.extractLsb' 0 12 ≠ 0) :
    l.cr4Refused c src = true := by
  have either : (l.lma = false ∨ l.cr3.extractLsb' 0 12 ≠ 0) ∨ c.pcidSupported = false := .inl why
  simpa [Processor.cr4Refused, off, sets] using either

/-- Settles O52. -/
theorem movToCr4Gp : Obligations.MovToCr4Gp := by
  intro r s off sets why
  exact ⟨_, exec_movToCr4_refused (Processor.cr4Refused_turnsOn off sets why), .raiseGp s _⟩

/-! ### Starts of a translation -/

/-- A route through a paging-structure cache, of either kind of paging, is one of its entries for the address under
the current PCID (R127, R179, R185). -/
theorem Processor.mem_pscRoutes {l : Processor} {hlat : Bool} {la : Word} {r : Route} :
    r ∈ l.pscRoutes hlat la ↔ ∃ k ∈ l.pagingMode.caches, ∃ e ∈ l.psc.get k,
      l.matchesPsc la k e = true ∧ e.hlat = hlat ∧ .psc k e = r := by
  simp [Processor.pscRoutes, and_assoc]

/-- Every start is a TLB hit, an entry of a paging-structure cache or a root (R191). -/
theorem Processor.routes_cases {l : Processor} {c : Params} {la : Word} {r : Route} (start : r ∈ l.routes c la) :
    (∃ e ∈ l.hits la, r = .tlb e) ∨ (∃ hlat, r ∈ l.pscRoutes hlat la) ∨ r = .root ∨ r = .hlatRoot := by
  simp only [Processor.routes, Processor.walkRoutes, List.mem_append, List.mem_map, List.mem_singleton] at start
  rcases start with (⟨e, hit, rfl⟩ | cached | root) | hlat
  · exact .inl ⟨e, hit, rfl⟩
  · exact .inr (.inl ⟨_, cached⟩)
  · exact .inr (.inr (.inl root))
  · split at hlat
    · rcases List.mem_append.1 hlat with cached | root
      · exact .inr (.inl ⟨_, cached⟩)
      · exact .inr (.inr (.inr (List.mem_singleton.1 root)))
    · cases hlat

theorem Processor.mem_hits {l : Processor} {la : Word} {e : TlbEntry} :
    e ∈ l.hits la ↔ e ∈ l.tlb ∧ l.matchesTlb la e = true ∧ (e.pcid = l.curPcid ∨ e.glob = true) := by
  simp [Processor.hits, Processor.usableTlb]

/-- A TLB entry that a translation starts from is a hit (R147). -/
theorem Processor.tlb_mem_routes {l : Processor} {c : Params} {la : Word} {e : TlbEntry}
    (start : .tlb e ∈ l.routes c la) : e ∈ l.hits la := by
  rcases Processor.routes_cases start with ⟨_, hit, same⟩ | ⟨_, cached⟩ | root | root
  · cases same; exact hit
  · obtain ⟨_, _, _, _, _, _, other⟩ := Processor.mem_pscRoutes.1 cached
    cases other
  · cases root
  · cases root

/-- A paging-structure-cache entry that a translation starts from is for the address under the current PCID
(R127, R179). -/
theorem Processor.psc_mem_routes {l : Processor} {c : Params} {la : Word} {k : CacheKind} {e : PscEntry}
    (start : .psc k e ∈ l.routes c la) :
    k ∈ l.pagingMode.caches ∧ e ∈ l.psc.get k ∧ l.matchesPsc la k e = true := by
  rcases Processor.routes_cases start with ⟨_, _, other⟩ | ⟨_, cached⟩ | root | root
  · cases other
  · obtain ⟨_, cache, _, mem, forLa, _, same⟩ := Processor.mem_pscRoutes.1 cached
    cases same; exact ⟨cache, mem, forLa⟩
  · cases root
  · cases root

/-- Settles O13. -/
theorem onlyUsableEntries : Obligations.OnlyUsableEntries := by
  intro l c la
  refine ⟨fun e start => ?_, fun k e start => ?_⟩
  · obtain ⟨mem, -, usable⟩ := Processor.mem_hits.1 (Processor.tlb_mem_routes start)
    exact ⟨mem, usable⟩
  · obtain ⟨cache, mem, forLa⟩ := Processor.psc_mem_routes start
    obtain ⟨pcid, tag⟩ := Bool.and_eq_true_iff.1 forLa
    refine ⟨cache, mem, beq_iff_eq.1 pcid, tag, fun mode => ?_⟩
    rw [l.tagMatches_same la k mode] at tag
    exact beq_iff_eq.1 tag

/-! ### The entries that a walk uses -/

/-- An entry that a walk goes on from, or ends at with a page: present, with no reserved bit set (R191). -/
def Hop.Valid (h : Hop) : Prop := h.view.p = true ∧ h.view.rsvdOk = true

theorem Processor.walk_valid (l : Processor) (c : Params) (moment : Nat → Past) (hlat : Bool) (la : Word)
    (ks : List Level) (table : Nat) (acc : Rights) (i : Nat) :
    ∀ h ∈ (l.walk c moment hlat la ks table acc i).1, h.Valid := by
  induction ks generalizing table acc i with
  | nil => simp [Processor.walk]
  | cons k ks ih =>
    unfold Processor.walk
    extract_lets r v hop rest
    split
    · simp
    · rename_i valid
      have first : hop.Valid := by simpa [Hop.Valid] using valid
      split
      · simpa using first
      · split
        · simpa using first
        · exact List.forall_mem_cons.2 ⟨first, ih _ _ _⟩

/-- What holds of the entries of every walk, of HLAT paging or ordinary, holds of those of every path. -/
theorem Processor.path_all {l : Processor} {c : Params} {moment : Nat → Past} {la : Word} {P : Hop → Prop}
    (walks : ∀ hlat ks table acc i, ∀ h ∈ (l.walk c moment hlat la ks table acc i).1, P h)
    (ch : WalkChoice) (r : Route) : ∀ h ∈ (l.path c moment ch la r).hops, P h := by
  have ordinary : ∀ r i, ∀ h ∈ (l.ordinaryWalk c moment la r i).1, P h := by
    intro r i
    unfold Processor.ordinaryWalk
    split <;> exact walks _ _ _ _ _
  have restarted : ∀ hops k, (∀ h ∈ hops, P h) → ∀ h ∈ (l.restarted c moment ch la hops k).hops, P h :=
    fun hops k before => List.forall_mem_append.2 ⟨before, ordinary _ _⟩
  have hlatPath : ∀ ks table acc, ∀ h ∈ (l.hlatPath c moment ch la ks table acc).hops, P h := by
    intro ks table acc
    have walked := walks true ks table acc 0
    unfold Processor.hlatPath
    split
    · rename_i hops k e; rw [e] at walked; exact restarted hops k walked
    · rename_i hops _ _ e; rw [e] at walked; exact walked
  unfold Processor.path
  split
  · exact hlatPath _ _ _
  · split
    · split
      · exact restarted [] _ (by simp)
      · exact hlatPath _ _ _
    · exact ordinary _ _
  · exact ordinary _ _

theorem State.walkOf_valid (s : State) (ch : WalkChoice) (la : Word) : ∀ h ∈ (s.walkOf ch la).hops, h.Valid := by
  unfold State.walkOf State.locate
  split
  · simp
  · split
    · simp
    · rename_i walked
      split at walked
      · cases walked
      · cases walked
        exact Processor.path_all (s.self.walk_valid _ _ · _) ch _

/-- A fill goes along the first entries of the walk that its choice leads to (R194). -/
theorem State.fillWith_walkOf (s : State) (ch : WalkChoice) (la : Word) :
    s.fillWith ch la = s.fillHops ch (s.walkOf ch la).cap la ((s.walkOf ch la).hops.take ch.depth) 0 := by
  unfold State.fillWith State.walkOf State.locate
  split
  · simp [State.fillHops]
  · cases pick ch.route Route.root (s.self.routes s.cfg la) <;> simp [State.fillHops]

/-! ### What a fill makes -/

/-- The level that a cache holds entries of is the cache's own (R30). -/
theorem Level.eq_cacheLevel {level : Level} {k : CacheKind} (h : level.cache = some k) : level = cacheLevel k := by
  cases level <;> cases h <;> rfl

theorem OnlyCaches.tlbEntryOf {l l' : Processor} (o : OnlyCaches l l') (ch : WalkChoice) (cap : Option PageSize)
    (la : Word) (h : Hop) : l'.tlbEntryOf ch cap la h = l.tlbEntryOf ch cap la h := by
  rw [o]; rfl

theorem OnlyCaches.pscEntryOf {l l' : Processor} (o : OnlyCaches l l') (k : CacheKind) (la : Word) (h : Hop) :
    l'.pscEntryOf k la h = l.pscEntryOf k la h := by
  rw [o]; rfl

theorem OnlyCaches.pagingMode {l l' : Processor} (o : OnlyCaches l l') : l'.pagingMode = l.pagingMode := by
  rw [o]; rfl

/-- Every entry of the caches of `l'` was there in `l`, or was made from one of the entries `hops` of a walk of `la`:
a TLB entry from one that maps a page, a paging-structure-cache entry from one of its level with the PS flag clear
(R141, R172 to R178). -/
structure MadeFrom (ch : WalkChoice) (cap : Option PageSize) (la : Word) (hops : List Hop) (l l' : Processor) :
    Prop where
  registers : OnlyCaches l l'
  tlb : ∀ e ∈ l'.tlb, e ∈ l.tlb ∨ ∃ h ∈ hops, h.view.maps = true ∧ e = l.tlbEntryOf ch cap la h
  psc : ∀ k, ∀ e ∈ l'.psc.get k, e ∈ l.psc.get k ∨ (k ∈ l.pagingMode.caches ∧
    ∃ h ∈ hops, h.level = cacheLevel k ∧ h.view.ps = false ∧ e = l.pscEntryOf k la h)

section
variable {ch : WalkChoice} {cap : Option PageSize} {la : Word}

/-- Caches left as they are hold nothing new. -/
theorem MadeFrom.of_same {hops : List Hop} {l l' : Processor} (o : OnlyCaches l l') (tlb : l'.tlb = l.tlb)
    (psc : l'.psc = l.psc) : MadeFrom ch cap la hops l l' :=
  ⟨o, fun _ he => .inl (tlb ▸ he), fun _ _ he => .inl (psc ▸ he)⟩

theorem MadeFrom.mono {hops hops' : List Hop} {l l' : Processor} (made : MadeFrom ch cap la hops l l')
    (sub : hops ⊆ hops') : MadeFrom ch cap la hops' l l' where
  registers := made.registers
  tlb e he := (made.tlb e he).imp_right fun ⟨h, mem, origin⟩ => ⟨h, sub mem, origin⟩
  psc k e he := (made.psc k e he).imp_right fun ⟨cache, h, mem, origin⟩ => ⟨cache, h, sub mem, origin⟩

/-- The entries that later work makes are those that the first processor would have made: none depends on the
caches. -/
theorem MadeFrom.trans {hops : List Hop} {l m n : Processor} (first : MadeFrom ch cap la hops l m)
    (later : MadeFrom ch cap la hops m n) : MadeFrom ch cap la hops l n where
  registers := first.registers.trans later.registers
  tlb e he := by
    rcases later.tlb e he with old | new
    · exact first.tlb e old
    · simp only [first.registers.tlbEntryOf] at new
      exact .inr new
  psc k e he := by
    rcases later.psc k e he with old | new
    · exact first.psc k e old
    · simp only [first.registers.pscEntryOf, first.registers.pagingMode] at new
      exact .inr new

theorem MadeFrom.addTlb {l : Processor} {h : Hop} (maps : h.view.maps = true) :
    MadeFrom ch cap la [h] l (l.addTlb (l.tlbEntryOf ch cap la h)) := by
  unfold Processor.addTlb
  split
  · exact .of_same (.refl l) rfl rfl
  · refine ⟨rfl, fun e he => ?_, fun _ _ he => .inl he⟩
    rcases List.mem_cons.1 he with new | old
    · exact .inr ⟨h, List.mem_singleton_self h, maps, new⟩
    · exact .inl old

theorem MadeFrom.addPsc {l : Processor} {k : CacheKind} {h : Hop} (level : h.level.cache = some k)
    (cache : k ∈ l.pagingMode.caches) (ps : h.view.ps = false) :
    MadeFrom ch cap la [h] l (l.addPsc k (l.pscEntryOf k la h)) := by
  refine ⟨.addPsc _ _ _, fun _ he => .inl he, fun j e he => ?_⟩
  rcases l.mem_addPsc k j _ e he with ⟨rfl, new⟩ | old
  · exact .inr ⟨cache, h, List.mem_singleton_self h, Level.eq_cacheLevel level, ps, new⟩
  · exact .inl old

theorem MadeFrom.cacheHop (s : State) (h : Hop) : MadeFrom ch cap la [h] s.self (s.cacheHop ch cap la h).self := by
  rcases s.cacheHop_cases ch cap la h with e | ⟨maps, -, -, e⟩ | ⟨k, level, cache, ps, -, e⟩ <;> rw [e]
  · exact .of_same (.refl _) rfl rfl
  · exact .addTlb maps
  · exact .addPsc level cache ps

theorem MadeFrom.setAccessed (s : State) (h : Hop) : MadeFrom ch cap la [h] s.self (s.setAccessed h).self := by
  refine .of_same (FlagsOnly.setAccessed s h).registers ?_ ?_ <;>
  · unfold State.setAccessed
    split
    · split <;> rfl
    · rfl

/-- By induction on the entries that the fill goes along. -/
theorem MadeFrom.fillHops (s : State) (hops : List Hop) (i : Nat) :
    MadeFrom ch cap la hops s.self (s.fillHops ch cap la hops i).self := by
  induction hops generalizing s i with
  | nil => exact .of_same (.refl _) rfl rfl
  | cons h hs ih =>
    unfold State.fillHops
    extract_lets s1 s2
    have flagged : MadeFrom ch cap la [h] s.self s1.self := .setAccessed s h
    have cached : MadeFrom ch cap la [h] s1.self s2.self := by
      simp only [s2]
      split
      · exact .cacheHop s1 h
      · exact .of_same (.refl _) rfl rfl
    exact ((flagged.trans cached).mono (by simp)).trans ((ih s2 _).mono (List.subset_cons_self h hs))

end

/-- A fill makes entries from its walk alone (R126, R194). -/
theorem MadeFrom.fillWith (s : State) (ch : WalkChoice) (la : Word) :
    MadeFrom ch (s.walkOf ch la).cap la (s.walkOf ch la).hops s.self (s.fillWith ch la).self := by
  rw [s.fillWith_walkOf]
  exact (MadeFrom.fillHops s _ 0).mono (List.take_subset _ _)

/-- Settles O19: the fields of the entry are those of `tlbEntryOf`. -/
theorem fillNewTlb : Obligations.FillNewTlb := by
  intro la s ch e mem new
  obtain ⟨h, used, maps, rfl⟩ := ((MadeFrom.fillWith s ch la).tlb e mem).resolve_left new
  obtain ⟨present, reserved⟩ := s.walkOf_valid ch la h used
  exact ⟨h, used, maps, present, reserved, rfl, rfl, rfl, rfl, rfl, rfl, rfl, rfl, rfl,
    s.self.tlbEntryOf_size ch _ la h, rfl, rfl, rfl⟩

/-- Settles O20: the fields of the entry are those of `pscEntryOf`. -/
theorem fillNewPsc : Obligations.FillNewPsc := by
  intro la s ch k e mem new
  obtain ⟨cache, h, used, level, ps, rfl⟩ := ((MadeFrom.fillWith s ch la).psc k e mem).resolve_left new
  obtain ⟨present, reserved⟩ := s.walkOf_valid ch la h used
  exact ⟨cache, h, used, level, present, reserved, ps, rfl, rfl, rfl, rfl, rfl, rfl, rfl, rfl, rfl, rfl, rfl⟩

end Sys2Proof.Machine
end

section
/-! PROOF. What decides a translation that uses a TLB entry (R147), how the rights narrow along a walk (R141, R184),
which accessed flags a fill has set before it caches (R145, R181), and what an eviction takes (R143, R190). -/

namespace Sys2Proof

/-- The rights are no wider than these flags: a clear R/W or U/S flag, or a set XD flag, is in them (R141). -/
def Rights.Within (r : Rights) (rw us xd : Bool) : Prop :=
  (r.rw = true → rw = true) ∧ (r.us = true → us = true) ∧ (xd = true → r.xd = true)

theorem Rights.Within.trans {r q : Rights} {rw us xd : Bool} (h : r.Within q.rw q.us q.xd)
    (g : q.Within rw us xd) : r.Within rw us xd := by
  obtain ⟨hrw, hus, hxd⟩ := h
  obtain ⟨grw, gus, gxd⟩ := g
  exact ⟨grw ∘ hrw, gus ∘ hus, hxd ∘ gxd⟩

end Sys2Proof

namespace Sys2Proof.Machine

/-! ### A TLB entry in use -/

/-- A TLB entry that a translation uses is a hit (R147, R191). -/
theorem State.locate_hit {s : State} {ch : WalkChoice} {la : Word} {e : TlbEntry} (hit : s.locate ch la = .hit e) :
    e ∈ s.self.hits la := by
  unfold State.locate at hit
  split at hit
  · rename_i x picked
    cases hit
    refine Processor.tlb_mem_routes (c := s.cfg) ((pick_mem ch.route .root (s.self.routes s.cfg la)).elim ?_ ?_)
    · intro root; cases picked.symm.trans root
    · intro mem; rwa [picked] at mem
  · cases hit

/-- The entry that a translation uses decides its outcome (R147). -/
theorem State.translateWith_hit {s : State} {ch : WalkChoice} {la : Word} {e : TlbEntry}
    (on : s.self.pagingMode ≠ .none) (hit : s.locate ch la = .hit e) (k : Kind) (priv : Priv) :
    (s.translateWith ch la k priv).1 =
      if s.self.permits (tlbTranslation e la).rights k priv then
        .ok (tlbTranslation e la).pa (tlbTranslation e la).memType
      else .pageFault := by
  simp only [State.translateWith, if_neg on, hit]
  split <;> rfl

/-- Settles O11: the entry is among the hits (`State.locate_hit`), and no walk is looked at
(`State.translateWith_hit`). -/
theorem tlbHitDecides : Obligations.TlbHitDecides := by
  intro s ch la k priv e on hit
  obtain ⟨mem, matched, usable⟩ := Processor.mem_hits.1 (State.locate_hit hit)
  refine ⟨mem, matched, fun mode => ?_, usable, State.translateWith_hit on hit k priv⟩
  rw [s.self.matchesTlb_same la mode] at matched
  exact beq_iff_eq.1 matched

/-! ### Rights along a walk -/

theorem rightsThrough_within_before (r : Rights) (v : View) : (rightsThrough r v).Within r.rw r.us r.xd := by
  simp +contextual [Rights.Within, rightsThrough]

theorem rightsThrough_within_view (r : Rights) (v : View) : (rightsThrough r v).Within v.rw v.us v.xd := by
  simp +contextual [Rights.Within, rightsThrough]

/-- A fill that goes as far as this entry may make a TLB entry from it: it maps a page, and HLAT paging does not restart
at it (R141, R186). -/
def Hop.MakesTlb (h : Hop) : Prop := h.view.maps = true ∧ ¬(h.hlat = true ∧ h.view.restart = true)

/-- The entries that one kind of paging uses, from the rights `start` on: each narrows the rights before it, and
nothing follows an entry that maps a page. -/
structure Stretch (hlat : Bool) (start : Rights) (hops : List Hop) : Prop where
  kind    : ∀ h ∈ hops, h.hlat = hlat
  started : ∀ h ∈ hops, h.rights.Within start.rw start.us start.xd
  own     : ∀ h ∈ hops, h.rights.Within h.view.rw h.view.us h.view.xd
  above   : hops.Pairwise fun a b => b.rights.Within a.view.rw a.view.us a.view.xd
  page    : hops.Pairwise fun a _ => ¬ a.MakesTlb

theorem Stretch.nil (hlat : Bool) (start : Rights) : Stretch hlat start [] :=
  ⟨List.forall_mem_nil _, List.forall_mem_nil _, List.forall_mem_nil _, .nil, .nil⟩

theorem Stretch.singleton {start : Rights} {h : Hop} (rights : h.rights = rightsThrough start h.view) :
    Stretch h.hlat start [h] := by
  refine ⟨?_, ?_, ?_, List.pairwise_singleton _ _, List.pairwise_singleton _ _⟩ <;>
    rw [List.forall_mem_singleton]
  · rw [rights]; exact rightsThrough_within_before _ _
  · rw [rights]; exact rightsThrough_within_view _ _

/-- An entry that leads to further ones, which start with the rights down to it. -/
theorem Stretch.cons {start : Rights} {h : Hop} {rest : List Hop}
    (rights : h.rights = rightsThrough start h.view) (leads : ¬ h.MakesTlb)
    (below : Stretch h.hlat h.rights rest) : Stretch h.hlat start (h :: rest) := by
  have before : h.rights.Within start.rw start.us start.xd := by
    rw [rights]; exact rightsThrough_within_before _ _
  have view : h.rights.Within h.view.rw h.view.us h.view.xd := by
    rw [rights]; exact rightsThrough_within_view _ _
  exact ⟨List.forall_mem_cons.2 ⟨rfl, below.kind⟩,
    List.forall_mem_cons.2 ⟨before, fun b hb => (below.started b hb).trans before⟩,
    List.forall_mem_cons.2 ⟨view, below.own⟩,
    .cons (fun b hb => (below.started b hb).trans view) below.above,
    .cons (fun _ _ => leads) below.page⟩

theorem Processor.walk_stretch (l : Processor) (c : Params) (moment : Nat → Past) (hlat : Bool) (la : Word)
    (ks : List Level) (table : Nat) (acc : Rights) (i : Nat) :
    Stretch hlat acc (l.walk c moment hlat la ks table acc i).1 := by
  induction ks generalizing table acc i with
  | nil => exact .nil _ _
  | cons k ks ih =>
    unfold Processor.walk
    extract_lets r v hop rest
    split
    · exact .nil _ _
    · split
      · exact .singleton (h := hop) rfl
      · split
        · exact .singleton (h := hop) rfl
        · rename_i leads
          exact .cons (h := hop) rfl (fun page => leads page.1) (ih _ _ _)

/-- HLAT paging that restarts has found no page (R186). -/
theorem Processor.walk_restart {l : Processor} {c : Params} {moment : Nat → Past} {hlat : Bool} {la : Word}
    {ks : List Level} {table : Nat} {acc : Rights} {i : Nat} {k : Level}
    (restarts : (l.walk c moment hlat la ks table acc i).2 = .restart k) :
    ∀ h ∈ (l.walk c moment hlat la ks table acc i).1, ¬ h.MakesTlb := by
  induction ks generalizing table acc i with
  | nil => exact List.forall_mem_nil _
  | cons level ks ih =>
    unfold Processor.walk at restarts ⊢
    extract_lets at restarts ⊢
    split at restarts
    · cases restarts
    · rename_i present
      rw [if_neg present]
      split at restarts
      · rename_i flag
        rw [if_pos flag, List.forall_mem_singleton]
        exact fun page => page.2 (Bool.and_eq_true_iff.1 flag)
      · rename_i noFlag
        rw [if_neg noFlag]
        split at restarts
        · cases restarts
        · rename_i leads
          rw [if_neg leads]
          exact List.forall_mem_cons.2 ⟨fun page => leads page.1, ih restarts⟩

/-! ### The two stretches of a path -/

/-- The rights that a start gives: those of the cached entry, or the neutral ones (R184, R191). -/
def Route.rights : Route → Rights
  | .psc _ e => { rw := e.rw, us := e.us, xd := e.xd, pkey := 0 }
  | _ => neutralRights

/-- Where ordinary paging starts on the path from a start: there, or, after HLAT paging, where the restart's choice
says (R186, R191). -/
def Processor.ordinaryStart (l : Processor) (ch : WalkChoice) (la : Word) : Route → Route
  | .hlatRoot => pick ch.restartRoute .root (l.walkRoutes la)
  | .psc k e => if e.hlat then pick ch.restartRoute .root (l.walkRoutes la) else .psc k e
  | _ => .root

theorem Processor.ordinaryWalk_stretch (l : Processor) (c : Params) (moment : Nat → Past) (la : Word) (r : Route)
    (i : Nat) : Stretch false r.rights (l.ordinaryWalk c moment la r i).1 := by
  cases r <;> exact l.walk_stretch _ _ _ _ _ _ _ _

/-- Entries of HLAT paging from the rights `first` on, and after them entries of ordinary paging from the rights
`second` on; either may be none, and a page ends them all. -/
def TwoStretches (first second : Rights) (hops : List Hop) : Prop :=
  ∃ before after, hops = before ++ after ∧ Stretch true first before ∧ Stretch false second after ∧
    (after = [] ∨ ∀ h ∈ before, ¬ h.MakesTlb)

theorem TwoStretches.of_ordinary {first second : Rights} {hops : List Hop} (h : Stretch false second hops) :
    TwoStretches first second hops := ⟨[], hops, rfl, .nil _ _, h, .inr (List.forall_mem_nil _)⟩

theorem TwoStretches.of_hlat {first second : Rights} {hops : List Hop} (h : Stretch true first hops) :
    TwoStretches first second hops := ⟨hops, [], (List.append_nil _).symm, h, .nil _ _, .inl rfl⟩

section
variable (l : Processor) (c : Params) (moment : Nat → Past) (ch : WalkChoice) (la : Word)

theorem Processor.restarted_stretches {first : Rights} {hops : List Hop} (k : Level) (h : Stretch true first hops)
    (noPage : ∀ h ∈ hops, ¬ h.MakesTlb) :
    TwoStretches first (pick ch.restartRoute .root (l.walkRoutes la)).rights
      (l.restarted c moment ch la hops k).hops :=
  ⟨hops, _, rfl, h, l.ordinaryWalk_stretch _ _ _ _ _, .inr noPage⟩

theorem Processor.hlatPath_stretches (ks : List Level) (table : Nat) (acc : Rights) :
    TwoStretches acc (pick ch.restartRoute .root (l.walkRoutes la)).rights
      (l.hlatPath c moment ch la ks table acc).hops := by
  have walked := l.walk_stretch c moment true la ks table acc 0
  unfold Processor.hlatPath
  split
  · rename_i hops k e
    have noPage := Processor.walk_restart (congrArg Prod.snd e)
    rw [e] at walked noPage
    exact l.restarted_stretches c moment ch la k walked noPage
  · rename_i hops _ _ e
    rw [e] at walked
    exact .of_hlat walked

/-- By the start: HLAT paging from it and, after a restart, ordinary paging, or ordinary paging alone. -/
theorem Processor.path_stretches (r : Route) :
    TwoStretches r.rights (l.ordinaryStart ch la r).rights (l.path c moment ch la r).hops := by
  cases r with
  | tlb e => exact .of_ordinary (l.ordinaryWalk_stretch _ _ _ .root _)
  | root => exact .of_ordinary (l.ordinaryWalk_stretch _ _ _ .root _)
  | hlatRoot => exact l.hlatPath_stretches c moment ch la _ _ _
  | psc k e =>
    cases hlat : e.hlat with
    | false =>
      simp only [Processor.path, Processor.ordinaryStart, hlat, Bool.false_eq_true, if_false]
      exact .of_ordinary (l.ordinaryWalk_stretch _ _ _ (.psc k e) _)
    | true =>
      simp only [Processor.path, Processor.ordinaryStart, hlat, if_true]
      split
      · exact l.restarted_stretches c moment ch la _ (.nil _ _) (List.forall_mem_nil _)
      · exact l.hlatPath_stretches c moment ch la _ _ _

end

/-- What a choice leads to is the path from the start it picks, or nothing (R191). -/
theorem State.walkOf_eq_path (s : State) (ch : WalkChoice) (la : Word) :
    (s.walkOf ch la).hops = [] ∨
      s.walkOf ch la = s.self.path s.cfg (s.momentAt ch la) ch la (pick ch.route .root (s.self.routes s.cfg la)) := by
  unfold State.walkOf State.locate
  split
  · exact .inl rfl
  · cases pick ch.route Route.root (s.self.routes s.cfg la) with
    | tlb e => exact .inl rfl
    | psc k e => exact .inr rfl
    | root => exact .inr rfl
    | hlatRoot => exact .inr rfl

theorem State.walkOf_stretches (s : State) (ch : WalkChoice) (la : Word) {start : Route}
    (picked : pick ch.route .root (s.self.routes s.cfg la) = start) :
    TwoStretches start.rights (s.self.ordinaryStart ch la start).rights (s.walkOf ch la).hops := by
  subst picked
  rcases s.walkOf_eq_path ch la with none | path
  · rw [none]; exact .of_ordinary (.nil _ _)
  · rw [path]; exact s.self.path_stretches _ _ _ _ _

section
variable {first second : Rights} {hops : List Hop}

/-- Entries of one kind of paging bound the rights of those below them (R141, R184). -/
theorem TwoStretches.above (two : TwoStretches first second hops) :
    hops.Pairwise fun a b => a.hlat = b.hlat → b.rights.Within a.view.rw a.view.us a.view.xd := by
  obtain ⟨before, after, rfl, hlat, ordinary, -⟩ := two
  refine List.pairwise_append.2 ⟨hlat.above.imp fun w => fun _ => w, ordinary.above.imp fun w => fun _ => w, ?_⟩
  intro a ha b hb same
  rw [hlat.kind a ha, ordinary.kind b hb] at same
  cases same

theorem TwoStretches.own (two : TwoStretches first second hops) :
    ∀ h ∈ hops, h.rights.Within h.view.rw h.view.us h.view.xd := by
  obtain ⟨before, after, rfl, hlat, ordinary, -⟩ := two
  exact List.forall_mem_append.2 ⟨hlat.own, ordinary.own⟩

theorem TwoStretches.hlat (two : TwoStretches first second hops) {h : Hop} (mem : h ∈ hops) (kind : h.hlat = true) :
    h.rights.Within first.rw first.us first.xd := by
  obtain ⟨before, after, rfl, hlat, ordinary, -⟩ := two
  rcases List.mem_append.1 mem with mem | mem
  · exact hlat.started h mem
  · cases kind.symm.trans (ordinary.kind h mem)

theorem TwoStretches.ordinary (two : TwoStretches first second hops) {h : Hop} (mem : h ∈ hops)
    (kind : h.hlat = false) : h.rights.Within second.rw second.us second.xd := by
  obtain ⟨before, after, rfl, hlat, ordinary, -⟩ := two
  rcases List.mem_append.1 mem with mem | mem
  · cases kind.symm.trans (hlat.kind h mem)
  · exact ordinary.started h mem

/-- Nothing follows an entry that a TLB entry is made from (R141, R186). -/
theorem TwoStretches.page (two : TwoStretches first second hops) : hops.Pairwise fun a _ => ¬ a.MakesTlb := by
  obtain ⟨before, after, rfl, hlat, ordinary, ends⟩ := two
  refine List.pairwise_append.2 ⟨hlat.page, ordinary.page, fun a ha b hb => ?_⟩
  rcases ends with rfl | noPage
  · cases hb
  · exact noPage a ha

end

/-- Settles O15: the entries of the walk are two stretches (`State.walkOf_stretches`), in each of which the rights
narrow. -/
theorem rightsFlowDown : Obligations.RightsFlowDown := by
  intro s ch la hops start
  have two := s.walkOf_stretches ch la (start := start) rfl
  refine ⟨fun i j hi hj le same => ?_, fun k e cached h mem kind => ?_, fun k e hlat cached h mem kind => ?_⟩
  · rcases Nat.lt_or_eq_of_le le with lt | rfl
    · exact List.pairwise_iff_getElem.1 two.above i j hi hj lt same
    · exact two.own _ (List.getElem_mem hi)
  · rw [cached] at two
    cases paging : e.hlat with
    | true => exact two.hlat mem (kind.trans paging)
    | false =>
      simp only [Processor.ordinaryStart, paging, Bool.false_eq_true, if_false] at two
      exact two.ordinary mem (kind.trans paging)
  · have restarts : s.self.ordinaryStart ch la start = .psc k e := by
      rcases hlat with root | ⟨k', e', entry, paging⟩
      · rw [root]; exact cached
      · rw [entry, Processor.ordinaryStart, if_pos paging]; exact cached
    rw [restarts] at two
    exact two.ordinary mem kind

/-! ### Accessed flags in memory -/

/-- The accessed flag of the entry is set in memory (R67, G4); a PDPTE register has none. -/
def Hop.MarkedIn (m : Memory) (h : Hop) : Prop :=
  ∀ a, h.place = some a → (Memory.read m a).getLsbD 5 = true

/-- Where the entry was read with its accessed flag set, the flag is set in memory. -/
def Hop.FlagFrom (m : Memory) (h : Hop) : Prop :=
  ∀ a, h.place = some a → h.view.a = true → (Memory.read m a).getLsbD 5 = true

/-- The accessed flag is in the first byte of an entry (D5, G4). -/
theorem Memory.readValue_flag (m : Memory) (k n : Nat) :
    (Memory.readValue m k (n + 1)).getLsbD 5 = (Memory.read m k).getLsbD 5 := by
  have bytes : bytesValue (Memory.readBytes m k (n + 1)) =
      2 ^ 8 * bytesValue (Memory.readBytes m (k + 1) n) + (Memory.read m k).toNat := Nat.add_comm _ _
  rw [Memory.readValue, BitVec.getLsbD_ofNat, bytes, Nat.testBit_two_pow_mul_add _ (BitVec.isLt _)]
  rfl

theorem Processor.readPse_flag (l : Processor) (c : Params) (m : Memory) (k : Level) (table : Nat) (la : Word)
    {a : Nat} (place : (l.readPse c m k table la).1 = some a) (flag : (l.readPse c m k table la).2.a = true) :
    (Memory.read m a).getLsbD 5 = true := by
  simp only [Processor.readPse] at place flag
  split at place
  · cases place
  · rename_i fromMemory
    rw [if_neg fromMemory] at flag
    obtain ⟨n, size⟩ : ∃ n, entrySize l.pagingMode = n + 1 := by
      unfold entrySize; split <;> exact ⟨_, rfl⟩
    rw [← Option.some.inj place, ← Memory.readValue_flag m _ n]
    simpa [viewOf, fromMemory, size] using flag

/-- A walk that sees one value of memory alone reads the flags in it. -/
theorem Processor.walk_flagFrom (l : Processor) (c : Params) {moment : Nat → Past} {m : Memory}
    (sees : ∀ i, (moment i).mem = m) (hlat : Bool) (la : Word) (ks : List Level) (table : Nat) (acc : Rights)
    (i : Nat) : ∀ h ∈ (l.walk c moment hlat la ks table acc i).1, h.FlagFrom m := by
  induction ks generalizing table acc i with
  | nil => exact List.forall_mem_nil _
  | cons k ks ih =>
    unfold Processor.walk
    extract_lets r v hop rest
    have first : hop.FlagFrom m := by
      intro a place flag
      rw [← sees i]
      exact l.readPse_flag c _ k table la place flag
    split
    · exact List.forall_mem_nil _
    · split
      · simpa using first
      · split
        · simpa using first
        · exact List.forall_mem_cons.2 ⟨first, ih _ _ _⟩

/-- With no older value of memory to be seen, a walk reads memory as it is (R74). -/
theorem State.momentAt_mem {s : State} {la : Word} (noOlder : ∀ p ∈ s.self.window, s.self.sees la p = false)
    (ch : WalkChoice) (i : Nat) : (s.momentAt ch la i).mem = s.mem := by
  have none_seen : (s.self.window.filter fun p => s.self.sees la p) = [] :=
    List.filter_eq_nil_iff.2 fun p hp => by simp [noOlder p hp]
  simp only [State.momentAt, State.moment, none_seen]
  rfl

theorem State.walkOf_flagFrom {s : State} {la : Word} (noOlder : ∀ p ∈ s.self.window, s.self.sees la p = false)
    (ch : WalkChoice) : ∀ h ∈ (s.walkOf ch la).hops, h.FlagFrom s.mem := by
  rcases s.walkOf_eq_path ch la with none | path
  · rw [none]; exact List.forall_mem_nil _
  · rw [path]
    exact Processor.path_all
      (fun hlat ks => s.self.walk_flagFrom s.cfg (State.momentAt_mem noOlder ch) hlat la ks) ch _

/-- Memory keeps its canonical form and every accessed flag that is set in it. -/
structure KeepsMarks (m m' : Memory) : Prop where
  wf  : Memory.wf m' = true
  set : ∀ a, (Memory.read m a).getLsbD 5 = true → (Memory.read m' a).getLsbD 5 = true

theorem KeepsMarks.refl {m : Memory} (w : Memory.wf m = true) : KeepsMarks m m := ⟨w, fun _ => id⟩

theorem KeepsMarks.trans {m m' m'' : Memory} (h : KeepsMarks m m') (g : KeepsMarks m' m'') : KeepsMarks m m'' :=
  ⟨g.wf, fun a set => g.set a (h.set a set)⟩

theorem Hop.MarkedIn.kept {m m' : Memory} {h : Hop} (marked : h.MarkedIn m) (keeps : KeepsMarks m m') :
    h.MarkedIn m' := fun a place => keeps.set a (marked a place)

theorem Hop.FlagFrom.kept {m m' : Memory} {h : Hop} (flag : h.FlagFrom m) (keeps : KeepsMarks m m') :
    h.FlagFrom m' := fun a place read => keeps.set a (flag a place read)

/-- A flag set at a place changes the byte there alone (D9). -/
theorem State.read_setFlag {s : State} (w : Memory.wf s.mem = true) (k bit a : Nat) :
    Memory.read (s.setFlag k bit).mem a =
      if a = k then Memory.read s.mem k ||| (1#8 <<< bit) else Memory.read s.mem a :=
  Memory.read_write s.mem k a _ w

theorem KeepsMarks.setFlag {s : State} (w : Memory.wf s.mem = true) (k bit : Nat) :
    KeepsMarks s.mem (s.setFlag k bit).mem := by
  refine ⟨Memory.writeBytes_keeps_wf _ _ _ w, fun a set => ?_⟩
  rw [State.read_setFlag w]
  split
  · rename_i here; subst here; simp [set]
  · exact set

theorem KeepsMarks.setAccessed {s : State} (w : Memory.wf s.mem = true) (h : Hop) :
    KeepsMarks s.mem (s.setAccessed h).mem := by
  unfold State.setAccessed
  split
  · split
    · exact .refl w
    · exact .setFlag w _ _
  · exact .refl w

@[simp] theorem State.cacheHop_mem (s : State) (ch : WalkChoice) (cap : Option PageSize) (la : Word) (h : Hop) :
    (s.cacheHop ch cap la h).mem = s.mem := by
  rcases s.cacheHop_cases ch cap la h with e | ⟨-, -, -, e⟩ | ⟨k, -, -, -, -, e⟩ <;> rw [e] <;> rfl

/-- A fill sets the accessed flag of its first entry, may cache from it, and goes on with the others (R194). -/
theorem State.fillHops_cons (s : State) (ch : WalkChoice) (cap : Option PageSize) (la : Word) (h : Hop)
    (hs : List Hop) (i : Nat) :
    ∃ t, (t = s.setAccessed h ∨ t = (s.setAccessed h).cacheHop ch cap la h) ∧
      s.fillHops ch cap la (h :: hs) i = t.fillHops ch cap la hs (i + 1) := by
  refine ⟨_, ?_, rfl⟩
  split
  · exact .inr rfl
  · exact .inl rfl

theorem KeepsMarks.fillHops {s : State} (w : Memory.wf s.mem = true) (ch : WalkChoice) (cap : Option PageSize)
    (la : Word) (hops : List Hop) (i : Nat) : KeepsMarks s.mem (s.fillHops ch cap la hops i).mem := by
  induction hops generalizing s i with
  | nil => exact .refl w
  | cons h hs ih =>
    obtain ⟨t, first, rest⟩ := s.fillHops_cons ch cap la h hs i
    have mem : t.mem = (s.setAccessed h).mem := by rcases first with rfl | rfl <;> simp
    have flagged : KeepsMarks s.mem t.mem := mem ▸ .setAccessed w h
    rw [rest]
    exact flagged.trans (ih flagged.wf _)

/-- `SetAccessed` changes no more of a processor than what it may see of older memory (R74). -/
theorem State.setAccessed_self (s : State) (h : Hop) :
    (s.setAccessed h).self = s.self ∨ (s.setAccessed h).self = s.self.pushWindow s.mem := by
  unfold State.setAccessed
  split
  · split
    · exact .inl rfl
    · exact .inr rfl
  · exact .inl rfl

/-- After `SetAccessed` the flag is set, whether the walk found it set or not (R145, R181). -/
theorem State.setAccessed_marked {s : State} {h : Hop} (w : Memory.wf s.mem = true) (flag : h.FlagFrom s.mem) :
    h.MarkedIn (s.setAccessed h).mem := by
  intro a place
  unfold State.setAccessed
  rw [place]
  cases read : h.view.a with
  | true => exact flag a place read
  | false =>
    show (Memory.read (s.setFlag a 5).mem a).getLsbD 5 = true
    rw [State.read_setFlag w, if_pos rfl]
    simp

/-! ### Flags before entries -/

/-- Anything `P` that a fill brings about in the caches, it brings about when it caches from one of the entries, and in
the end the accessed flags of that entry and of those before it are set. `P` does not depend on older memory. -/
theorem State.fillHops_caches {P : Processor → Prop} (blind : ∀ l m, P (l.pushWindow m) ↔ P l) {s : State}
    {ch : WalkChoice} {cap : Option PageSize} {la : Word} {hops : List Hop} {i : Nat} (w : Memory.wf s.mem = true)
    (flags : ∀ h ∈ hops, h.FlagFrom s.mem) (new : ¬ P s.self) (made : P (s.fillHops ch cap la hops i).self) :
    ∃ above h below, ∃ u : State, hops = above ++ h :: below ∧ OnlyCaches s.self u.self ∧ ¬ P u.self ∧
      P (u.cacheHop ch cap la h).self ∧ ∀ x ∈ above ++ [h], x.MarkedIn (s.fillHops ch cap la hops i).mem := by
  induction hops generalizing s i with
  | nil => exact absurd made new
  | cons h hs ih =>
    obtain ⟨t, first, rest⟩ := s.fillHops_cons ch cap la h hs i
    rw [rest] at made ⊢
    have newHere : ¬ P (s.setAccessed h).self := by
      rcases s.setAccessed_self h with e | e <;> rw [e]
      · exact new
      · exact fun p => new ((blind _ _).1 p)
    have mem : t.mem = (s.setAccessed h).mem := by rcases first with rfl | rfl <;> simp
    have flagged : KeepsMarks s.mem t.mem := mem ▸ .setAccessed w h
    have marked : h.MarkedIn t.mem := mem ▸ State.setAccessed_marked w (flags h List.mem_cons_self)
    have markedAfter := marked.kept (KeepsMarks.fillHops flagged.wf ch cap la hs (i + 1))
    have frame : OnlyCaches s.self (s.setAccessed h).self := (FlagsOnly.setAccessed s h).registers
    by_cases now : P t.self
    · rcases first with rfl | rfl
      · exact absurd now newHere
      · exact ⟨[], h, hs, s.setAccessed h, rfl, frame, newHere, now, by simpa using markedAfter⟩
    · have frameNext : OnlyCaches s.self t.self := by
        rcases first with rfl | rfl
        · exact frame
        · exact frame.trans (FlagsOnly.cacheHop 0xDF _ ch cap la h).registers
      obtain ⟨above, h', below, u, rfl, later, newU, madeU, all⟩ :=
        ih flagged.wf (fun x hx => (flags x (List.mem_cons_of_mem _ hx)).kept flagged) now made
      exact ⟨h :: above, h', below, u, rfl, frameNext.trans later, newU, madeU,
        List.forall_mem_cons.2 ⟨markedAfter, all⟩⟩

/-- The same of the fill that a choice leads to, of which no older value of memory may be seen (R74, R194). -/
theorem State.fillWith_caches {P : Processor → Prop} (blind : ∀ l m, P (l.pushWindow m) ↔ P l) {s : State}
    {la : Word} (ch : WalkChoice) (w : Memory.wf s.mem = true)
    (noOlder : ∀ p ∈ s.self.window, s.self.sees la p = false) (new : ¬ P s.self)
    (made : P (s.fillWith ch la).self) :
    ∃ above h below, ∃ u : State, (s.walkOf ch la).hops = above ++ h :: below ∧ OnlyCaches s.self u.self ∧
      ¬ P u.self ∧ P (u.cacheHop ch (s.walkOf ch la).cap la h).self ∧
      ∀ x ∈ above ++ [h], x.MarkedIn (s.fillWith ch la).mem := by
  rw [s.fillWith_walkOf] at made ⊢
  have flags : ∀ h ∈ (s.walkOf ch la).hops.take ch.depth, h.FlagFrom s.mem := fun h mem =>
    State.walkOf_flagFrom noOlder ch h (List.mem_of_mem_take mem)
  obtain ⟨above, h, below, u, taken, used⟩ := State.fillHops_caches blind w flags new made
  refine ⟨above, h, below ++ (s.walkOf ch la).hops.drop ch.depth, u, ?_, used⟩
  rw [← List.cons_append, ← List.append_assoc, ← taken, List.take_append_drop]

/-- A TLB entry is made from an entry that maps a page (R141, R194). -/
theorem State.cacheHop_makesTlb {u : State} {ch : WalkChoice} {cap : Option PageSize} {la : Word} {h : Hop}
    {e : TlbEntry} (new : e ∉ u.self.tlb) (made : e ∈ (u.cacheHop ch cap la h).self.tlb) : h.MakesTlb := by
  rcases u.cacheHop_cases ch cap la h with same | ⟨maps, noRestart, -, -⟩ | ⟨k, -, -, -, -, added⟩
  · exact absurd (same ▸ made) new
  · exact ⟨maps, noRestart⟩
  · rw [added] at made; exact absurd made new

/-- A paging-structure-cache entry is made from an entry of its level (R172 to R178, R194). -/
theorem State.cacheHop_makesPsc {u : State} {ch : WalkChoice} {cap : Option PageSize} {la : Word} {h : Hop}
    {k : CacheKind} {e : PscEntry} (new : e ∉ u.self.psc.get k)
    (made : e ∈ (u.cacheHop ch cap la h).self.psc.get k) :
    h.level = cacheLevel k ∧ e = u.self.pscEntryOf k la h := by
  obtain old | ⟨-, h', only, level, -, origin⟩ := (MadeFrom.cacheHop u h).psc k e made
  · exact absurd old new
  · cases List.mem_singleton.1 only; exact ⟨level, origin⟩

/-- Settles O21: flags are set before anything is cached (`State.fillWith_caches`), and a TLB entry is made from the
last entry of the walk (`TwoStretches.page`). -/
theorem accessedBeforeCached : Obligations.AccessedBeforeCached := by
  intro la s ch w noOlder hops t
  refine ⟨fun e made new h mem => ?_, fun k e made new => ?_⟩
  · obtain ⟨above, page, below, u, walk, -, newU, madeU, marked⟩ :=
      State.fillWith_caches (P := fun l => e ∈ l.tlb) (fun _ _ => .rfl) ch w noOlder new made
    have ends := (s.walkOf_stretches ch la rfl).page
    rw [walk, List.pairwise_append, List.pairwise_cons] at ends
    obtain ⟨-, ⟨last, -⟩, -⟩ := ends
    have inWalk : h ∈ above ++ [page] ++ below := by rwa [List.append_assoc, List.singleton_append, ← walk]
    rcases List.mem_append.1 inWalk with used | after
    · exact marked h used
    · exact absurd (State.cacheHop_makesTlb newU madeU) (last h after)
  · obtain ⟨above, source, below, u, walk, frame, newU, madeU, marked⟩ :=
      State.fillWith_caches (P := fun l => e ∈ l.psc.get k) (fun _ _ => .rfl) ch w noOlder new made
    obtain ⟨level, origin⟩ := State.cacheHop_makesPsc newU madeU
    have whole : hops = above ++ [source] ++ below := by rw [List.append_assoc, List.singleton_append]; exact walk
    clear_value hops
    subst whole
    have here : (above ++ [source] ++ below)[above.length]'(by simp) = source := by simp
    refine ⟨above.length, by simp, by rw [here]; exact level, ?_, fun i hi le => ?_⟩
    · rw [here, origin, frame.pscEntryOf]
    · have first : i < (above ++ [source]).length := by simpa using Nat.lt_succ_of_le le
      rw [List.getElem_append_left first]
      exact marked _ (List.getElem_mem first)

/-! ### Evictions -/

/-- An eviction takes the entries it names out of each paging-structure cache (R190). -/
theorem Processor.mem_evicted_psc (l : Processor) (e : Eviction) (k : CacheKind) (x : PscEntry) :
    x ∈ (l.invalidate noTlb noPsc (fun x => e.tlb.contains x)
      fun k x => (evictionPsc e k).contains x).psc.get k ↔ x ∈ l.psc.get k ∧ x ∉ evictionPsc e k := by
  rw [Processor.mem_invalidate_psc]
  simp [noPsc]

/-- Settles O22: the eviction is an invalidation with nothing required, and the subset as the extra entries. -/
theorem evictRemovesSubset : Obligations.EvictRemovesSubset := by
  intro e s
  have psc := s.self.mem_evicted_psc e
  refine ⟨_, rfl, fun x => ?_, psc .pml5e, psc .pml4e, psc .pdpte, psc .pde, rfl⟩
  rw [State.onSelf_self, Processor.mem_invalidate_tlb]
  simp [noTlb]

end Sys2Proof.Machine
end

section
/-! PROOF. Translations that go through memory (R193): with nothing cached, after `INVLPG` (R221 to R224, R74), and by a
PML4 entry that holds the address of its own table (R198). -/

namespace Sys2Proof.Machine

/-! ### Nothing cached -/

/-- The walk of the structures in memory from the root, as a translation finds it (R193). -/
def State.memoryPath (s : State) (la : Word) : Path :=
  { hops := (s.memoryWalk la).1, ends := (s.memoryWalk la).2, cap := none }

/-- With no older value of memory to be seen, every read of a walk sees the present one (R74). -/
theorem State.momentAt_present {s : State} {la : Word} (noOlder : ∀ p ∈ s.self.window, s.self.sees la p = false)
    (ch : WalkChoice) : s.momentAt ch la = fun _ => s.present := by
  have none_seen : (s.self.window.filter fun p => s.self.sees la p) = [] :=
    List.filter_eq_nil_iff.2 fun p hp => by simp [noOlder p hp]
  have present : ∀ n, s.moment la n = s.present := fun n => by rw [State.moment, none_seen]; rfl
  funext i
  simp [State.momentAt, present, State.present]

/-- Where the root is the only start, every choice walks the structures in memory (R193). -/
theorem State.locate_root {s : State} {la : Word} (rootOnly : s.self.routes s.cfg la = [.root])
    (noOlder : ∀ p ∈ s.self.window, s.self.sees la p = false) (ch : WalkChoice) :
    s.locate ch la = .walked (s.memoryPath la) := by
  have picked : pick ch.route .root (s.self.routes s.cfg la) = .root := by rw [rootOnly]; rfl
  simp only [State.locate, picked, Processor.path, State.momentAt_present noOlder]
  rfl

/-- With no usable entry, and without HLAT paging, a translation starts at the root (R191, R193). -/
theorem Processor.routes_nothingCached {l : Processor} {c : Params} {la : Word} (noHlat : c.hlatSupported = false)
    (noTlb : l.hits la = [])
    (noPsc : ∀ k ∈ l.pagingMode.caches, ∀ e ∈ l.psc.get k, l.matchesPsc la k e = false) :
    l.routes c la = [.root] := by
  have noCached : l.pscRoutes false la = [] := List.eq_nil_iff_forall_not_mem.2 fun r start => by
    obtain ⟨k, cache, e, mem, forLa, -, -⟩ := Processor.mem_pscRoutes.1 start
    rw [noPsc k cache e mem] at forLa
    cases forLa
  simp [Processor.routes, Processor.walkRoutes, noTlb, noCached, noHlat]

/-- Settles O12: the root is the only start (`Processor.routes_nothingCached`). -/
theorem nothingCachedWalksMemory : Obligations.NothingCachedWalksMemory := by
  intro s ch la noHlat noTlb noPsc noOlder
  exact State.locate_root (Processor.routes_nothingCached noHlat noTlb noPsc) noOlder ch

/-! ### After `INVLPG` -/

/-- The page number of a page is the upper part of that of a smaller page in it (R28, R61). -/
theorem pageNumber_larger (m : PagingMode) (la : Word) {small large : PageSize}
    (le : pageBits small ≤ pageBits large) :
    pageNumber m la large = pageNumber m la small >>> (pageBits large - pageBits small) := by
  unfold pageNumber slice
  apply Nat.eq_of_testBit_eq
  intro i
  have same : pageBits small + (pageBits large - pageBits small + i) = pageBits large + i := by omega
  have inside : pageBits large - pageBits small + i < m.width - 1 + 1 - pageBits small ↔
      i < m.width - 1 + 1 - pageBits large := by omega
  simp only [Nat.testBit_shiftRight, Nat.testBit_mod_two_pow, same, inside]

/-- An entry for an address is on the page of the translation it was cut from (R28, R221). -/
theorem Processor.onPage_of_matchesTlb {l : Processor} {la : Word} {e : TlbEntry}
    (size : pageBits e.shift ≤ pageBits e.xshift) (matched : l.matchesTlb la e = true) :
    l.onPage la e = true := by
  unfold Processor.matchesTlb at matched
  unfold Processor.onPage
  cases address : l.asIn e.mode la with
  | none => rw [address] at matched; cases matched
  | some a =>
    rw [address, Option.any_some, beq_iff_eq] at matched
    rw [Option.any_some, beq_iff_eq, pageNumber_larger _ _ size, matched]

/-- `INVLPG` on a canonical address in supervisor mode with paging on (R221). -/
theorem exec_invlpg_usual {m : MemOperand} {s : State} (supervisor : s.self.mode = .supervisor)
    (on : s.self.pagingMode ≠ .none)
    (canonical : s.self.pagingMode.canonical
      (s.self.linearAddress (Config.instructionPointer s.draws) m) = true) :
    exec (.invlpg m) s =
      .next (s.tick.invlpg (s.self.linearAddress (Config.instructionPointer s.draws) m)) := by
  have usual : s.self.unusualAddress (s.self.linearAddress (Config.instructionPointer s.draws) m) = false := by
    simp [Processor.unusualAddress, on, canonical]
  refine congrArg Host.Outcome.next ((s.privileged_supervisor _ _ supervisor).trans ?_)
  simp [State.invlpgAt, usual]

theorem State.invlpg_invalidated (s : State) (la : Word) :
    Invalidated s.draws (s.self.invlpgTlb la) (pscOf s.self.curPcid) s.self (s.invlpg la).self :=
  (OnlyInvalidated.serialized s (s.self.invlpgTlb la) (pscOf s.self.curPcid)).1.gone

/-- After `INVLPG` no TLB entry is a hit for its operand (R221, R222, R224). -/
theorem State.hits_invlpg {s : State} {la : Word}
    (sizes : ∀ e ∈ s.self.tlb, pageBits e.shift ≤ pageBits e.xshift) :
    (s.invlpg la).self.hits la = [] := by
  refine List.eq_nil_iff_forall_not_mem.2 fun e hit => ?_
  obtain ⟨left, matched, usable⟩ := Processor.mem_hits.1 hit
  obtain ⟨mem, notRequired, -⟩ := ((s.invlpg_invalidated la).tlb e).1 left
  have onPage : s.self.onPage la e = true := Processor.onPage_of_matchesTlb (sizes e mem) matched
  have usableBefore : e.pcid = s.self.curPcid ∨ e.glob = true := usable
  have required : s.self.invlpgTlb la e = true := by simpa [Processor.invlpgTlb, onPage] using usableBefore
  cases notRequired.symm.trans required

/-- After `INVLPG` no paging-structure-cache entry of the current PCID is left (R223). -/
theorem State.matchesPsc_invlpg {s : State} {la : Word} (k : CacheKind) {e : PscEntry}
    (left : e ∈ (s.invlpg la).self.psc.get k) : (s.invlpg la).self.matchesPsc la k e = false := by
  obtain ⟨-, notRequired, -⟩ := ((s.invlpg_invalidated la).psc k e).1 left
  have other : (e.pcid == (s.invlpg la).self.curPcid) = false := notRequired
  rw [Processor.matchesPsc, other, Bool.false_and]

/-- Settles O34: no usable entry is left (`State.hits_invlpg`, `State.matchesPsc_invlpg`), and the older values of
memory are gone. -/
theorem invlpgThenMemory : Obligations.InvlpgThenMemory := by
  intro m s t ch inv noHlat supervisor on la canonical run
  rw [exec_invlpg_usual supervisor on canonical] at run
  cases run
  exact ⟨rfl, nothingCachedWalksMemory _ ch la noHlat (State.hits_invlpg inv.self.sizes)
    (fun k _ _ left => State.matchesPsc_invlpg k left) (List.forall_mem_nil _)⟩

/-! ### A self-referencing entry -/

/-- An entry that a walk goes on from or ends at with a page, and that holds the address `x`. -/
structure View.LeadsTo (v : View) (x : Nat) : Prop where
  p      : v.p = true
  rsvdOk : v.rsvdOk = true
  addr   : v.addr = x

/-- A walk that finds, at each level of the table at `x`, an entry that holds `x` again, and a page at the last level
alone, uses one entry of each level. -/
theorem Processor.walk_selfReference {l : Processor} {c : Params} {p : Past} {la : Word} {x : Nat}
    {upper : List Level} {last : Level} (once : last ∉ upper)
    (leads : ∀ k ∈ upper ++ [last], (l.readPse c p.mem k x la).2.LeadsTo x)
    (maps : ∀ k ∈ upper ++ [last], (l.readPse c p.mem k x la).2.maps = (k == last)) (acc : Rights) (i : Nat) :
    (l.walk c (fun _ => p) false la (upper ++ [last]) x acc i).2 = .mapped ∧
      (l.walk c (fun _ => p) false la (upper ++ [last]) x acc i).1.map Hop.level = upper ++ [last] ∧
      ∀ h ∈ (l.walk c (fun _ => p) false la (upper ++ [last]) x acc i).1, h.view.addr = x := by
  induction upper generalizing acc i with
  | nil =>
    obtain ⟨present, reserved, addr⟩ := leads last (List.mem_singleton_self last)
    have page := maps last (List.mem_singleton_self last)
    simp [Processor.walk, present, reserved, addr, page]
  | cons k ks ih =>
    obtain ⟨⟨present, reserved, addr⟩, leadsBelow⟩ := List.forall_mem_cons.1 leads
    obtain ⟨page, mapsBelow⟩ := List.forall_mem_cons.1 maps
    obtain ⟨notLast, onceBelow⟩ := not_or.1 (List.mem_cons.not.1 once)
    have goesOn : (k == last) = false := beq_false_of_ne (Ne.symm notLast)
    simpa [Processor.walk, present, reserved, addr, page, goesOn] using ih onceBelow leadsBelow mapsBelow _ _

/-- In the lowest 4 KBytes of the 48-bit addresses every field above the page offset is 0. -/
theorem slice_lowest {la : Word} (lowest : la.toNat % 2 ^ 48 < 4096) {hi lo : Nat} (above : 12 ≤ lo)
    (below : hi < 48) : slice la hi lo = 0 := by
  apply Nat.eq_of_testBit_eq
  intro i
  simp only [slice, Nat.testBit_mod_two_pow, Nat.testBit_shiftRight, Nat.zero_testBit, Bool.and_eq_false_imp,
    decide_eq_true_eq]
  intro inField
  have small : la.toNat % 2 ^ 48 < 2 ^ (lo + i) :=
    lowest.trans_le (Nat.pow_le_pow_right (by decide : 0 < 2) (show 12 ≤ lo + i by omega))
  have low := Nat.testBit_mod_two_pow la.toNat 48 (lo + i)
  rw [Nat.testBit_lt_two_pow small, decide_eq_true (show lo + i < 48 by omega), Bool.true_and] at low
  exact low.symm

/-- There every index of 4-level paging is 0 (R67). -/
theorem indexOf_l4_lowest {la : Word} (lowest : la.toNat % 2 ^ 48 < 4096) {k : Level}
    (level : k ∈ PagingMode.l4.levels) : indexOf .l4 k la = 0 := by
  cases k with
  | pml5e => exact absurd level (by decide)
  | pml4e | pdpte | pde | pte => exact slice_lowest lowest (by decide) (by decide)

/-- With the PS flag clear an entry of 4-level paging maps a page at the last level alone (R67). -/
theorem mapsPage_l4_of_not_ps (k : Level) (pse : Bool) : mapsPage .l4 k false pse = (k == .pte) := by
  cases k <;> rfl

theorem viewOf_l4_maps {width : Nat} {nxe pse : Bool} {raw : Word} (ps : raw.getLsbD 7 = false) (k : Level) :
    (viewOf width .l4 k nxe pse raw).maps = (k == .pte) := by
  simp only [viewOf, ps, mapsPage_l4_of_not_ps]

/-- An entry of 4-level paging with the PS flag clear leads to the same address at whichever level it is read: the places
of the address and of the reserved bits do not depend on the level then (G4, R198). -/
theorem viewOf_l4_leadsTo {width x : Nat} {nxe pse : Bool} {raw : Word} (present : raw.getLsbD 0 = true)
    (ps : raw.getLsbD 7 = false) (reserved : slice raw 51 width = 0) (xd : nxe = true ∨ raw.getLsbD 63 = false)
    (address : (slice raw (width - 1) 12) <<< 12 = x) (k : Level) :
    (viewOf width .l4 k nxe pse raw).LeadsTo x := by
  have xdOk : (nxe || !raw.getLsbD 63) = true := by simpa using xd
  refine ⟨present, ?_, ?_⟩ <;> simp only [viewOf, ps, mapsPage_l4_of_not_ps]
  · cases k <;> simp only [reservedOk, reserved, xdOk, ps] <;> rfl
  · rw [← address]
    cases k <;> rfl

/-- Settles O17: the one entry is read at each level (`Processor.walk_selfReference`). -/
theorem selfReference : Obligations.SelfReference := by
  intro s la raw x mode lowest root entry present ps reserved xd address
  have view : ∀ k ∈ PagingMode.l4.levels, (s.self.readPse s.cfg s.mem k x la).2 =
      viewOf s.cfg.maxPhyAddr .l4 k s.self.nxe s.self.pse raw := fun k level => by
    simp [Processor.readPse, mode, indexOf_l4_lowest lowest level, entrySize, entry]
  have walk : s.memoryWalk la =
      s.self.walk s.cfg (fun _ => s.present) false la ([.pml4e, .pdpte, .pde] ++ [.pte]) x neutralRights 0 := by
    simp only [State.memoryWalk, Processor.ordinaryWalk, mode, root]
    rfl
  obtain ⟨mapped, levels, addrs⟩ := Processor.walk_selfReference (l := s.self) (c := s.cfg) (p := s.present)
    (la := la) (x := x) (upper := [.pml4e, .pdpte, .pde]) (last := .pte) (by decide)
    (fun k level => by rw [State.present, view k level]; exact viewOf_l4_leadsTo present ps reserved xd address k)
    (fun k level => by rw [State.present, view k level]; exact viewOf_l4_maps ps k) neutralRights 0
  rw [← walk] at mapped levels addrs
  refine ⟨mapped, levels, addrs, fun h last => ?_⟩
  have level : h.level = .pte := by
    have lastLevel := congrArg List.getLast? levels
    rw [List.getLast?_map, last] at lastLevel
    exact Option.some.inj lastLevel
  simp [Hop.pa, Hop.pageSize, level, nativeSize, pageBits, addrs h (List.mem_of_getLast? last)]

end Sys2Proof.Machine
end

section
/-! PROOF. What a fill leaves of memory (R194), and accesses of at most a quadword on one page that memory alone
decides: done where it permits them (R191, R307), and a page fault where it gives no translation or forbids them (R242,
R321, R322). -/

namespace Sys2Proof.Machine

/-! ### The places that a fill writes -/

theorem State.read_setAccessed_elsewhere {s : State} (w : Memory.wf s.mem = true) {h : Hop} {a : Nat}
    (elsewhere : h.place ≠ some a) : Memory.read (s.setAccessed h).mem a = Memory.read s.mem a := by
  unfold State.setAccessed
  split
  · rename_i k place
    split
    · rfl
    · have other : a ≠ k := fun same => elsewhere (by rw [place, same])
      rw [State.read_setFlag w, if_neg other]
  · rfl

/-- A fill writes memory at the entries it goes along alone (R194). -/
theorem State.read_fillHops_elsewhere {s : State} (w : Memory.wf s.mem = true) (ch : WalkChoice)
    (cap : Option PageSize) (la : Word) {hops : List Hop} {a : Nat} (elsewhere : ∀ h ∈ hops, h.place ≠ some a)
    (i : Nat) : Memory.read (s.fillHops ch cap la hops i).mem a = Memory.read s.mem a := by
  induction hops generalizing s i with
  | nil => rfl
  | cons h hs ih =>
    obtain ⟨here, others⟩ := List.forall_mem_cons.1 elsewhere
    obtain ⟨t, first, rest⟩ := s.fillHops_cons ch cap la h hs i
    have mem : t.mem = (s.setAccessed h).mem := by rcases first with rfl | rfl <;> simp
    have wt : Memory.wf t.mem = true := by rw [mem]; exact (KeepsMarks.setAccessed w h).wf
    rw [rest, ih wt others, mem, State.read_setAccessed_elsewhere w here]

/-- Settles O18, from what the fill's entries allow it to write (`State.read_fillHops_elsewhere`). -/
theorem fillFrame : Obligations.FillFrame := by
  intro la s w
  have flags := FlagsOnly.fill s la
  refine ⟨s.fill la, rfl, rfl, flags.cfg, flags.trace, flags.registers, flags.others, flags.mem w, ?_⟩
  intro a elsewhere
  rw [State.fill, State.fillWith_walkOf]
  exact State.read_fillHops_elsewhere (s := s.tick) w _ _ la
    (fun h taken => elsewhere h (List.mem_of_mem_take taken)) 0

/-! ### Translations that memory permits -/

/-- Along entries with every accessed flag set a fill changes nothing but the caches (R145, R194). -/
theorem State.fillHops_accessed {s : State} {hops : List Hop} (accessed : ∀ h ∈ hops, h.view.a = true)
    (ch : WalkChoice) (cap : Option PageSize) (la : Word) (i : Nat) :
    ∃ l, OnlyCaches s.self l ∧ s.fillHops ch cap la hops i = s.onSelf fun _ => l := by
  induction hops generalizing s i with
  | nil => exact ⟨s.self, .refl _, rfl⟩
  | cons h hs ih =>
    obtain ⟨set, others⟩ := List.forall_mem_cons.1 accessed
    obtain ⟨t, first, rest⟩ := s.fillHops_cons ch cap la h hs i
    have noFlag : s.setAccessed h = s := by
      unfold State.setAccessed; split
      · rw [if_pos set]
      · rfl
    rw [noFlag] at first
    have here : ∃ l, OnlyCaches s.self l ∧ t = s.onSelf fun _ => l := by
      rcases first with rfl | rfl
      · exact ⟨t.self, .refl _, rfl⟩
      · rcases s.cacheHop_cases ch cap la h with e | ⟨-, -, -, e⟩ | ⟨k, -, -, -, -, e⟩ <;> rw [e]
        · exact ⟨s.self, .refl _, rfl⟩
        · exact ⟨_, .addTlb _ _, rfl⟩
        · exact ⟨_, .addPsc _ _ _, rfl⟩
    obtain ⟨l, frame, rfl⟩ := here
    obtain ⟨l', frame', below⟩ := ih (s := s.onSelf fun _ => l) others (i + 1)
    exact ⟨l', frame.trans frame', rest.trans below⟩

/-- A write through an entry with the dirty flag set leaves it alone (R71). -/
theorem State.dirtyByWalk_dirty {s : State} {p : Path} {h : Hop} (last : p.hops.getLast? = some h)
    (dirty : h.view.d = true) (ch : WalkChoice) : s.dirtyByWalk ch p = s := by
  unfold State.dirtyByWalk
  split
  · rename_i e
    cases last.symm.trans e
    simp only at dirty
    simp [dirty]
  · rfl

theorem State.OnlyMemory.tick {s : State} {la : Word} (only : s.OnlyMemory la) : s.tick.OnlyMemory la :=
  ⟨only.paging, only.routes, only.window⟩

theorem State.OnlyMemory.locate {s : State} {la : Word} (only : s.OnlyMemory la) (ch : WalkChoice) :
    s.locate ch la = .walked (s.memoryPath la) := State.locate_root only.routes only.window ch

theorem State.Settled.tick {s : State} {la : Word} {k : Kind} {priv : Priv} {n : Nat} {h : Hop}
    (settled : s.Settled la k priv n h) : s.tick.Settled la k priv n h :=
  { settled with memory := settled.memory.tick }

@[simp] theorem State.memoryPath_cap (s : State) (la : Word) : (s.memoryPath la).cap = none := rfl

/-- A translation that memory alone decides and permits, with no flag to set, is that of memory, and changes nothing but
the caches (R191). -/
theorem State.translateWith_settled {s : State} {la : Word} {k : Kind} {priv : Priv} {n : Nat} {h : Hop}
    (settled : s.Settled la k priv n h) (ch : WalkChoice) :
    ∃ l, OnlyCaches s.self l ∧ s.translateWith ch la k priv =
      (.ok (h.pa s.self.pagingMode none la) h.view.memType, s.onSelf fun _ => l) := by
  have mapped : (s.memoryPath la).ends = .mapped := settled.mapped
  have last : (s.memoryPath la).hops.getLast? = some h := settled.last
  have permitted : s.self.permits (h.translation s.self.pagingMode none la).rights k priv = true :=
    settled.permitted
  obtain ⟨l, frame, filled⟩ : ∃ l, OnlyCaches s.self l ∧
      s.fillHops ch none la (s.memoryPath la).hops 0 = s.onSelf fun _ => l :=
    State.fillHops_accessed settled.accessed ch none la 0
  have clean : (if k = .write then (s.onSelf fun _ => l).dirtyByWalk ch (s.memoryPath la)
      else s.onSelf fun _ => l) = s.onSelf fun _ => l := by
    split
    · rename_i write; exact State.dirtyByWalk_dirty last (settled.dirty write) ch
    · rfl
  refine ⟨l, frame, ?_⟩
  simp only [State.translateWith, if_neg settled.memory.paging, settled.memory.locate ch, mapped, last,
    State.memoryPath_cap, permitted, if_true, filled, clean]
  rfl

/-- The same of the translation with which an access begins, whose choices are free (R195). -/
theorem State.translate_settled {s : State} {la : Word} {k : Kind} {priv : Priv} {n : Nat} {h : Hop}
    (settled : s.Settled la k priv n h) :
    ∃ l, OnlyCaches s.self l ∧ s.tick.tick.translate la k priv =
      (.ok (h.pa s.self.pagingMode none la) h.view.memType, s.tick.tick.tick.onSelf fun _ => l) :=
  State.translateWith_settled settled.tick.tick.tick _

theorem OnlyCaches.id {l l' : Processor} (o : OnlyCaches l l') : l'.id = l.id := by
  rw [o]

/-- Settles O24: the one translation of the access is that of memory (`State.translate_settled`). -/
theorem accessReads : Obligations.AccessReads := by
  intro la req priv s h read small settled
  obtain ⟨l, frame, found⟩ := State.translate_settled settled
  have done := State.accessOnce_read_onePage read settled.some settled.onePage found
  obtain ⟨more, shown⟩ := (s.tick.tick.tick.onSelf fun _ => l).showRead_eq (h.pa s.self.pagingMode none la)
    (requestSize req) (requestKind req) h.view.memType
  rw [shown] at done
  refine ⟨_, exec_access_done settled.canonical small done, rfl, rfl, rfl, frame, more, ?_⟩
  rw [← frame.id]
  rfl

/-- Settles O25: the one translation of the access is that of memory (`State.translate_settled`). -/
theorem accessWrites : Obligations.AccessWrites := by
  intro la bs priv s h small w settled pa
  obtain ⟨l, frame, found⟩ := State.translate_settled settled
  have done := State.accessOnce_write_onePage settled.some settled.onePage found
  refine ⟨_, exec_access_done settled.canonical small done, rfl,
    fun i hi => Memory.read_writeBytes_inside _ _ _ _ w hi,
    fun a outside => Memory.read_writeBytes_outside _ _ _ _ w outside, frame.trans rfl, .pushed _ _, ?_⟩
  rw [← frame.id]
  rfl

/-! ### Translations that memory does not give or permit -/

/-- Memory gives the address no translation, or one that forbids the access (R191, R322). -/
def State.MemoryForbids (s : State) (la : Word) (k : Kind) (priv : Priv) : Prop :=
  (s.memoryWalk la).2 = .notPresent ∨
    ∃ h, (s.memoryWalk la).2 = .mapped ∧ (s.memoryWalk la).1.getLast? = some h ∧
      s.self.permits h.rights k priv = false

/-- A translation that memory alone decides, and does not give or forbids, is a page fault, and may have filled along
its walk (R191, R194). -/
theorem State.translateWith_forbidden {s : State} {la : Word} {k : Kind} {priv : Priv} (only : s.OnlyMemory la)
    (forbids : s.MemoryForbids la k priv) (ch : WalkChoice) :
    s.translateWith ch la k priv =
      (.pageFault, s.fillHops ch none la ((s.memoryWalk la).1.take ch.depth) 0) := by
  rcases forbids with notPresent | ⟨h, mapped, last, forbidden⟩
  · have ends : (s.memoryPath la).ends = .notPresent := notPresent
    simp only [State.translateWith, if_neg only.paging, only.locate ch, ends]
    rfl
  · have ends : (s.memoryPath la).ends = .mapped := mapped
    have page : (s.memoryPath la).hops.getLast? = some h := last
    have rights : s.self.permits (h.translation s.self.pagingMode none la).rights k priv = false := forbidden
    simp only [State.translateWith, if_neg only.paging, only.locate ch, ends, page, State.memoryPath_cap, rights,
      Bool.false_eq_true, if_false]
    rfl

/-- An access of one page whose translation faults reads and writes nothing (R321). -/
theorem State.accessOnce_onePage_fault {s u : State} {la : Word} {req : Request} {priv : Priv}
    (nonempty : 0 < requestSize req) (onePage : la.toNat % 4096 + requestSize req ≤ 4096)
    (h : s.translate la (requestKind req) priv = (.pageFault, u)) :
    s.accessOnce la req priv = .pageFault la u := by
  simp only [State.accessOnce, splitPages_onePage nonempty onePage, State.place, State.placeInOrder, h]

/-- The one access of a request that memory alone decides, and does not give or forbids, faults; accessed flags of the
entries on its walk may have been set (R191, R194, R321). -/
theorem State.accessOnce_forbidden {s : State} {la : Word} {req : Request} {priv : Priv} (w : Memory.wf s.mem = true)
    (only : s.OnlyMemory la) (nonempty : 0 < requestSize req) (onePage : la.toNat % 4096 + requestSize req ≤ 4096)
    (forbids : s.MemoryForbids la (requestKind req) priv) :
    ∃ u, s.tick.tick.accessOnce la req priv = .pageFault la u ∧ FlagsOnly 0xDF s u ∧
      ∀ a, (∀ h ∈ (s.memoryWalk la).1, h.place ≠ some a) → Memory.read u.mem a = Memory.read s.mem a := by
  have found := State.translateWith_forbidden (s := s.tick.tick.tick) only.tick.tick.tick forbids
    (Config.walkChoice s.tick.tick.draws)
  have ticked : FlagsOnly 0xDF s s.tick.tick.tick := ((FlagsOnly.tick _ s).trans (.tick _ _)).trans (.tick _ _)
  refine ⟨_, State.accessOnce_onePage_fault nonempty onePage found, ticked.trans (.fillHops _ _ _ _ _ _), ?_⟩
  intro a elsewhere
  exact State.read_fillHops_elsewhere (s := s.tick.tick.tick) w _ none la
    (fun h taken => elsewhere h (List.mem_of_mem_take taken)) 0

/-- An access of at most a quadword at a canonical address, if its one access faults, page-faults, to be re-executed if
the handler retries (R191, R321). -/
theorem exec_access_fault {s u : State} {la a : Word} {req : Request} {priv : Priv}
    (canonical : s.self.pagingMode.canonical la = true) (small : requestSize req ≤ 8)
    (fault : s.tick.tick.accessOnce la req priv = .pageFault a u) :
    exec (.access la req priv) s =
      .next (u.raisePf a (requestKind req) priv (s.again (.access la req priv))) := by
  have linear : s.tick.accessLinear la req priv = .pageFault a u := by
    rw [State.accessLinear, piecesOf, if_pos small]
    simp [State.accessPieces, requestPiece_whole, fault]
  simp [exec, execAccess, canonical, linear, accessEnds]

/-! ### What a page fault leaves -/

section
variable (s : State) (la : Word) (k : Kind) (priv : Priv) (again : List Item)

/-- The required entries are gone (R242). -/
theorem State.raisePf_invalidated :
    Invalidated s.draws (s.self.faultTlb la) (s.self.pscFor s.self.curPcid la) s.self
      (s.raisePf la k priv again).self :=
  have gone := (OnlyInvalidated.invalidate s (s.self.faultTlb la) (s.self.pscFor s.self.curPcid la)).gone
  ⟨gone.tlb, gone.psc⟩

/-- The stream goes on at the handler of #PF, if there is one (R321, D22). -/
theorem State.raisePf_program :
    (s.raisePf la k priv again).self.program = s.self.handled (.pageFault la k priv) again := by
  cases handler : s.self.pfHandler <;>
    simp [State.raisePf, State.deliver, State.faultInvalidate, State.invalidate, Processor.handled,
      Processor.handlerOf, handler]

end

theorem OnlyCaches.faultTlb {l l' : Processor} (o : OnlyCaches l l') (la : Word) :
    l'.faultTlb la = l.faultTlb la := by
  rw [o]; rfl

theorem OnlyCaches.pscFor {l l' : Processor} (o : OnlyCaches l l') (la : Word) :
    l'.pscFor l'.curPcid la = l.pscFor l.curPcid la := by
  rw [o]; rfl

theorem OnlyCaches.handled {l l' : Processor} (o : OnlyCaches l l') (x : Exception) (again : List Item) :
    l'.handled x again = l.handled x again := by
  rw [o]; cases x <;> rfl

/-- Settles O26: the one translation of the access may have filled along its walk (`State.translateWith_forbidden`), and
the page fault is raised after that. -/
theorem accessFaults : Obligations.AccessFaults := by
  intro la req priv s w only canonical nonempty small onePage forbids
  obtain ⟨u, fault, flags, elsewhere⟩ := State.accessOnce_forbidden w only nonempty onePage forbids
  have gone := u.raisePf_invalidated la (requestKind req) priv (s.again (.access la req priv))
  have same := flags.sameRegisters.trans
    (Leaves.raisePf u la (requestKind req) priv (s.again (.access la req priv))).registers
  refine ⟨_, exec_access_fault canonical small fault, rfl, ?_, flags.mem w, elsewhere, fun e left => ?_,
    fun k e left => ?_, ?_, same.regs, same.cr0, same.cr3, same.cr4, same.efer⟩
  · rw [← flags.trace, ← flags.registers.id]; rfl
  · obtain ⟨-, notRequired, -⟩ := (gone.tlb e).1 left
    rwa [flags.registers.faultTlb] at notRequired
  · obtain ⟨-, notRequired, -⟩ := (gone.psc k e).1 left
    rwa [flags.registers.pscFor] at notRequired
  · rw [State.raisePf_program, flags.registers.handled]; rfl

end Sys2Proof.Machine
end

section
/-! PROOF. `INVLPG` and the types of `INVPCID`: what each removes (R221 to R229), that in the cases of R246 each raises
#GP or invalidates, and what a VMX transition and a page fault leave (R239, R242). -/

namespace Sys2Proof.Machine

/-! ### Invalidations -/

/-- Which free value has been drawn before an invalidation does not show in what it leaves. -/
theorem OnlyInvalidated.after_tick {n : Nat} {rt : TlbEntry → Bool} {rp : CacheKind → PscEntry → Bool} {s t : State}
    (h : OnlyInvalidated n rt rp s.tick t) : OnlyInvalidated n rt rp s t :=
  ⟨⟨h.elsewhere.cfg, h.elsewhere.others, h.elsewhere.mem, h.elsewhere.trace⟩, h.registers, h.gone⟩

/-- An invalidation of every paging-structure-cache entry leaves none (R228, R229). -/
theorem Processor.psc_invalidate_allPsc (l : Processor) (rt xt : TlbEntry → Bool) (xp : CacheKind → PscEntry → Bool) :
    (l.invalidate rt allPsc xt xp).psc = Psc.empty :=
  Psc.eq_empty _ fun k => by simp [allPsc]

/-- An invalidation of everything leaves the processor with empty caches (R228, R230, R235). -/
theorem Processor.invalidate_all_eq (l : Processor) (xt : TlbEntry → Bool) (xp : CacheKind → PscEntry → Bool) :
    l.invalidate allTlb allPsc xt xp = { l with tlb := [], psc := Psc.empty } := by
  obtain ⟨tlb, psc⟩ := l.invalidate_all xt xp
  rw [← tlb, ← psc]
  rfl

/-- Settles O57: a VMX transition is an invalidation that must remove nothing. -/
theorem vmxTransitionResult : Obligations.VmxTransitionResult :=
  fun s => ⟨_, rfl, .invalidate s noTlb noPsc⟩

/-- Settles O30, from what raising the page fault leaves (`State.raisePf_invalidated`, `State.raisePf_program`). -/
theorem pageFaultResult : Obligations.PageFaultResult := by
  intro la k priv s
  refine ⟨s.raisePf la k priv [], rfl, s.raisePf_invalidated la k priv [], ?_, rfl, rfl, rfl, rfl⟩
  rw [← s.raisePf_program la k priv []]
  rfl

/-- Settles O33: the work of `INVLPG` follows the draw of the instruction pointer (`exec_invlpg_usual`). -/
theorem invlpgResult : Obligations.InvlpgResult := by
  intro m s supervisor on la canonical
  obtain ⟨gone, window⟩ := OnlyInvalidated.serialized s.tick (s.self.invlpgTlb la) (pscOf s.self.curPcid)
  exact ⟨_, exec_invlpg_usual supervisor on canonical, window, gone.after_tick⟩

/-! ### The types of `INVPCID` -/

/-- In supervisor mode a privileged operation runs (R308). -/
theorem exec_privileged {i : Instr} {s : State} {run : State → State} (supervisor : s.self.mode = .supervisor)
    (privileged : exec i s = .next (s.privileged i run)) : exec i s = .next (run s) := by
  rw [privileged, s.privileged_supervisor i run supervisor]

theorem State.invpcidUnless_usual (s : State) (i : Instr) {unusual : Bool} (usual : unusual = false)
    (run : State → State) : s.invpcidUnless i unusual run = run s := by
  simp [State.invpcidUnless, usual]

theorem Processor.unusualPcid_eq_false {l : Processor} {p : Pcid} (h : l.pcide = true ∨ p = 0) :
    l.unusualPcid p = false := by
  rcases h with on | zero
  · simp [Processor.unusualPcid, on]
  · simp [Processor.unusualPcid, zero]

/-- No case of R246 applies to a type of `INVPCID`: paging is on, the address of type 0 is canonical, and the PCID of
types 0 and 1 is 000H where PCIDs are off. -/
structure Processor.UsualInvpcid (l : Processor) (type : Nat) (p : Pcid) (la : Word) : Prop where
  paging    : l.pagingMode ≠ .none
  canonical : type = 0 → l.pagingMode.canonical la = true
  pcid      : type ≤ 1 → l.pcide = true ∨ p = 0

/-- Outside the cases of R246 each type does its required invalidation and serializes (R226 to R229, R244). -/
theorem State.invpcidTyped_usual {s : State} {type : Nat} {p : Pcid} {la : Word}
    (usual : s.self.UsualInvpcid type p la) (i : Instr) :
    s.invpcidTyped i type false p la =
      (s.invalidate (s.self.typeTlb type p la) (s.self.typePsc type p la)).onSelf Processor.serialize := by
  obtain ⟨paging, canonical, pcid⟩ := usual
  match type with
  | 0 =>
    have usual : (false || s.self.unusualAddress la || s.self.unusualPcid p) = false := by
      simp [Processor.unusualAddress, paging, canonical rfl, Processor.unusualPcid_eq_false (pcid (by decide))]
    exact s.invpcidUnless_usual i usual fun s => s.invpcidAddress p la
  | 1 =>
    have usual : (false || s.self.pagingMode == .none || s.self.unusualPcid p) = false := by
      simp [paging, Processor.unusualPcid_eq_false (pcid (by decide))]
    exact s.invpcidUnless_usual i usual fun s => s.invpcidContext p
  | 2 => exact s.invpcidUnless_usual i (by simp [paging]) _
  | _ + 3 => exact s.invpcidUnless_usual i (by simp [paging]) _

theorem OnlyInvalidated.invpcidTyped {s : State} {type : Nat} {p : Pcid} {la : Word}
    (usual : s.self.UsualInvpcid type p la) (i : Instr) :
    OnlyInvalidated s.draws (s.self.typeTlb type p la) (s.self.typePsc type p la) s
        (s.invpcidTyped i type false p la) ∧
      (s.invpcidTyped i type false p la).self.window = [] := by
  rw [State.invpcidTyped_usual usual]
  exact OnlyInvalidated.serialized s _ _

/-- Settles O36: the type's work (`State.invpcidTyped`) is run in supervisor mode. -/
theorem invpcidAddressResult : Obligations.InvpcidAddressResult := by
  intro p la s supervisor paging canonical pcid
  obtain ⟨gone, window⟩ := OnlyInvalidated.invpcidTyped (s := s) (type := 0)
    ⟨paging, fun _ => canonical, fun _ => pcid⟩ (.invpcidAddress p la)
  exact ⟨_, exec_privileged supervisor rfl, window, gone⟩

/-- Settles O37, as `invpcidAddressResult`; this type has no address. -/
theorem invpcidContextResult : Obligations.InvpcidContextResult := by
  intro p s supervisor paging pcid
  obtain ⟨gone, window⟩ := OnlyInvalidated.invpcidTyped (s := s) (type := 1) (la := 0)
    ⟨paging, nofun, fun _ => pcid⟩ (.invpcidContext p)
  exact ⟨_, exec_privileged supervisor rfl, window, gone⟩

/-- Settles O38: everything is in the required sets (`Processor.invalidate_all_eq`). -/
theorem invpcidAllGlobalsResult : Obligations.InvpcidAllGlobalsResult := by
  intro s supervisor paging
  have work : s.invpcidType2 .invpcidAllGlobals false = s.invpcidAllGlobals :=
    s.invpcidUnless_usual _ (by simp [paging]) _
  refine ⟨s.invpcidAllGlobals, (exec_privileged supervisor rfl).trans (congrArg _ work), ?_,
    rfl, rfl, rfl, rfl⟩
  exact congrArg Processor.serialize (s.self.invalidate_all_eq _ _)

/-- Settles O39: every paging-structure-cache entry is in the required set (`Processor.psc_invalidate_allPsc`). -/
theorem invpcidAllResult : Obligations.InvpcidAllResult := by
  intro s supervisor paging
  have work : s.invpcidType3 .invpcidAll false = s.invpcidAll := s.invpcidUnless_usual _ (by simp [paging]) _
  obtain ⟨gone, window⟩ := OnlyInvalidated.serialized s nonGlobal allPsc
  exact ⟨s.invpcidAll, (exec_privileged supervisor rfl).trans (congrArg _ work), window,
    s.self.psc_invalidate_allPsc nonGlobal (Config.dropsTlb s.draws) (Config.dropsPsc s.draws), gone⟩

/-! ### The cases of R246 -/

/-- `t` is `s` after #GP of the operation `i`, or after an invalidation and nothing else. -/
def GpOrInvalidated (i : Instr) (s t : State) : Prop :=
  TookGp i s t ∨ ∃ n rt rp, OnlyInvalidated n rt rp s t

theorem GpOrInvalidated.raiseGp (s : State) (i : Instr) : GpOrInvalidated i s (s.raiseGp i) := .inl (.raiseGp s i)

theorem GpOrInvalidated.serialized (i : Instr) (s : State) (rt : TlbEntry → Bool) (rp : CacheKind → PscEntry → Bool) :
    GpOrInvalidated i s ((s.invalidate rt rp).onSelf Processor.serialize) :=
  .inr ⟨_, _, _, (OnlyInvalidated.serialized s rt rp).1⟩

theorem GpOrInvalidated.after_tick {i : Instr} {s t : State} (h : GpOrInvalidated i s.tick t) :
    GpOrInvalidated i s t := by
  rcases h with gp | ⟨n, rt, rp, gone⟩
  · exact .inl ⟨gp.cfg, gp.others, gp.mem, gp.trace, gp.self⟩
  · exact .inr ⟨n, rt, rp, gone.after_tick⟩

/-- A privileged operation raises #GP itself outside supervisor mode (R308). -/
theorem GpOrInvalidated.privileged {s : State} {i : Instr} {run : State → State}
    (h : GpOrInvalidated i s (run s)) : GpOrInvalidated i s (s.privileged i run) := by
  rcases s.privileged_cases i run with e | e <;> rw [e]
  · exact .raiseGp s i
  · exact h

theorem GpOrInvalidated.invlpgAt (s : State) (i : Instr) (la : Word) : GpOrInvalidated i s (s.invlpgAt i la) := by
  unfold State.invlpgAt State.invlpgUnusual
  split
  · refine .after_tick ?_
    split
    · exact .raiseGp _ i
    · split
      · exact .serialized i _ _ _
      · exact .serialized i _ _ _
  · exact .serialized i _ _ _

theorem GpOrInvalidated.invpcidUnless (s : State) (i : Instr) (unusual : Bool) {run : State → State}
    (h : ∀ u, GpOrInvalidated i u (run u)) : GpOrInvalidated i s (s.invpcidUnless i unusual run) := by
  unfold State.invpcidUnless
  split
  · refine .after_tick ?_
    split
    · exact .raiseGp _ i
    · exact h _
  · exact h _

/-- Every type of `INVPCID` raises #GP or invalidates, also in the cases of R246. -/
theorem GpOrInvalidated.invpcidTyped (s : State) (i : Instr) (type : Nat) (reserved : Bool) (p : Pcid) (la : Word) :
    GpOrInvalidated i s (s.invpcidTyped i type reserved p la) := by
  match type with
  | 0 => exact .invpcidUnless _ _ _ fun _ => .serialized i _ _ _
  | 1 => exact .invpcidUnless _ _ _ fun _ => .serialized i _ _ _
  | 2 => exact .invpcidUnless _ _ _ fun _ => .serialized i _ _ _
  | _ + 3 => exact .invpcidUnless _ _ _ fun _ => .serialized i _ _ _

/-- `INVLPG`, or one of the `INVPCID` types given by its operands. -/
def IsInvalidation (i : Instr) : Prop :=
  (∃ m, i = .invlpg m) ∨ (∃ p la, i = .invpcidAddress p la) ∨ (∃ p, i = .invpcidContext p) ∨
    i = .invpcidAllGlobals ∨ i = .invpcidAll

/-- These operations go on in every case, and raise #GP or invalidate (R246, N26). -/
theorem exec_invalidates {i : Instr} (h : IsInvalidation i) (s : State) :
    ∃ t, exec i s = .next t ∧ GpOrInvalidated i s t := by
  rcases h with ⟨m, rfl⟩ | ⟨p, la, rfl⟩ | ⟨p, rfl⟩ | rfl | rfl
  · exact ⟨_, rfl, .privileged (GpOrInvalidated.invlpgAt s.tick _ _).after_tick⟩
  · exact ⟨_, rfl, .privileged (.invpcidTyped s _ 0 false p la)⟩
  · exact ⟨_, rfl, .privileged (.invpcidTyped s _ 1 false p 0)⟩
  · exact ⟨_, rfl, .privileged (.invpcidTyped s _ 2 false 0 0)⟩
  · exact ⟨_, rfl, .privileged (.invpcidTyped s _ 3 false 0 0)⟩

/-- In supervisor mode `INVPCID` of a type up to 3 goes on to the read of its descriptor (R225). -/
theorem exec_invpcid_defined {r : Reg} {m : MemOperand} {s : State} (supervisor : s.self.mode = .supervisor)
    (type : (s.self.source r).toNat ≤ 3) :
    exec (.invpcid r m) s = .next (s.tick.invpcidAt (.invpcid r m) (s.self.source r).toNat
      (s.self.linearAddress (Config.instructionPointer s.draws) m)) := by
  have notUser : s.self.mode ≠ .user := by simp [supervisor]
  exact (if_neg notUser).trans (if_neg (Nat.not_lt.2 type))

/-- Settles O35: `exec_invalidates` for the first clause, and no refusal in the others. -/
theorem unusualOperands : Obligations.UnusualOperands :=
  ⟨fun _ s _ invalidates => exec_invalidates invalidates s,
    fun _ _ _ supervisor type => ⟨_, exec_invpcid_defined supervisor type⟩, fun _ _ _ _ => ⟨_, rfl⟩⟩

end Sys2Proof.Machine
end

section
/-! PROOF. The moves to CR0, CR3 and CR4 and the task switch: what each removes and writes (R230 to R238), and which
entries that a move to CR4 leaves are for which addresses (R247, log entry 37). -/

namespace Sys2Proof.Machine

/-! ### The invalidation of a load -/

theorem State.invalidate_if (s : State) (c : Bool) (rt : TlbEntry → Bool) (rp : CacheKind → PscEntry → Bool) :
    (if c then s.invalidate rt rp else s.invalidate noTlb noPsc) =
      s.invalidate (fun e => c && rt e) (fun k e => c && rp k e) := by
  cases c <;> rfl

theorem State.invalidate_all_if (s : State) (c : Bool) :
    (if c then s.invalidate allTlb allPsc else s.invalidate noTlb noPsc) =
      s.invalidate (fun _ => c) (fun _ _ => c) := by
  cases c <;> rfl

/-- A load of CR3 after an invalidation leaves the entries that the invalidation leaves, whatever the PDPTE registers
become (R220, R234). -/
theorem State.onSelf_setCr3 (s : State) (c : Params) (m : Memory) (v : Word) :
    ∃ q, (s.onSelf fun l => l.setCr3 c m v) = s.onSelf fun l => { l with cr3 := v, pdptrs := q } :=
  ⟨_, congrArg (fun l => s.onSelf fun _ => l) (s.self.setCr3_eq c m v)⟩

/-! ### MOV to CR0 -/

theorem exec_movToCr0_taken {r : Reg} {s : State} (supervisor : s.self.mode = .supervisor)
    (taken : s.self.cr0Refused (s.self.source r) = false) :
    exec (.movToCr0 r) s = .next (s.loadCr0 (s.self.source r)) := by
  have loads : s.movToCr0 (.movToCr0 r) (s.self.source r) = s.loadCr0 (s.self.source r) := by
    simp [State.movToCr0, taken]
  exact (exec_privileged supervisor rfl).trans (congrArg _ loads)

/-- The write of CR0, with the set that it must remove as a function of what it does to `CR0.PG` (R230). -/
theorem State.loadCr0_invalidate (s : State) (v : Word) :
    s.loadCr0 v = (s.invalidate (fun _ => s.self.pg && !cr0Pg v) (fun _ _ => s.self.pg && !cr0Pg v)).onSelf
      fun l => (l.setCr0 v).serialize := by
  simp only [State.loadCr0, State.invalidate_all_if]

/-- Settles O43. -/
theorem movToCr0Result : Obligations.MovToCr0Result := by
  intro r s supervisor taken
  have gone := (OnlyInvalidated.invalidate s (fun _ => s.self.pg && !cr0Pg (s.self.source r))
    (fun _ _ => s.self.pg && !cr0Pg (s.self.source r))).gone
  refine ⟨_, exec_movToCr0_taken supervisor taken, ?_⟩
  rw [State.loadCr0_invalidate]
  exact ⟨⟨rfl, rfl, fun _ => rfl, rfl⟩, ⟨gone.tlb, gone.psc⟩, rfl⟩

/-- `IA32_EFER` keeps every bit but `LMA` (G2). -/
theorem eferWithLma_getLsbD_ne (efer : Word) (pg : Bool) {i : Nat} (notLma : i ≠ 10) :
    (eferWithLma efer pg).getLsbD i = efer.getLsbD i := by
  have clear : (1#64 <<< 10).getLsbD i = false := by
    rw [BitVec.getLsbD_shiftLeft, BitVec.getLsbD_one]
    rcases Nat.lt_or_gt_of_ne notLma with below | above
    · simp [below]
    · simp [Nat.sub_ne_zero_of_lt above]
  have kept : (efer &&& ~~~(1#64 <<< 10)).getLsbD i = efer.getLsbD i := by
    rw [BitVec.getLsbD_and, BitVec.getLsbD_not, clear]
    by_cases inside : i < 64
    · simp [inside]
    · simp [BitVec.getLsbD_of_ge efer i (Nat.le_of_not_lt inside)]
  have zero : (0 : Word).getLsbD i = false := BitVec.getLsbD_zero
  unfold eferWithLma
  split
  · rw [BitVec.getLsbD_or, kept, clear, Bool.or_false]
  · rw [BitVec.getLsbD_or, kept, zero, Bool.or_false]

/-- Settles O44, by the bits of `eferWithLma`. -/
theorem lmaFollowsPaging : Obligations.LmaFollowsPaging := by
  intro r s t supervisor taken run
  rw [exec_movToCr0_taken supervisor taken, State.loadCr0_invalidate] at run
  cases run
  exact ⟨eferWithLma_lma _ _, fun i notLma => eferWithLma_getLsbD_ne _ _ notLma⟩

/-! ### MOV to CR3 -/

/-- The load of CR3, with the set that it must remove as a function of `CR4.PCIDE` and bit 63 of the source (R231 to
R234). -/
theorem State.movToCr3_moved (s : State) (v : Word) :
    ∃ q, s.movToCr3 v =
      (s.invalidate (fun e => s.self.cr3Invalidates v && nonGlobalOf (s.self.cr3Pcid v) e)
        (fun k e => s.self.cr3Invalidates v && pscOf (s.self.cr3Pcid v) k e)).onSelf fun l =>
          { l with cr3 := cr3Loaded l.cr3 v, pdptrs := q }.serialize := by
  simp only [State.movToCr3, State.invalidate_if]
  exact ⟨_, congrArg (fun l : Processor => State.onSelf _ fun _ => l.serialize) (Processor.setCr3_eq _ _ _ _)⟩

/-- `MOV to CR3` invalidates as its source and `CR4.PCIDE` say, and loads CR3 (R231 to R234, R244). -/
theorem exec_movToCr3_moved {r : Reg} {s : State} (supervisor : s.self.mode = .supervisor) :
    ∃ t, exec (.movToCr3 r) s = .next t ∧ SameElsewhere s t ∧
      Invalidated s.draws
        (fun e => s.self.cr3Invalidates (s.self.source r) && nonGlobalOf (s.self.cr3Pcid (s.self.source r)) e)
        (fun k e => s.self.cr3Invalidates (s.self.source r) && pscOf (s.self.cr3Pcid (s.self.source r)) k e)
        s.self t.self ∧
      t.self.cr3 = cr3Loaded s.self.cr3 (s.self.source r) ∧
      t.self = { s.self with
        cr3 := t.self.cr3, pdptrs := t.self.pdptrs, tlb := t.self.tlb, psc := t.self.psc
        window := [] } := by
  have gone := (OnlyInvalidated.invalidate s
    (fun e => s.self.cr3Invalidates (s.self.source r) && nonGlobalOf (s.self.cr3Pcid (s.self.source r)) e)
    (fun k e => s.self.cr3Invalidates (s.self.source r) && pscOf (s.self.cr3Pcid (s.self.source r)) k e)).gone
  obtain ⟨q, moved⟩ := s.movToCr3_moved (s.self.source r)
  refine ⟨_, exec_privileged supervisor rfl, ?_⟩
  rw [moved]
  exact ⟨⟨rfl, rfl, fun _ => rfl, rfl⟩, ⟨gone.tlb, gone.psc⟩, rfl, rfl⟩

/-- Settles O46: PCID 000H is the one to invalidate. -/
theorem movToCr3WithoutPcids : Obligations.MovToCr3WithoutPcids := by
  intro r s supervisor off
  have pcide : s.self.pcide = false := off
  have invalidates : s.self.cr3Invalidates (s.self.source r) = true := by simp [Processor.cr3Invalidates, pcide]
  have pcid : s.self.cr3Pcid (s.self.source r) = 0 := by simp [Processor.cr3Pcid, pcide]
  obtain ⟨t, run, elsewhere, gone, cr3, self⟩ := exec_movToCr3_moved (r := r) supervisor
  rw [invalidates, pcid] at gone
  exact ⟨t, run, elsewhere, gone, by rw [cr3, cr3Loaded_low], self⟩

/-- With PCIDs on, `MOV to CR3` makes the PCID in its source current (R121, R234). -/
theorem Processor.curPcid_loaded {l l' : Processor} {src : Word} (on : l.pcide = true) (cr4 : l'.cr4 = l.cr4)
    (cr3 : l'.cr3 = cr3Loaded l.cr3 src) : l'.curPcid = src.extractLsb' 0 12 := by
  have stillOn : l'.pcide = true := by rw [← on, Processor.pcide, cr4]; rfl
  rw [Processor.curPcid_on stillOn, cr3, cr3Loaded_pcid]

/-- Settles O47: the PCID in the source is the one to invalidate. -/
theorem movToCr3Establishes : Obligations.MovToCr3Establishes := by
  intro r s supervisor on flush
  have pcide : s.self.pcide = true := on
  have invalidates : s.self.cr3Invalidates (s.self.source r) = true := by
    rw [Processor.cr3Invalidates, flush, Bool.and_false]; rfl
  have pcid : s.self.cr3Pcid (s.self.source r) = (s.self.source r).extractLsb' 0 12 := if_pos pcide
  obtain ⟨t, run, elsewhere, gone, cr3, self⟩ := exec_movToCr3_moved (r := r) supervisor
  rw [invalidates, pcid] at gone
  exact ⟨t, run, elsewhere, Processor.curPcid_loaded pcide (by rw [self]) cr3, gone,
    by rw [cr3, cr3Loaded_low], self⟩

/-- Settles O48: nothing is to be invalidated. -/
theorem movToCr3WithoutFlush : Obligations.MovToCr3WithoutFlush := by
  intro r s supervisor on keep
  have pcide : s.self.pcide = true := on
  have invalidates : s.self.cr3Invalidates (s.self.source r) = false := by
    simp [Processor.cr3Invalidates, pcide, keep]
  obtain ⟨t, run, elsewhere, gone, cr3, self⟩ := exec_movToCr3_moved (r := r) supervisor
  rw [invalidates] at gone
  exact ⟨t, run, elsewhere, Processor.curPcid_loaded pcide (by rw [self]) cr3, gone,
    by rw [cr3, cr3Loaded_low], by rw [cr3, cr3Loaded_high _ _ _ (by decide)], self⟩

/-! ### The task switch -/

/-- Settles O56, by whether the task switch changes CR3. -/
theorem taskSwitchResult : Obligations.TaskSwitchResult := by
  intro v s
  refine ⟨fun ia32e => if_pos ia32e, fun legacy => ?_⟩
  have occurs : exec (.taskSwitch v) s = .next (s.taskSwitch v) := if_neg (by simp [legacy])
  refine ⟨_, occurs, ?_⟩
  by_cases same : v = s.self.cr3
  · have unchanged : (v != s.self.cr3) = false := by simp [same]
    have gone := (OnlyInvalidated.invalidate s noTlb noPsc).gone
    rw [s.taskSwitch_same v same, unchanged]
    exact ⟨⟨rfl, rfl, fun _ => rfl, rfl⟩, gone, by rw [same]; rfl⟩
  · have changed : (v != s.self.cr3) = true := by simp [same]
    have gone := (OnlyInvalidated.invalidate s (nonGlobalOf 0) (pscOf 0)).gone
    obtain ⟨q, switched⟩ := (s.invalidate (nonGlobalOf 0) (pscOf 0)).onSelf_setCr3 s.cfg s.mem v
    rw [s.taskSwitch_other v same, switched, changed]
    exact ⟨⟨rfl, rfl, fun _ => rfl, rfl⟩, ⟨gone.tlb, gone.psc⟩, rfl⟩

/-! ### MOV to CR4 -/

theorem exec_movToCr4_taken {r : Reg} {s : State} (supervisor : s.self.mode = .supervisor)
    (taken : s.self.cr4Refused s.cfg (s.self.source r) = false) :
    exec (.movToCr4 r) s = .next (s.loadCr4 (s.self.source r)) := by
  have loads : s.movToCr4 (.movToCr4 r) (s.self.source r) = s.loadCr4 (s.self.source r) := by
    simp [State.movToCr4, taken]
  exact (exec_privileged supervisor rfl).trans (congrArg _ loads)

/-- A write of CR4 that flushes everything (R235). -/
theorem State.loadCr4_flushesAll {s : State} {v : Word} (flushes : s.self.cr4FlushesAll v = true) :
    s.loadCr4 v = (s.invalidate allTlb allPsc).onSelf fun l => { l with cr4 := v }.serialize := by
  simp only [State.loadCr4, flushes, if_true]

/-- Any other write of CR4 flushes the current PCID or nothing (R236). -/
theorem State.loadCr4_otherwise {s : State} {v : Word} (flushes : s.self.cr4FlushesAll v = false) :
    s.loadCr4 v = (s.invalidate (fun e => s.self.cr4FlushesPcid v && tlbOf s.self.curPcid e)
      (fun k e => s.self.cr4FlushesPcid v && pscOf s.self.curPcid k e)).onSelf
        fun l => { l with cr4 := v }.serialize := by
  simp only [State.loadCr4, flushes, Bool.false_eq_true, if_false, State.invalidate_if]

/-- Settles O50: everything is in the required sets (`Processor.invalidate_all_eq`). -/
theorem movToCr4FlushesAll : Obligations.MovToCr4FlushesAll := by
  intro r s supervisor taken changes
  have flushes : s.self.cr4FlushesAll (s.self.source r) = true := by
    simpa [Processor.cr4FlushesAll, cr4Pge, Processor.pge, Processor.pcide, cr4Pcide] using changes
  refine ⟨_, exec_movToCr4_taken supervisor taken, ?_⟩
  rw [State.loadCr4_flushesAll flushes]
  refine ⟨⟨rfl, rfl, fun _ => rfl, rfl⟩, ?_⟩
  exact congrArg (fun l : Processor => { l with cr4 := s.self.source r }.serialize) (s.self.invalidate_all_eq _ _)

/-! ### Entries that a move to CR4 leaves -/

/-- A canonical address of 4-level paging is canonical in both modes of IA-32e mode. -/
theorem PagingMode.canonical_of_l4 {m : PagingMode} (ia32e : m.ia32e = true) {la : Word}
    (h : PagingMode.l4.canonical la = true) : m.canonical la = true := by
  cases m with
  | none | p32 | pae => cases ia32e
  | l4 => exact h
  | l5 =>
    have := la.isLt
    simp only [PagingMode.canonical, PagingMode.ia32e, PagingMode.width, Bool.not_true, Bool.false_or,
      Bool.or_eq_true, beq_iff_eq, Nat.shiftRight_eq_div_pow] at h ⊢
    omega

/-- Between the modes of IA-32e mode an entry stays for the same canonical addresses of 4-level paging (R247, log
entry 37). -/
theorem Processor.asIn_ia32e {l l' : Processor} (was : l.pagingMode.ia32e = true) (is : l'.pagingMode.ia32e = true)
    {la : Word} (canonical : PagingMode.l4.canonical la = true) (made : PagingMode) :
    l'.asIn made la = l.asIn made la := by
  rw [l'.asIn_canonical is (PagingMode.canonical_of_l4 is canonical),
    l.asIn_canonical was (PagingMode.canonical_of_l4 was canonical)]

/-- An entry made in 4-level paging is for no canonical address of 5-level paging that is not one of 4-level paging
(R247, log entry 37). -/
theorem Processor.asIn_l4_none {l : Processor} (ia32e : l.pagingMode.ia32e = true) {la : Word}
    (canonical : l.pagingMode.canonical la = true) (wide : PagingMode.l4.canonical la = false) :
    l.asIn .l4 la = none := by
  have other : PagingMode.l4.extend la ≠ la := fun own => by
    rw [PagingMode.canonical_of_extend rfl own] at wide
    cases wide
  rw [l.asIn_canonical ia32e canonical, if_neg other]

/-- Settles O51: the removal is that of the current PCID or none, and the addresses of an entry are those of
`Processor.asIn` before and after. -/
theorem movToCr4Otherwise : Obligations.MovToCr4Otherwise := by
  intro r s supervisor taken pge pcide flush
  have flushes : s.self.cr4FlushesAll (s.self.source r) = false := by
    simpa [Processor.cr4FlushesAll, cr4Pge, Processor.pge, Processor.pcide, cr4Pcide] using And.intro pge pcide
  have gone := (OnlyInvalidated.invalidate s (fun e => flush && tlbOf s.self.curPcid e)
    (fun k e => flush && pscOf s.self.curPcid k e)).gone
  refine ⟨_, exec_movToCr4_taken supervisor taken, ?_⟩
  rw [State.loadCr4_otherwise flushes]
  refine ⟨⟨rfl, rfl, fun _ => rfl, rfl⟩, ⟨gone.tlb, gone.psc⟩, rfl, fun was is => ⟨fun la canonical => ?_,
    fun la canonical wide => ?_⟩⟩
  · have same := Processor.asIn_ia32e was is canonical
    exact ⟨fun e => by rw [Processor.matchesTlb, same]; rfl, fun k e => by rw [Processor.tagMatches, same]; rfl⟩
  · have absent := Processor.asIn_l4_none is canonical wide
    exact ⟨fun e made => by rw [Processor.matchesTlb, made, absent]; rfl,
      fun k e made => by rw [Processor.tagMatches, made, absent]; rfl⟩

end Sys2Proof.Machine
end

section
/-! PROOF. `INVPCID` with its descriptor in memory (R225), and translations right after a page fault (R243). -/

namespace Sys2Proof.Machine

/-! ### The descriptor's read -/

/-- `INVPCID` of a type up to 3, its descriptor at a canonical address, does what follows the descriptor's read
(R225). -/
theorem exec_invpcid_read {r : Reg} {m : MemOperand} {s : State} (supervisor : s.self.mode = .supervisor)
    (type : (s.self.source r).toNat ≤ 3)
    (canonical : s.self.pagingMode.canonical
      (s.self.linearAddress (Config.instructionPointer s.draws) m) = true) :
    exec (.invpcid r m) s = .next (invpcidRead (.invpcid r m) (s.self.source r).toNat (s.again (.invpcid r m))
      (s.tick.tick.accessOnce (s.self.linearAddress (Config.instructionPointer s.draws) m) (.read 16)
        .supervisor)) := by
  rw [exec_invpcid_defined supervisor type, State.invpcidAt, State.tick_self, canonical]
  rfl

theorem OnlyCaches.usualInvpcid {l l' : Processor} (o : OnlyCaches l l') {type : Nat} {p : Pcid} {la : Word}
    (usual : l.UsualInvpcid type p la) : l'.UsualInvpcid type p la := by
  rw [o]; exact ⟨usual.paging, usual.canonical, usual.pcid⟩

theorem OnlyCaches.typeTlb {l l' : Processor} (o : OnlyCaches l l') (type : Nat) (p : Pcid) (la : Word) :
    l'.typeTlb type p la = l.typeTlb type p la := by
  rw [o]; rfl

theorem OnlyCaches.typePsc {l l' : Processor} (o : OnlyCaches l l') (type : Nat) (p : Pcid) (la : Word) :
    l'.typePsc type p la = l.typePsc type p la := by
  rw [o]; rfl

/-- A descriptor's read that memory alone decides and permits gives the bytes of memory, and changes nothing but the
caches and what has been shown (R225, R307). -/
theorem State.accessOnce_read_settled {s : State} {la : Word} {n : Nat} {priv : Priv} {h : Hop}
    (settled : s.Settled la .read priv n h) :
    ∃ u, s.tick.tick.accessOnce la (.read n) priv =
        .done (Memory.readBytes s.mem (h.pa s.self.pagingMode none la) n) u ∧
      u.cfg = s.cfg ∧ u.mem = s.mem ∧ u.others = s.others ∧ OnlyCaches s.self u.self := by
  obtain ⟨l, frame, found⟩ := State.translate_settled settled
  have done := State.accessOnce_read_onePage (req := .read n) nofun settled.some settled.onePage found
  obtain ⟨more, shown⟩ := (s.tick.tick.tick.onSelf fun _ => l).showRead_eq
    (h.pa s.self.pagingMode none la) n .read h.view.memType
  refine ⟨_, done, ?_⟩
  simp only [requestKind, requestSize, shown]
  exact ⟨rfl, rfl, rfl, frame⟩

/-- Settles O40: after the descriptor's read (`State.accessOnce_read_settled`) the type's work is done
(`OnlyInvalidated.invpcidTyped`). -/
theorem invpcidResult : Obligations.InvpcidResult := by
  intro r m s h supervisor type at_ desc defined settled reserved canonical pcid
  obtain ⟨u, done, cfg, mem, others, frame⟩ := State.accessOnce_read_settled settled
  have usual : u.self.UsualInvpcid type (descPcid desc) (descLa desc) :=
    frame.usualInvpcid ⟨settled.memory.paging, canonical, pcid⟩
  obtain ⟨gone, window⟩ := OnlyInvalidated.invpcidTyped usual (.invpcid r m)
  have run : exec (.invpcid r m) s =
      .next (u.invpcidTyped (.invpcid r m) type false (descPcid desc) (descLa desc)) := by
    rw [exec_invpcid_read supervisor defined settled.canonical, done, ← reserved]
    rfl
  have memLeft : (u.invpcidTyped (.invpcid r m) type false (descPcid desc) (descLa desc)).mem = u.mem :=
    (Leaves.invpcidTyped u _ _ _ _ _).memory.mem
  refine ⟨_, run, gone.elsewhere.cfg.trans cfg, memLeft.trans mem, gone.elsewhere.others.trans others, window,
    frame.trans gone.registers, fun e left => ?_, fun k e left => ?_⟩
  · rw [← frame.typeTlb]
    exact ((gone.gone.tlb e).1 left).2.1
  · rw [← frame.typePsc]
    exact ((gone.gone.psc k e).1 left).2.1

/-- Settles O42: the descriptor's read may have filled along its walk (`State.accessOnce_forbidden`), and the page fault
is raised after that. -/
theorem invpcidDescriptorFaults : Obligations.InvpcidDescriptorFaults := by
  intro r m s w supervisor defined at_ only canonical onePage absent
  obtain ⟨u, fault, flags, elsewhere⟩ := State.accessOnce_forbidden (req := .read 16) (priv := .supervisor) w only
    (by decide) onePage (.inl absent)
  have run : exec (.invpcid r m) s =
      .next (u.raisePf at_ .read .supervisor (s.again (.invpcid r m))) := by
    rw [exec_invpcid_read supervisor defined canonical, fault]
    rfl
  refine ⟨_, run, rfl, ?_, ?_, flags.mem w, elsewhere⟩
  · rw [State.raisePf_program, flags.registers.handled, State.again, supervisor]
  · rw [← flags.trace, ← flags.registers.id]
    rfl

/-! ### After a page fault -/

section
variable (s : State) (la : Word) (k : Kind) (priv : Priv) (again : List Item)

/-- After a page fault no TLB entry is a hit for its address, if no global entry of another PCID was for it (R242,
R243). -/
theorem State.hits_raisePf (sizes : ∀ e ∈ s.self.tlb, pageBits e.shift ≤ pageBits e.xshift)
    (noForeign : s.self.noForeignGlobal la) : (s.raisePf la k priv again).self.hits la = [] := by
  refine List.eq_nil_iff_forall_not_mem.2 fun e hit => ?_
  obtain ⟨left, matched, usable⟩ := Processor.mem_hits.1 hit
  obtain ⟨mem, notRequired, -⟩ := ((s.raisePf_invalidated la k priv again).tlb e).1 left
  have pcid : e.pcid = s.self.curPcid := usable.elim id fun glob => noForeign e mem glob matched
  have onPage : s.self.onPage la e = true := Processor.onPage_of_matchesTlb (sizes e mem) matched
  have required : s.self.faultTlb la e = true := by simp [Processor.faultTlb, pcid, onPage]
  cases notRequired.symm.trans required

/-- After a page fault no entry of the paging-structure caches in use is for its address (R242). -/
theorem State.matchesPsc_raisePf {c : CacheKind} (cache : c ∈ s.self.pagingMode.caches) {e : PscEntry}
    (left : e ∈ (s.raisePf la k priv again).self.psc.get c) :
    (s.raisePf la k priv again).self.matchesPsc la c e = false := by
  obtain ⟨-, notRequired, -⟩ := ((s.raisePf_invalidated la k priv again).psc c e).1 left
  have inUse : s.self.pagingMode.caches.contains c = true := List.contains_iff_mem.2 cache
  rw [Processor.pscFor, inUse, Bool.true_and] at notRequired
  exact notRequired

/-- After a page fault no walk of its address sees an older value of memory (R243, log entry 19). -/
theorem State.sees_raisePf {p : Past} (older : p ∈ (s.raisePf la k priv again).self.window) :
    (s.raisePf la k priv again).self.sees la p = false := by
  obtain ⟨q, -, rfl⟩ := List.mem_map.1 (older : p ∈ (s.self.faulted la).window)
  simp [Processor.sees]

/-- After a page fault memory alone decides the translation of its address (R193, R243). -/
theorem State.OnlyMemory.raisePf (inv : s.Inv) (noHlat : s.cfg.hlatSupported = false)
    (paging : s.self.pagingMode ≠ .none) (noForeign : s.self.noForeignGlobal la) :
    (s.raisePf la k priv again).OnlyMemory la where
  paging := paging
  routes := Processor.routes_nothingCached noHlat (s.hits_raisePf la k priv again inv.self.sizes noForeign)
    fun _ cache _ left => s.matchesPsc_raisePf la k priv again cache left
  window _ older := s.sees_raisePf la k priv again older

end

/-- A translation that memory alone decides and permits goes to a physical address (R191). -/
theorem State.translateWith_permitted {s : State} {la : Word} {k : Kind} {priv : Priv} (only : s.OnlyMemory la)
    (permits : s.memoryPermits la k priv) (ch : WalkChoice) :
    ∃ pa mt, (s.translateWith ch la k priv).1 = .ok pa mt := by
  obtain ⟨h, mapped, last, permitted⟩ := permits
  have ends : (s.memoryPath la).ends = .mapped := mapped
  have page : (s.memoryPath la).hops.getLast? = some h := last
  have rights : s.self.permits (h.translation s.self.pagingMode none la).rights k priv = true := permitted
  simp only [State.translateWith, if_neg only.paging, only.locate ch, ends, page, State.memoryPath_cap, rights,
    if_true]
  exact ⟨_, _, rfl⟩

/-- Settles O29: after the page fault memory alone decides (`State.OnlyMemory.raisePf`), and it permits. -/
theorem noSecondSpuriousFault : Obligations.NoSecondSpuriousFault := by
  intro s t la k k' priv priv' ch inv noHlat paging noForeign run permits
  cases run
  exact State.translateWith_permitted (.raisePf s la k priv [] inv noHlat paging noForeign) permits ch

end Sys2Proof.Machine
end

section
/-! PROOF. No operation has an effect on another processor's registers or caches, nor on the number, the privilege or
the handlers of its own (R3, R20, R245). -/

namespace Sys2Proof.Machine

/-! ### Local work -/

/-- The number, the privilege and the handlers of a processor are the same. -/
structure SameIdentity (l l' : Processor) : Prop where
  id        : l'.id = l.id
  mode      : l'.mode = l.mode
  pfHandler : l'.pfHandler = l.pfHandler
  gpHandler : l'.gpHandler = l.gpHandler

/-- `t` is `s` after work of the executing processor that reaches no other, but for what those may still see of older
memory (R74, R245). -/
structure LocalWork (s t : State) : Prop where
  cfg      : t.cfg = s.cfg
  others   : OnlyWindows s.others t.others
  identity : SameIdentity s.self t.self

theorem SameIdentity.refl (l : Processor) : SameIdentity l l := ⟨rfl, rfl, rfl, rfl⟩

theorem SameIdentity.trans {l m n : Processor} (h : SameIdentity l m) (g : SameIdentity m n) : SameIdentity l n :=
  ⟨g.id.trans h.id, g.mode.trans h.mode, g.pfHandler.trans h.pfHandler, g.gpHandler.trans h.gpHandler⟩

theorem OnlyCaches.sameIdentity {l l' : Processor} (o : OnlyCaches l l') : SameIdentity l l' := by
  rw [o]; exact ⟨rfl, rfl, rfl, rfl⟩

theorem LocalWork.refl (s : State) : LocalWork s s := ⟨rfl, .refl _, .refl _⟩

theorem LocalWork.trans {s t u : State} (h : LocalWork s t) (g : LocalWork t u) : LocalWork s u :=
  ⟨g.cfg.trans h.cfg, h.others.trans g.others, h.identity.trans g.identity⟩

theorem FlagsOnly.localWork {mask : Byte} {s t : State} (h : FlagsOnly mask s t) : LocalWork s t :=
  ⟨h.cfg, h.others, h.registers.sameIdentity⟩

/-- Work on the executing processor that keeps its number, its privilege and its handlers. -/
theorem LocalWork.onSelf {s : State} {f : Processor → Processor} (h : SameIdentity s.self (f s.self)) :
    LocalWork s (s.onSelf f) := ⟨rfl, .refl _, h⟩

theorem LocalWork.show (s : State) (e : Event) : LocalWork s (s.show e) := ⟨rfl, .refl _, .refl _⟩

theorem LocalWork.store (s : State) (k : Nat) (bs : List Byte) : LocalWork s (s.store k bs) :=
  ⟨rfl, .pushed _ _, ⟨rfl, rfl, rfl, rfl⟩⟩

/-! ### Exceptions and invalidations -/

theorem TookGp.localWork {i : Instr} {s t : State} (gp : TookGp i s t) : LocalWork s t :=
  ⟨gp.cfg, gp.others ▸ .refl _, by rw [gp.self]; exact ⟨rfl, rfl, rfl, rfl⟩⟩

theorem OnlyInvalidated.localWork {n : Nat} {rt : TlbEntry → Bool} {rp : CacheKind → PscEntry → Bool} {s t : State}
    (h : OnlyInvalidated n rt rp s t) : LocalWork s t :=
  ⟨h.elsewhere.cfg, h.elsewhere.others ▸ .refl _, h.registers.sameIdentity⟩

theorem GpOrInvalidated.localWork {i : Instr} {s t : State} (h : GpOrInvalidated i s t) : LocalWork s t := by
  rcases h with gp | ⟨n, rt, rp, gone⟩
  · exact gp.localWork
  · exact gone.localWork

theorem LocalWork.raiseGp (s : State) (i : Instr) : LocalWork s (s.raiseGp i) := (TookGp.raiseGp s i).localWork

theorem LocalWork.raisePf (s : State) (la : Word) (k : Kind) (priv : Priv) (again : List Item) :
    LocalWork s (s.raisePf la k priv again) := ⟨rfl, .refl _, ⟨rfl, rfl, rfl, rfl⟩⟩

theorem LocalWork.privileged {s : State} {i : Instr} {run : State → State} (h : LocalWork s (run s)) :
    LocalWork s (s.privileged i run) := by
  rcases s.privileged_cases i run with e | e <;> rw [e]
  · exact .raiseGp s i
  · exact h

/-- An invalidation, and then work on the executing processor. -/
theorem LocalWork.invalidated {s : State} {rt : TlbEntry → Bool} {rp : CacheKind → PscEntry → Bool}
    {f : Processor → Processor} (h : ∀ l, SameIdentity l (f l)) : LocalWork s ((s.invalidate rt rp).onSelf f) :=
  (OnlyInvalidated.invalidate s rt rp).localWork.trans (.onSelf (h _))

/-! ### Accesses -/

theorem LocalWork.showRead (s : State) (pa n : Nat) (k : Kind) (mt : BitVec 3) :
    LocalWork s (s.showRead pa n k mt) := by
  obtain ⟨more, shown⟩ := s.showRead_eq pa n k mt
  rw [shown]; exact ⟨rfl, .refl _, .refl _⟩

theorem LocalWork.readParts (s : State) (k : Kind) (parts : List (Nat × Nat × BitVec 3)) :
    LocalWork s (s.readParts k parts).2 := by
  induction parts generalizing s with
  | nil => exact .refl s
  | cons part rest ih => exact (LocalWork.showRead s _ _ _ _).trans (ih _)

theorem LocalWork.writeParts (s : State) (parts : List (Nat × Nat × BitVec 3)) (bs : List Byte) :
    LocalWork s (s.writeParts parts bs) := by
  induction parts generalizing s bs with
  | nil => exact .refl s
  | cons part rest ih => exact ((LocalWork.store s _ _).trans (.show _ _)).trans (ih _ _)

theorem LocalWork.accessOnce (s : State) (la : Word) (req : Request) (priv : Priv) :
    LocalWork s (s.accessOnce la req priv).state := by
  unfold State.accessOnce
  have placed := (FlagsOnly.place s (requestKind req) priv
    (splitPages (requestSize req) la (requestSize req))).localWork
  generalize s.place _ _ _ = q at placed
  cases q with
  | pageFault a u => exact placed
  | ok parts u =>
    cases req with
    | read n => exact placed.trans (.readParts u .read parts)
    | fetch n => exact placed.trans (.readParts u .fetch parts)
    | write bs => exact placed.trans (.writeParts u parts bs)

theorem LocalWork.accessPieces (s : State) (la : Word) (req : Request) (priv : Priv) (pieces : List (Nat × Nat)) :
    LocalWork s (s.accessPieces la req priv pieces).state := by
  induction pieces generalizing s with
  | nil => exact .refl s
  | cons piece rest ih =>
    obtain ⟨off, n⟩ := piece
    have first := LocalWork.accessOnce s (la + BitVec.ofNat 64 off) (requestPiece req off n) priv
    rcases s.accessPieces_cons la req priv off n rest with e | e <;> rw [e]
    · exact first
    · exact first.trans (ih _)

theorem LocalWork.accessLinear (s : State) (la : Word) (req : Request) (priv : Priv) :
    LocalWork s (s.accessLinear la req priv).state :=
  (FlagsOnly.tick 0xDF s).localWork.trans (.accessPieces _ _ _ _ _)

theorem LocalWork.accessEnds (k : Kind) (priv : Priv) (again : List Item) (a : Accessed) :
    LocalWork a.state (accessEnds k priv again a) := by
  cases a with
  | done bytes s => exact .refl s
  | pageFault la s => exact .raisePf s la k priv again

theorem LocalWork.invpcidRead (i : Instr) (type : Nat) (again : List Item) (a : Accessed) :
    LocalWork a.state (invpcidRead i type again a) := by
  cases a with
  | done bytes s => exact (GpOrInvalidated.invpcidTyped s i _ _ _ _).localWork
  | pageFault la s => exact .raisePf s la _ _ again

/-! ### Control registers -/

theorem SameIdentity.setCr3 (l : Processor) (c : Params) (m : Memory) (v : Word) :
    SameIdentity l (l.setCr3 c m v) := by
  rw [l.setCr3_eq]; exact ⟨rfl, rfl, rfl, rfl⟩

theorem LocalWork.movToCr0 (s : State) (i : Instr) (v : Word) : LocalWork s (s.movToCr0 i v) := by
  unfold State.movToCr0
  split
  · exact .raiseGp s i
  · rw [s.loadCr0_invalidate]; exact .invalidated fun _ => ⟨rfl, rfl, rfl, rfl⟩

theorem LocalWork.movToCr3 (s : State) (v : Word) : LocalWork s (s.movToCr3 v) := by
  obtain ⟨q, moved⟩ := s.movToCr3_moved v
  rw [moved]; exact .invalidated fun _ => ⟨rfl, rfl, rfl, rfl⟩

theorem LocalWork.movToCr4 (s : State) (i : Instr) (v : Word) : LocalWork s (s.movToCr4 i v) := by
  unfold State.movToCr4
  split
  · exact .raiseGp s i
  · obtain ⟨rt, rp, loaded⟩ := s.loadCr4_eq v
    rw [loaded]; exact .invalidated fun _ => ⟨rfl, rfl, rfl, rfl⟩

theorem LocalWork.taskSwitch (s : State) (v : Word) : LocalWork s (s.taskSwitch v) := by
  by_cases same : v = s.self.cr3
  · rw [s.taskSwitch_same v same]; exact (OnlyInvalidated.invalidate s _ _).localWork
  · rw [s.taskSwitch_other v same]; exact .invalidated fun l => .setCr3 l _ _ _

/-! ### Operations -/

theorem LocalWork.execInvpcid {r : Reg} {m : MemOperand} {s t : State} (h : execInvpcid r m s = .next t) :
    LocalWork s t := by
  have ticked : LocalWork s s.tick.tick := ((FlagsOnly.tick 0xDF s).trans (.tick _ _)).localWork
  unfold Machine.execInvpcid at h
  extract_lets i at h
  split at h
  · cases h; exact .raiseGp s i
  · split at h
    · cases h
    · cases h
      unfold State.invpcidAt
      split
      · exact ticked.trans (.raiseGp _ i)
      · exact ticked.trans ((LocalWork.accessOnce _ _ _ _).trans (.invpcidRead _ _ _ _))

theorem LocalWork.execAccess {la : Word} {req : Request} {priv : Priv} {s t : State}
    (h : execAccess la req priv s = .next t) : LocalWork s t := by
  have ticked : LocalWork s s.tick := (FlagsOnly.tick 0xDF s).localWork
  unfold Machine.execAccess at h
  cases h
  split
  · exact ticked.trans (.raiseGp _ _)
  · exact ticked.trans ((LocalWork.accessLinear _ _ _ _).trans (.accessEnds _ _ _ _))

theorem LocalWork.execMovFromCr {n : BitVec 3} {r : Reg} {s t : State} (h : execMovFromCr n r s = .next t) :
    LocalWork s t := by
  unfold Machine.execMovFromCr at h
  split at h
  · cases h; exact .raiseGp s _
  · split at h
    · cases h
    · cases h; exact .onSelf ⟨rfl, rfl, rfl, rfl⟩

/-- `INVLPG` and the `INVPCID` types raise #GP or invalidate (`exec_invalidates`). -/
theorem LocalWork.invalidates {i : Instr} (invalidates : IsInvalidation i) {s t : State}
    (h : exec i s = .next t) : LocalWork s t := by
  obtain ⟨u, run, work⟩ := exec_invalidates invalidates s
  cases h.symm.trans run
  exact work.localWork

theorem LocalWork.exec {i : Instr} {s t : State} (h : exec i s = .next t) : LocalWork s t := by
  cases i with
  | invlpg m => exact .invalidates (.inl ⟨m, rfl⟩) h
  | invpcid r m => exact .execInvpcid h
  | invpcidAddress p la => exact .invalidates (.inr (.inl ⟨p, la, rfl⟩)) h
  | invpcidContext p => exact .invalidates (.inr (.inr (.inl ⟨p, rfl⟩))) h
  | invpcidAllGlobals => exact .invalidates (.inr (.inr (.inr (.inl rfl)))) h
  | invpcidAll => exact .invalidates (.inr (.inr (.inr (.inr rfl)))) h
  | movToCr0 r => cases h; exact .privileged (.movToCr0 s _ _)
  | movToCr3 r => cases h; exact .privileged (.movToCr3 s _)
  | movToCr4 r => cases h; exact .privileged (.movToCr4 s _ _)
  | movFromCr n r => exact .execMovFromCr h
  | hlt => cases h; exact .privileged (.onSelf ⟨rfl, rfl, rfl, rfl⟩)
  | taskSwitch v => rw [(execTaskSwitch_next h).2]; exact .taskSwitch s v
  | vmxTransition => cases h; exact (OnlyInvalidated.invalidate s _ _).localWork
  | pageFault la k priv => cases h; exact .raisePf s _ _ _ _
  | access la req priv => exact .execAccess h
  | fill la => cases h; exact (FlagsOnly.fill s la).localWork
  | evict e => cases h; exact .onSelf ⟨rfl, rfl, rfl, rfl⟩

/-- Settles O58, from what each operation can do (`LocalWork.exec`). -/
theorem localEffectOnly : Obligations.LocalEffectOnly := by
  intro i s t h
  obtain ⟨cfg, others, id, mode, pfHandler, gpHandler⟩ := LocalWork.exec h
  exact ⟨cfg, others, id, mode, pfHandler, gpHandler⟩

end Sys2Proof.Machine
end

section
/-! PROOF. The steps that do no work of an operation: bytes that are no instruction of the table are refused (R309),
and the system instructions raise #GP outside supervisor mode (R308, R331). -/

namespace Sys2Proof.Machine

/-! ### Bytes that are no instruction -/

/-- The stream's bytes are decoded before anything is taken from it (R309). -/
theorem State.fetch_undecodable {s : State} {priv : Priv} {bytes : List Byte} {e : DecodeError} {rest : List Item}
    (running : s.self.halted = false) (head : s.self.program = { priv, work := .code bytes } :: rest)
    (bad : decode bytes = .error e) : s.fetch = .undecodable e := by
  simp [State.fetch, running, head, bad]

theorem step_undecodable {s : State} {e : DecodeError} (h : s.fetch = .undecodable e) :
    step s = .refused (.undecodable e) := by
  simp [step, h]

/-- Settles O4. -/
theorem stepRefusesOtherBytes : Obligations.StepRefusesOtherBytes := by
  intro s priv bytes e rest running head bad
  exact step_undecodable (State.fetch_undecodable running head bad)

/-! ### System instructions outside supervisor mode -/

/-- Outside supervisor mode a privileged operation raises #GP in place of its work (R308; log entry 20). -/
theorem exec_privileged_user {i : Instr} {s : State} {run : State → State} (user : s.self.mode = .user)
    (privileged : exec i s = .next (s.privileged i run)) : exec i s = .next (s.raiseGp i) :=
  privileged.trans (congrArg Host.Outcome.next (s.privileged_user i run user))

/-- `INVPCID` raises #GP before its type is looked at. -/
theorem exec_invpcid_user {r : Reg} {m : MemOperand} {s : State} (user : s.self.mode = .user) :
    exec (.invpcid r m) s = .next (s.raiseGp (.invpcid r m)) := if_pos user

/-- A move from a control register raises #GP before its number is looked at. -/
theorem exec_movFromCr_user {n : BitVec 3} {r : Reg} {s : State} (user : s.self.mode = .user) :
    exec (.movFromCr n r) s = .next (s.raiseGp (.movFromCr n r)) := if_pos user

/-- Settles O32: each of the system instructions is a privileged operation, or checks the privilege first. -/
theorem userModeRaisesGp : Obligations.UserModeRaisesGp := by
  intro i s user system
  have raises : exec i s = .next (s.raiseGp i) := by
    rcases system with ⟨m, rfl⟩ | ⟨r, m, rfl⟩ | ⟨p, la, rfl⟩ | ⟨p, rfl⟩ | rfl | rfl | ⟨r, rfl⟩ | ⟨r, rfl⟩ | ⟨r, rfl⟩ |
      ⟨n, r, rfl⟩ | rfl
    · exact exec_privileged_user user rfl
    · exact exec_invpcid_user user
    · exact exec_privileged_user user rfl
    · exact exec_privileged_user user rfl
    · exact exec_privileged_user user rfl
    · exact exec_privileged_user user rfl
    · exact exec_privileged_user user rfl
    · exact exec_privileged_user user rfl
    · exact exec_privileged_user user rfl
    · exact exec_movFromCr_user user
    · exact exec_privileged_user user rfl
  exact ⟨s.raiseGp i, raises, .raiseGp s i⟩

end Sys2Proof.Machine
end

section
/-! PROOF. What an access that faults leaves (R321), and where the exceptions of an operation go: it leaves the
instruction stream alone, or takes one exception as the last thing it does (R321, R324, D22; log entry 18). -/

namespace Sys2Proof.Machine

/-! ### An access that faults -/

/-- The parts of an access are all translated before any byte is read or written, so a fault is that of a
translation (R321 (a), R307). -/
theorem State.place_of_accessOnce_fault {s t : State} {la a : Word} {req : Request} {priv : Priv}
    (fault : s.accessOnce la req priv = .pageFault a t) :
    s.place (requestKind req) priv (splitPages (requestSize req) la (requestSize req)) = .pageFault a t := by
  unfold State.accessOnce at fault
  generalize s.place _ _ _ = placed at fault ⊢
  cases placed with
  | pageFault b u => cases fault; rfl
  | ok parts u => cases req <;> cases fault

theorem FlagsOnly.accessOnce_fault {s t : State} {la a : Word} {req : Request} {priv : Priv}
    (fault : s.accessOnce la req priv = .pageFault a t) : FlagsOnly 0x9F s t := by
  have translated := FlagsOnly.place s (requestKind req) priv (splitPages (requestSize req) la (requestSize req))
  rwa [State.place_of_accessOnce_fault fault] at translated

/-- Settles O27: the translations that an access makes before it faults change flags and caches alone. -/
theorem faultingAccessDoesNothing : Obligations.FaultingAccessDoesNothing := by
  intro s t la a req priv w fault
  have flags := FlagsOnly.accessOnce_fault fault
  exact ⟨flags.cfg, flags.trace, flags.registers, flags.others, flags.mem w⟩

/-! ### The instruction stream left alone -/

/-- Neither the instruction stream nor the exception on record changed, nor where an exception would go. -/
structure SameStream (l l' : Processor) : Prop where
  identity  : SameIdentity l l'
  program   : l'.program = l.program
  exception : l'.exception = l.exception

theorem SameStream.refl (l : Processor) : SameStream l l := ⟨.refl l, rfl, rfl⟩

theorem OnlyCaches.sameStream {l l' : Processor} (o : OnlyCaches l l') : SameStream l l' :=
  ⟨o.sameIdentity, by rw [o], by rw [o]⟩

theorem SameStream.setCr3 (l : Processor) (c : Params) (m : Memory) (v : Word) : SameStream l (l.setCr3 c m v) := by
  refine ⟨.setCr3 l c m v, ?_, ?_⟩ <;> rw [l.setCr3_eq]

/-- An exception goes to the same handler, ahead of the same stream. -/
theorem SameStream.handled {l l' : Processor} (same : SameStream l l') (x : Exception) (again : List Item) :
    l'.handled x again = l.handled x again := by
  cases x <;> simp only [Processor.handled, Processor.handlerOf, same.program, same.identity.pfHandler,
    same.identity.gpHandler]

/-- The operation would be re-executed at the same privilege. -/
theorem SameStream.again {s u : State} (same : SameStream s.self u.self) (i : Instr) : u.again i = s.again i := by
  rw [State.again, same.identity.mode]; rfl

/-! ### At most one exception -/

/-- `t` has taken the exception: it is on record, it is the last event shown, and the stream goes on at its handler,
to re-execute `again` if that retries. -/
structure TookException (x : Exception) (again : List Item) (s t : State) : Prop where
  exception : t.self.exception = some x
  shown     : t.trace.head? = some (.exception s.self.id x)
  program   : t.self.program = s.self.handled x again

theorem TookGp.tookException {i : Instr} {s t : State} (gp : TookGp i s t) :
    TookException .generalProtection (s.again i) s t :=
  ⟨by rw [gp.self], by rw [gp.trace]; rfl, by rw [gp.self]; rfl⟩

theorem TookException.raisePf (s : State) (la : Word) (k : Kind) (priv : Priv) (again : List Item) :
    TookException (.pageFault la k priv) again s (s.raisePf la k priv again) :=
  ⟨rfl, rfl, s.raisePf_program la k priv again⟩

/-- The stream is left alone, or one exception is taken. -/
def AtMostOneException (again : List Item) (s t : State) : Prop :=
  SameStream s.self t.self ∨ ∃ x, TookException x again s t

theorem AtMostOneException.refl (again : List Item) (s : State) : AtMostOneException again s s := .inl (.refl _)

/-- Work that leaves the stream alone may go ahead of any other. -/
theorem AtMostOneException.after {again : List Item} {s u t : State} (same : SameStream s.self u.self)
    (h : AtMostOneException again u t) : AtMostOneException again s t := by
  rcases h with still | ⟨x, took⟩
  · exact .inl ⟨same.identity.trans still.identity, still.program.trans same.program,
      still.exception.trans same.exception⟩
  · exact .inr ⟨x, took.exception, by rw [took.shown, same.identity.id], by rw [took.program, same.handled]⟩

theorem AtMostOneException.after_tick {again : List Item} {s t : State} (h : AtMostOneException again s.tick t) :
    AtMostOneException again s t := .after (u := s.tick) (.refl s.self) h

theorem AtMostOneException.raiseGp (s : State) (i : Instr) : AtMostOneException (s.again i) s (s.raiseGp i) :=
  .inr ⟨_, (TookGp.raiseGp s i).tookException⟩

theorem AtMostOneException.raisePf (s : State) (la : Word) (k : Kind) (priv : Priv) (again : List Item) :
    AtMostOneException again s (s.raisePf la k priv again) := .inr ⟨_, .raisePf s la k priv again⟩

theorem GpOrInvalidated.atMostOneException {i : Instr} {s t : State} (h : GpOrInvalidated i s t) :
    AtMostOneException (s.again i) s t := by
  rcases h with gp | ⟨n, rt, rp, gone⟩
  · exact .inr ⟨_, gp.tookException⟩
  · exact .inl gone.registers.sameStream

theorem AtMostOneException.privileged {s : State} {i : Instr} {run : State → State}
    (h : AtMostOneException (s.again i) s (run s)) : AtMostOneException (s.again i) s (s.privileged i run) := by
  rcases s.privileged_cases i run with e | e <;> rw [e]
  · exact .raiseGp s i
  · exact h

/-- An invalidation, and then work on the executing processor that leaves its stream alone. -/
theorem AtMostOneException.invalidated {again : List Item} {s : State} {rt : TlbEntry → Bool}
    {rp : CacheKind → PscEntry → Bool} {f : Processor → Processor} (h : ∀ l, SameStream l (f l)) :
    AtMostOneException again s ((s.invalidate rt rp).onSelf f) :=
  .after (OnlyInvalidated.invalidate s rt rp).registers.sameStream (.inl (h _))

/-! ### Accesses -/

theorem OnlyCaches.readParts (s : State) (k : Kind) (parts : List (Nat × Nat × BitVec 3)) :
    OnlyCaches s.self (s.readParts k parts).2.self := by
  induction parts generalizing s with
  | nil => exact .refl _
  | cons part rest ih =>
    obtain ⟨pa, n, mt⟩ := part
    obtain ⟨more, shown⟩ := s.showRead_eq pa n k mt
    have first : OnlyCaches s.self (s.showRead pa n k mt).self := by rw [shown]; exact .refl _
    exact first.trans (ih _)

theorem OnlyCaches.writeParts (s : State) (parts : List (Nat × Nat × BitVec 3)) (bs : List Byte) :
    OnlyCaches s.self (s.writeParts parts bs).self := by
  induction parts generalizing s bs with
  | nil => exact .refl _
  | cons part rest ih =>
    have first : OnlyCaches s.self (s.self.pushWindow s.mem) := rfl
    exact first.trans (ih _ _)

/-- Until its page fault is raised an access changes nothing of its processor but the caches and what may still be
seen of older memory. -/
theorem OnlyCaches.accessOnce (s : State) (la : Word) (req : Request) (priv : Priv) :
    OnlyCaches s.self (s.accessOnce la req priv).state.self := by
  unfold State.accessOnce
  have placed := (FlagsOnly.place s (requestKind req) priv
    (splitPages (requestSize req) la (requestSize req))).registers
  generalize s.place _ _ _ = q at placed
  cases q with
  | pageFault a u => exact placed
  | ok parts u =>
    cases req with
    | read n => exact placed.trans (.readParts u .read parts)
    | fetch n => exact placed.trans (.readParts u .fetch parts)
    | write bs => exact placed.trans (.writeParts u parts bs)

theorem OnlyCaches.accessPieces (s : State) (la : Word) (req : Request) (priv : Priv) (pieces : List (Nat × Nat)) :
    OnlyCaches s.self (s.accessPieces la req priv pieces).state.self := by
  induction pieces generalizing s with
  | nil => exact .refl _
  | cons piece rest ih =>
    obtain ⟨off, n⟩ := piece
    have first := OnlyCaches.accessOnce s (la + BitVec.ofNat 64 off) (requestPiece req off n) priv
    rcases s.accessPieces_cons la req priv off n rest with e | e <;> rw [e]
    · exact first
    · exact first.trans (ih _)

theorem OnlyCaches.accessLinear (s : State) (la : Word) (req : Request) (priv : Priv) :
    OnlyCaches s.self (s.accessLinear la req priv).state.self := .accessPieces s.tick la req priv _

theorem AtMostOneException.accessEnds (k : Kind) (priv : Priv) (again : List Item) (a : Accessed) :
    AtMostOneException again a.state (accessEnds k priv again a) := by
  cases a with
  | done bytes s => exact .refl again s
  | pageFault la s => exact .raisePf s la k priv again

theorem AtMostOneException.invpcidRead (i : Instr) (type : Nat) (a : Accessed) :
    AtMostOneException (a.state.again i) a.state (invpcidRead i type (a.state.again i) a) := by
  cases a with
  | done bytes s => exact (GpOrInvalidated.invpcidTyped s i _ _ _ _).atMostOneException
  | pageFault la s => exact .raisePf s la _ _ _

/-- The descriptor's read leaves the stream alone, so the operation to re-execute is the one that began. -/
theorem AtMostOneException.invpcidAt (s : State) (i : Instr) (type : Nat) (la : Word) :
    AtMostOneException (s.again i) s (s.invpcidAt i type la) := by
  unfold State.invpcidAt
  split
  · exact .after_tick (.raiseGp s.tick i)
  · have accessed := (OnlyCaches.accessOnce s.tick la (.read 16) .supervisor).sameStream
    have ends := AtMostOneException.invpcidRead i type (s.tick.accessOnce la (.read 16) .supervisor)
    rw [accessed.again i] at ends
    exact .after accessed ends

/-! ### Control registers -/

theorem AtMostOneException.movToCr0 (s : State) (i : Instr) (v : Word) :
    AtMostOneException (s.again i) s (s.movToCr0 i v) := by
  unfold State.movToCr0
  split
  · exact .raiseGp s i
  · rw [s.loadCr0_invalidate]; exact .invalidated fun _ => ⟨⟨rfl, rfl, rfl, rfl⟩, rfl, rfl⟩

theorem AtMostOneException.movToCr3 (again : List Item) (s : State) (v : Word) :
    AtMostOneException again s (s.movToCr3 v) := by
  obtain ⟨q, moved⟩ := s.movToCr3_moved v
  rw [moved]; exact .invalidated fun _ => ⟨⟨rfl, rfl, rfl, rfl⟩, rfl, rfl⟩

theorem AtMostOneException.movToCr4 (s : State) (i : Instr) (v : Word) :
    AtMostOneException (s.again i) s (s.movToCr4 i v) := by
  unfold State.movToCr4
  split
  · exact .raiseGp s i
  · obtain ⟨rt, rp, loaded⟩ := s.loadCr4_eq v
    rw [loaded]; exact .invalidated fun _ => ⟨⟨rfl, rfl, rfl, rfl⟩, rfl, rfl⟩

theorem AtMostOneException.taskSwitch (again : List Item) (s : State) (v : Word) :
    AtMostOneException again s (s.taskSwitch v) := by
  by_cases same : v = s.self.cr3
  · rw [s.taskSwitch_same v same]; exact .inl (OnlyInvalidated.invalidate s _ _).registers.sameStream
  · rw [s.taskSwitch_other v same]; exact .invalidated fun l => .setCr3 l _ _ _

/-! ### Operations -/

theorem AtMostOneException.execInvpcid {r : Reg} {m : MemOperand} {s t : State} (h : execInvpcid r m s = .next t) :
    AtMostOneException (s.again (.invpcid r m)) s t := by
  unfold Machine.execInvpcid at h
  extract_lets i at h
  split at h
  · cases h; exact .raiseGp s i
  · split at h
    · cases h
    · cases h; exact .after_tick (.invpcidAt s.tick i _ _)

theorem AtMostOneException.execAccess {la : Word} {req : Request} {priv : Priv} {s t : State}
    (h : execAccess la req priv s = .next t) : AtMostOneException (s.again (.access la req priv)) s t := by
  unfold Machine.execAccess at h
  cases h
  split
  · exact .after_tick (.raiseGp s.tick _)
  · exact .after (OnlyCaches.accessLinear s.tick la req priv).sameStream (.accessEnds _ _ _ _)

theorem AtMostOneException.execMovFromCr {n : BitVec 3} {r : Reg} {s t : State}
    (h : execMovFromCr n r s = .next t) : AtMostOneException (s.again (.movFromCr n r)) s t := by
  unfold Machine.execMovFromCr at h
  split at h
  · cases h; exact .raiseGp s _
  · split at h
    · cases h
    · cases h; exact .inl ⟨⟨rfl, rfl, rfl, rfl⟩, rfl, rfl⟩

/-- `INVLPG` and the `INVPCID` types raise #GP or invalidate (`exec_invalidates`). -/
theorem AtMostOneException.invalidates {i : Instr} (invalidates : IsInvalidation i) {s t : State}
    (h : exec i s = .next t) : AtMostOneException (s.again i) s t := by
  obtain ⟨u, run, work⟩ := exec_invalidates invalidates s
  cases h.symm.trans run
  exact work.atMostOneException

/-- An exception of an operation other than the page-fault event may re-execute that operation (R321 (c), R324). -/
theorem AtMostOneException.exec {i : Instr} {s t : State} (notEvent : ∀ la k priv, i ≠ .pageFault la k priv)
    (h : exec i s = .next t) : AtMostOneException (s.again i) s t := by
  cases i with
  | invlpg m => exact .invalidates (.inl ⟨m, rfl⟩) h
  | invpcid r m => exact .execInvpcid h
  | invpcidAddress p la => exact .invalidates (.inr (.inl ⟨p, la, rfl⟩)) h
  | invpcidContext p => exact .invalidates (.inr (.inr (.inl ⟨p, rfl⟩))) h
  | invpcidAllGlobals => exact .invalidates (.inr (.inr (.inr (.inl rfl)))) h
  | invpcidAll => exact .invalidates (.inr (.inr (.inr (.inr rfl)))) h
  | movToCr0 r => cases h; exact .privileged (.movToCr0 s _ _)
  | movToCr3 r => cases h; exact .privileged (.movToCr3 _ s _)
  | movToCr4 r => cases h; exact .privileged (.movToCr4 s _ _)
  | movFromCr n r => exact .execMovFromCr h
  | hlt => cases h; exact .privileged (.inl ⟨⟨rfl, rfl, rfl, rfl⟩, rfl, rfl⟩)
  | taskSwitch v => rw [(execTaskSwitch_next h).2]; exact .taskSwitch _ s v
  | vmxTransition => cases h; exact .inl (OnlyInvalidated.invalidate s _ _).registers.sameStream
  | pageFault la k priv => exact absurd rfl (notEvent la k priv)
  | access la req priv => exact .execAccess h
  | fill la => cases h; exact .inl (FlagsOnly.fill s la).registers.sameStream
  | evict e => cases h; exact .inl ⟨⟨rfl, rfl, rfl, rfl⟩, rfl, rfl⟩

/-- Settles O31: the page-fault event raises the page fault with nothing to re-execute, and every other operation is
one of `AtMostOneException.exec`. -/
theorem exceptionGoesToHandler : Obligations.ExceptionGoesToHandler := by
  refine ⟨fun s i => (TookGp.raiseGp s i).tookException.program, State.raisePf_program, fun i s t h => ?_⟩
  by_cases event : ∃ la k priv, i = .pageFault la k priv
  · obtain ⟨la, k, priv, rfl⟩ := event
    cases h
    have took := TookException.raisePf s la k priv []
    exact .inr ⟨_, [], took.exception, took.shown, took.program, fun _ => rfl,
      fun other => absurd rfl (other la k priv)⟩
  · have notEvent : ∀ la k priv, i ≠ .pageFault la k priv := fun la k priv e => event ⟨la, k, priv, e⟩
    rcases AtMostOneException.exec notEvent h with same | ⟨x, took⟩
    · exact .inl ⟨same.program, same.exception⟩
    · exact .inr ⟨x, s.again i, took.exception, took.shown, took.program, fun e => absurd e event, fun _ => rfl⟩

end Sys2Proof.Machine
end

section
/-! PROOF. The step that runs the operation at the head of the instruction stream (D2, R335), and `HLT`, after which a
step fetches nothing (R336). -/

namespace Sys2Proof.Machine

/-! ### The operation at the head of the stream -/

/-- An operation given as such is itself, and one given by bytes is what they decode to (D2). -/
theorem State.fetch_operation {s : State} {it : Item} {rest : List Item} {i : Instr} (running : s.self.halted = false)
    (head : s.self.program = it :: rest)
    (work : it.work = .op i ∨ ∃ bytes tail, it.work = .code bytes ∧ decode bytes = .ok (i, tail)) :
    s.fetch = .ready i (s.taken it rest) := by
  rcases work with op | ⟨bytes, tail, code, decoded⟩
  · simp [State.fetch, running, head, op]
  · simp [State.fetch, running, head, code, decoded]

theorem step_ready {s u : State} {i : Instr} (h : s.fetch = .ready i u) : step s = thenBetween (exec i u) := by
  simp [step, h]

/-- Settles O3. -/
theorem stepRunsDecoded : Obligations.StepRunsDecoded := by
  intro s it rest i running head work
  exact step_ready (State.fetch_operation running head work)

/-! ### `HLT` -/

theorem State.fetch_halted {s : State} (halted : s.self.halted = true) : s.fetch = .halted := if_pos halted

/-- A step of a halted processor is its resumption, or its staying halted, and what happens between operations. -/
theorem step_halted {s : State} (halted : s.self.halted = true) : step s = .next s.wake.between := by
  rw [step, State.fetch_halted halted]; rfl

theorem exec_hlt {s : State} (supervisor : s.self.mode = .supervisor) :
    exec .hlt s = .next (s.onSelf fun l => { l with halted := true }) :=
  exec_privileged (run := fun s => s.onSelf fun l => { l with halted := true }) supervisor rfl

/-- Settles O55: `State.wake` writes `halted`, and draws one free value. -/
theorem hltStops : Obligations.HltStops := by
  intro s
  exact ⟨exec_hlt, fun halted => ⟨!Config.wakes s.draws, step_halted halted⟩⟩

end Sys2Proof.Machine
end

section
/-! PROOF. The invariants of the machine that resets (R351), from what reset leaves (R44, R45). -/

namespace Sys2Proof.Machine

/-- Empty caches meet the invariants about entries, and with paging, PCIDs and IA-32e mode off the control registers
meet theirs, whatever the parameters (R33, R34, R123). -/
theorem Processor.Inv.of_emptyCaches {c : Params} {l : Processor} (tlb : l.tlb = []) (psc : ∀ k, l.psc.get k = [])
    (pg : l.pg = false) (pcide : l.pcide = false) (lma : l.lma = false) : l.Inv c where
  tlbPcid := by simp [tlb]
  pscPcid := by simp [psc]
  pcideMode := by simp [pcide]
  pcideAllowed := by simp [pcide]
  lmaIs := by simp [lma, pg]
  pagingOff := fun _ => ⟨tlb, Psc.eq_empty _ psc⟩
  globals := by simp [tlb]
  sizes := by simp [tlb]
  frames := by simp [tlb]
  tables := by simp [psc]
  noHlat := by simp [psc]

/-- Every logical processor meets the invariants after reset, by what reset leaves (`resetLeaves`). -/
theorem Processor.Inv.of_reset (c : Params) : ∀ l ∈ State.reset.self :: State.reset.others, l.Inv c := by
  intro l hl
  obtain ⟨tlb, psc, pg, -, -, -, pcide, -, -, lma, -⟩ := resetLeaves l hl
  exact .of_emptyCaches tlb psc pg pcide lma

/-- Settles O7: reset lists no byte of memory, and leaves every processor as `Processor.Inv.of_reset` says. -/
theorem resetInv : Obligations.ResetInv where
  mem := rfl
  self := Processor.Inv.of_reset _ _ List.mem_cons_self
  others := fun l hl => Processor.Inv.of_reset _ l (List.mem_cons_of_mem _ hl)

end Sys2Proof.Machine
end
